-- ==== Sys2Proof/Word.lean ====
section
/-! DEFINITION. The word and byte types and the integer readings of vectors and byte strings
(`00_scope.md` R9, R11 to R13). -/

namespace Sys2Proof

/-- A machine word, `W = 32` bits (R9). -/
abbrev Word := BitVec 32

/-- A byte of the stream, of a buffer or of a key constant (R13). -/
abbrev Byte := BitVec 8

/-- `val(X)`: the integer a word vector stands for, least significant word first (R12, R60). -/
def val : List Word → Nat
  | [] => 0
  | w :: ws => w.toNat + 2 ^ 32 * val ws

/-- `be(B)`: the integer a byte string stands for, first byte most significant (R13). -/
def be : List Byte → Nat
  | [] => 0
  | b :: bs => b.toNat * 256 ^ bs.length + be bs

/-- `zeros(k)`: `k` bytes of `0x00` (R13). -/
def zeros (k : Nat) : List Byte := List.replicate k 0

/-- The vector of `n` words that are all zero. -/
def zeroVec (n : Nat) : List Word := List.replicate n 0

/-- The vector of `n` words with word 0 equal to 1 and the others 0 (R165, R193 line 6). -/
def oneVec : Nat → List Word
  | 0 => []
  | n + 1 => 1 :: zeroVec n

/-- `R = 2^(nW*W)` (R12). -/
def radix (n : Nat) : Nat := 2 ^ (32 * n)

end Sys2Proof
end

