-- ==== Sys2Proof/Config.lean ====
section
/-! DEFINITION. The sizes of the hardware instance (`00_scope.md` R8), the parameters the spec leaves OPEN,
and the free values: constants with no body, so that nothing in Lean can evaluate them. -/

namespace Sys2Proof

/-- The key constants, `N = 128` words each (R22). No operation writes them. -/
structure Keys where
  /-- `KEY_N`, the modulus. -/
  n : Vector Word 128
  /-- `KEY_D`, the private exponent. -/
  d : Vector Word 128
  /-- `KEY_E`, the public exponent that Verify uses (decision D8). -/
  e : Vector Word 128
deriving DecidableEq, Repr

/-- The other OPEN parameters of R8. -/
structure Params where
  /-- `SALT_SOURCE`: `none` draws the salt from ENTROPY, `some b` fixes it for tests (R283, D7). -/
  saltSource : Option (Vector Byte 32)
  /-- `FATAL_DIAG` (R338, D11). -/
  fatalDiag : List Byte
  /-- `STUB_RESPONSE` (R309, D12). -/
  stubResponse : List Byte
  /-- `RXQ_DEPTH`: `none` is unbounded (R33, D26). -/
  rxqDepth : Option Nat
deriving DecidableEq, Repr

/-- The storage places whose contents the spec calls undefined at some point (R28, R38, R39). -/
inductive Place where
  | base | rr | one | tbl (k : Nat) | z | zz | res | acc | k0 | cw | t
  | cy | bw | c | zexp | valid | ord | cause
  | digest | salt | em | sigbuf | hout | hblk
  | hs | schedule | bitCount | ctr | wi | ni | first
deriving DecidableEq, Repr

namespace Config

/-- `N` (R8). -/
abbrev numWords : Nat := 128
/-- `HASH_LEN` (R8). -/
abbrev hashLen : Nat := 32
/-- `SALT_LEN` (R8, R285). -/
abbrev saltLen : Nat := 32
/-- `MOD_BYTES` (R8). -/
abbrev modBytes : Nat := 512
/-- `EM_BITS` (R8, R250, decision D9). -/
abbrev emBits : Nat := 4095
/-- `STATUS_E` (R8, R96, decision D10). -/
abbrev statusE : Byte := 0x45

/-- `KEY_N` as embedded at build time, 512 big-endian bytes (R22); OPEN (log 8). -/
opaque keyNBytes : Vector Byte 512
/-- `KEY_D` as embedded at build time, 512 big-endian bytes (R22); OPEN (log 8). -/
opaque keyDBytes : Vector Byte 512
/-- `FATAL_DIAG`; OPEN (log 9). -/
opaque fatalDiag : List Byte

/-- ENTROPY's answer to the draw made at a given tick, byte by byte, under no law (R283; log 7). -/
opaque draw : Nat → Nat → Byte
/-- A word of a place whose contents are undefined: tick, place, index (R38; log 4). -/
opaque freeWord : Nat → Place → Nat → Word
/-- A byte of a place whose contents are undefined (R38; log 4). -/
opaque freeByte : Nat → Place → Nat → Byte
/-- A bit whose value is undefined (R28, U19; log 5). -/
opaque freeBit : Nat → Place → Bool
/-- A comparison result that is undefined (R28, U19; log 5). -/
opaque freeOrd : Nat → Place → Ordering
/-- A loop index that is undefined (R34, R38; log 4). -/
opaque freeNat : Nat → Place → Nat

/-- The decode law of R62 for a 512-byte constant: word `i` is bytes `4*(127-i)` to `4*(127-i)+3`. -/
def keyOfBytes (b : Vector Byte 512) : Vector Word 128 :=
  Vector.ofFn fun i : Fin 128 =>
    BitVec.ofNat 32
      ((b[4 * (127 - i.val)]'(by omega)).toNat * 2 ^ 24
        + (b[4 * (127 - i.val) + 1]'(by omega)).toNat * 2 ^ 16
        + (b[4 * (127 - i.val) + 2]'(by omega)).toNat * 2 ^ 8
        + (b[4 * (127 - i.val) + 3]'(by omega)).toNat)

/-- `KEY_E = 65537`, the default of R8 (decision D8; log 9). -/
def keyEDefault : Vector Word 128 := (Vector.replicate 128 0).set 0 0x00010001

/-- The key constants of the machine after reset (R39). -/
def keys : Keys := ⟨keyOfBytes keyNBytes, keyOfBytes keyDBytes, keyEDefault⟩

/-- The other open parameters of the machine after reset: the spec's defaults where R8 gives one (log 9). -/
def params : Params := ⟨none, fatalDiag, [], none⟩

end Config
end Sys2Proof
end

