-- ==== Sys2Proof/Syntax.lean ====
section
/-! DEFINITION. The instruction set: ten command rows of the byte stream (`30_encoding.md` R91, R92) and the
unit operations (R99), with the operand forms the rules of files 40 to 47 call them with. -/

namespace Sys2Proof

/-- The word-vector registers of R23 but `ACC`. -/
inductive VReg where
  | base | rr | one | tbl (k : Fin 16) | z | zz | res
deriving DecidableEq, Repr

/-- The key constants of R22. -/
inductive KeyReg where
  | n | d | e
deriving DecidableEq, Repr

/-- A vector operand that is read. The window `acc off` is `ACC[off .. off+nW-1]` (R125, R162). -/
inductive VSrc where
  | reg (r : VReg)
  | key (k : KeyReg)
  | acc (off : Nat)
  | lit (ws : List Word)
deriving DecidableEq, Repr

/-- The vector that MACV reads and writes: a register, or a window of `ACC` (R125). -/
inductive VDst where
  | reg (r : VReg)
  | acc (off : Nat)
deriving DecidableEq, Repr

/-- A word operand that is read. -/
inductive WSrc where
  | lit (w : Word)
  | reg (r : VReg) (i : Nat)
  | key (k : KeyReg) (i : Nat)
  | acc (i : Nat)
  | k0
  | cw
  | t
deriving DecidableEq, Repr

/-- Where a word result goes: `Zr[i]` of a register, or `ACC[i]` (R123 to R125). -/
inductive WDst where
  | reg (r : VReg) (i : Nat)
  | acc (i : Nat)
deriving DecidableEq, Repr

/-- The carry-in of ADDW or borrow-in of SUBW: a constant bit, or the flag the previous word step left
(`CY` for ADDW, `BW` for SUBW), as the loops of R123 and R124 use it. -/
inductive CSrc where
  | lit (b : Bool)
  | flag
deriving DecidableEq, Repr

/-- The byte buffers of R30. -/
inductive Buf where
  | digest | salt | em | sigbuf | hout | hblk
deriving DecidableEq, Repr

/-- `buf[off .. off+len)` (R13, R14). -/
structure Slice where
  buf : Buf
  off : Nat
  len : Nat
deriving DecidableEq, Repr

/-- A byte string operand that is read: literal bytes, a slice of a buffer, or `A ‖ B` (R13). -/
inductive BSrc where
  | lit (bs : List Byte)
  | slice (s : Slice)
  | cat (a b : BSrc)
deriving DecidableEq, Repr

/-- The four commands that have a name (R92). -/
inductive Cmd where
  | sign | verify | getowner | getaddress
deriving DecidableEq, Repr

/-- One constructor per row of `spec/opcode_table.json`. `nW` is the shared word count of R10. -/
inductive Instr where
  /-- SIGN, R307: the 32 payload bytes. -/
  | sign (digest : List Byte)
  /-- VERIFY, R308: the 32 digest bytes and the 512 signature bytes. -/
  | verify (digest signature : List Byte)
  /-- GETOWNER, R309. -/
  | getowner
  /-- GETADDRESS, R310. -/
  | getaddress
  /-- IGNORED_04_07, R311: `000001xx`. -/
  | ignored_04_07 (x : BitVec 2)
  /-- IGNORED_08_0F, R311: `00001xxx`. -/
  | ignored_08_0f (x : BitVec 3)
  /-- IGNORED_10_1F, R311: `0001xxxx`. -/
  | ignored_10_1f (x : BitVec 4)
  /-- IGNORED_20_3F, R311: `001xxxxx`. -/
  | ignored_20_3f (x : BitVec 5)
  /-- IGNORED_40_7F, R311: `01xxxxxx`. -/
  | ignored_40_7f (x : BitVec 6)
  /-- IGNORED_80_FF, R311: `1xxxxxxx`. -/
  | ignored_80_ff (x : BitVec 7)
  /-- ADDW, R120. -/
  | addw (a b : WSrc) (cin : CSrc) (d : WDst)
  /-- SUBW, R121. -/
  | subw (a b : WSrc) (bin : CSrc) (d : WDst)
  /-- MACW, R122: `lo` goes to `d`, `hi` to `CW`. -/
  | macw (a b z cin : WSrc) (d : WDst)
  /-- ADDV, R123. -/
  | addv (nW : Nat) (x y : VSrc) (d : VReg)
  /-- SUBV, R124. -/
  | subv (nW : Nat) (x y : VSrc) (d : VReg)
  /-- MACV, R125. -/
  | macv (nW : Nat) (zv : VDst) (x : VSrc) (y : WSrc)
  /-- CMPV, R126. -/
  | cmpv (nW : Nat) (x y : VSrc)
  /-- REMV, R127. -/
  | remv (nW : Nat) (x m : VSrc) (d : VReg)
  /-- ISZEROV, R128. -/
  | iszerov (nW : Nat) (x : VSrc)
  /-- FROMBE, R132. -/
  | frombe (nW : Nat) (b : BSrc) (d : VReg)
  /-- TOBE, R133: the `4*nW` bytes go to `buf[off ..)`. -/
  | tobe (nW : Nat) (x : VSrc) (buf : Buf) (off : Nat)
  /-- LEFTPAD, R134: the `L` bytes go to the slice `d`, whose length is `L`. -/
  | leftpad (b : BSrc) (d : Slice)
  /-- N0INV, R161: to `K0`. -/
  | n0inv (m0 : WSrc)
  /-- MONTMUL, R162. -/
  | montmul (nW : Nat) (x y m : VSrc) (k0 : WSrc) (d : VReg)
  /-- MONTFIX, R164. -/
  | montfix (nW : Nat) (zv : VReg) (m : VSrc)
  /-- RRCALC, R165: to `RR`. -/
  | rrcalc (nW : Nat) (m : VSrc)
  /-- MODEXP, R193: to `RES`. -/
  | modexp (nW : Nat) (base exp m : VSrc)
  /-- SHA256, R222: to `HOUT`. -/
  | sha256 (msg : BSrc)
  /-- MGF1XOR, R241: the slice is masked in place. -/
  | mgf1xor (buf : Slice) (seed : BSrc)
  /-- PSSENC, R253: to `EM`. -/
  | pssenc (mHash salt : BSrc) (emBits : Nat)
  /-- PSSVFY, R262: `EM` against `mHash`, to `VALID`. -/
  | pssvfy (mHash : BSrc) (emBits sLen : Nat)
  /-- SALTGEN, R283: to `SALT`. -/
  | saltgen
  /-- SIGNOP, R280: `DIGEST`, `SALT` to `SIGBUF`. -/
  | signop
  /-- VERIFYOP, R286: `DIGEST`, `SIGBUF` to `VALID`. -/
  | verifyop
  /-- RDBYTE, R300: the byte goes to `buf[i]`. -/
  | rdbyte (buf : Buf) (i : Nat)
  /-- RDBUF, R301: fills the slice. -/
  | rdbuf (d : Slice)
  /-- WRBYTE, R302: sends the one byte of the string. -/
  | wrbyte (b : BSrc)
deriving DecidableEq, Repr

/-- An operand of an issued unit operation. The spec gives the operands no bits (R99; log 10). -/
inductive Arg where
  | vec (x : VSrc)
  | vdst (d : VDst)
  | vreg (r : VReg)
  | word (w : WSrc)
  | wdst (d : WDst)
  | cin (c : CSrc)
  | bytes (b : BSrc)
  | buf (b : Buf)
  | slice (s : Slice)
  | nat (n : Nat)
deriving DecidableEq, Repr

/-- A unit operation as it is issued: its 8-bit select code (R99) and its operands in the order of the rule. -/
structure Issue where
  sel : BitVec 8
  args : List Arg
deriving DecidableEq, Repr

/-- The two places an instruction is encoded for: the byte stream (R90) or the unit-operation issue (R99). -/
inductive Image where
  | stream (bytes : List Byte)
  | issue (u : Issue)
deriving DecidableEq, Repr

end Sys2Proof
end

