-- ==== Sys2Proof/WellFormed.lean ====
section
/-! DEFINITION. The static checks on instructions: payload lengths (R91), one word count for all vector operands
(R10, R130), slices inside their buffers (R68), and the operand registers a rule forbids (R125, R166, R190). -/

namespace Sys2Proof

/-- The fixed length of a buffer (R30). -/
def Buf.size : Buf → Nat
  | .digest => 32
  | .salt => 32
  | .em => 512
  | .sigbuf => 512
  | .hout => 32
  | .hblk => 64

/-- `off + len <= len(buf)` (R14). -/
def Slice.wf (s : Slice) : Bool := s.off + s.len ≤ s.buf.size

/-- The length of a byte string operand. -/
def BSrc.len : BSrc → Nat
  | .lit bs => bs.length
  | .slice s => s.len
  | .cat a b => a.len + b.len

/-- Every slice of the operand lies inside its buffer. -/
def BSrc.wf : BSrc → Bool
  | .lit _ => true
  | .slice s => s.wf
  | .cat a b => a.wf && b.wf

/-- A literal vector has `nW` words; a key constant has 128. -/
def VSrc.wf (nW : Nat) : VSrc → Bool
  | .reg _ => true
  | .key _ => nW == Config.numWords
  | .acc _ => true
  | .lit ws => ws.length == nW

/-- A key constant has words 0 to 127. -/
def WSrc.wf : WSrc → Bool
  | .key _ i => i < Config.numWords
  | _ => true

/-- MONTMUL: no operand is the result register, and `ACC` is internal (R166). -/
def montmulOperandWf (d : VReg) : VSrc → Bool
  | .reg r => r != d
  | .acc _ => false
  | _ => true

/-- MODEXP: `BASE` is not a register that is written before line 8 has read it (R193); a static check, as the next
one. -/
def modexpBaseWf : VSrc → Bool
  | .reg .rr => false
  | .reg .one => false
  | .reg (.tbl k) => 2 ≤ k.val
  | .acc _ => false
  | _ => true

/-- MODEXP: `EXP` and `M` are read-only, so neither is a register that MODEXP writes while it still reads them (R190,
R193); a static check, which a call that ends at lines 1 to 3 does not need (log 19). -/
def modexpReadOnlyWf : VSrc → Bool
  | .reg .base => true
  | .reg .res => true
  | .reg _ => false
  | .acc _ => false
  | _ => true

/-- MACV: `X` does not overlap `Zv` but where it is the same register or the same window (R125, R131). -/
def macvOperandsWf (nW : Nat) : VDst → VSrc → Bool
  | .acc i, .acc j => i == j || i + nW ≤ j || j + nW ≤ i
  | _, _ => true

/-- The instruction is one the rules give a meaning to. -/
def Instr.wf : Instr → Bool
  | .sign d => d.length == Config.hashLen
  | .verify d g => d.length == Config.hashLen && g.length == Config.modBytes
  | .getowner => true
  | .getaddress => true
  | .ignored_04_07 _ => true
  | .ignored_08_0f _ => true
  | .ignored_10_1f _ => true
  | .ignored_20_3f _ => true
  | .ignored_40_7f _ => true
  | .ignored_80_ff _ => true
  | .addw a b _ _ => a.wf && b.wf
  | .subw a b _ _ => a.wf && b.wf
  | .macw a b z c _ => a.wf && b.wf && z.wf && c.wf
  | .addv n x y _ => 1 ≤ n && x.wf n && y.wf n
  | .subv n x y _ => 1 ≤ n && x.wf n && y.wf n
  | .macv n zv x y => 1 ≤ n && x.wf n && y.wf && macvOperandsWf n zv x
  | .cmpv n x y => 1 ≤ n && x.wf n && y.wf n
  | .remv n x m _ => 1 ≤ n && x.wf n && m.wf n
  | .iszerov n x => 1 ≤ n && x.wf n
  | .frombe n b _ => 1 ≤ n && b.wf && b.len == 4 * n
  | .tobe n x buf off => 1 ≤ n && x.wf n && off + 4 * n ≤ buf.size
  | .leftpad b d => b.wf && d.wf
  | .n0inv m => m.wf
  | .montmul n x y m k d =>
      1 ≤ n && x.wf n && y.wf n && m.wf n && k.wf
        && montmulOperandWf d x && montmulOperandWf d y && montmulOperandWf d m
  | .montfix n _ m => 1 ≤ n && m.wf n
  | .rrcalc n m => 1 ≤ n && m.wf n
  | .modexp n b e m =>
      1 ≤ n && b.wf n && e.wf n && m.wf n && modexpBaseWf b && modexpReadOnlyWf e && modexpReadOnlyWf m
  | .sha256 m => m.wf
  | .mgf1xor b s => b.wf && s.wf
  | .pssenc h t _ => h.wf && t.wf
  | .pssvfy h _ _ => h.wf
  | .saltgen => true
  | .signop => true
  | .verifyop => true
  | .rdbyte b i => i < b.size
  | .rdbuf d => d.wf
  | .wrbyte b => b.wf && b.len == 1

end Sys2Proof
end

