-- ==== Sys2Proof/Decode.lean ====
section
/-! DEFINITION. The decoder of the byte stream (`30_encoding.md` R90 to R98) and of an issued unit operation
(R99), total and rejecting by name, and the encoder written from the same tables. -/

namespace Sys2Proof

/-- Why an image is no instruction. -/
inductive DecodeError where
  /-- No opcode byte. -/
  | empty
  /-- Fewer payload bytes than the opcode implies (R93): the engine waits for the others. -/
  | shortPayload
  /-- Bytes are left after the instruction. -/
  | trailing
  /-- The select code is not in the table of R99. -/
  | unassignedSelect (sel : BitVec 8)
  /-- The operands are not those of the unit operation the select code names. -/
  | illTyped (sel : BitVec 8)
deriving DecidableEq, Repr

/-- The opcode byte of a named command (R92). -/
def Cmd.opcode : Cmd → Byte
  | .sign => 0x00
  | .verify => 0x01
  | .getowner => 0x02
  | .getaddress => 0x03

/-- The number of payload bytes a named command has (R93). -/
def Cmd.payloadLen : Cmd → Nat
  | .sign => 32
  | .verify => 544
  | .getowner => 0
  | .getaddress => 0

/-- The dispatch of R305: equality with the four assigned values. -/
def commandOf (b : Byte) : Option Cmd :=
  if b = 0x00 then some .sign
  else if b = 0x01 then some .verify
  else if b = 0x02 then some .getowner
  else if b = 0x03 then some .getaddress
  else none

/-- An opcode byte that names no command: the row of `0x04 .. 0xFF` it falls in (R92, R311). -/
def ignoredOf (b : Byte) : Instr :=
  if b.toNat < 0x08 then .ignored_04_07 (b.extractLsb' 0 2)
  else if b.toNat < 0x10 then .ignored_08_0f (b.extractLsb' 0 3)
  else if b.toNat < 0x20 then .ignored_10_1f (b.extractLsb' 0 4)
  else if b.toNat < 0x40 then .ignored_20_3f (b.extractLsb' 0 5)
  else if b.toNat < 0x80 then .ignored_40_7f (b.extractLsb' 0 6)
  else .ignored_80_ff (b.extractLsb' 0 7)

/-- The first command of a byte string, and the bytes after it (R90, R91, R94, R95). -/
def decodeStream : List Byte → Except DecodeError (Instr × List Byte)
  | [] => .error .empty
  | b :: p =>
    match commandOf b with
    | some .sign => if p.length < 32 then .error .shortPayload else .ok (.sign (p.take 32), p.drop 32)
    | some .verify =>
      if p.length < 544 then .error .shortPayload
      else .ok (.verify (p.take 32) ((p.drop 32).take 512), p.drop 544)
    | some .getowner => .ok (.getowner, p)
    | some .getaddress => .ok (.getaddress, p)
    | none => .ok (ignoredOf b, p)

/-- The unit operation of an issue: the select code names it (R99), the operands must be its own. -/
def decodeIssue (u : Issue) : Except DecodeError Instr :=
  match u.sel.toNat with
  | 0x00 => match u.args with
    | [.word a, .word b, .cin c, .wdst d] => .ok (.addw a b c d)
    | _ => .error (.illTyped u.sel)
  | 0x01 => match u.args with
    | [.word a, .word b, .cin c, .wdst d] => .ok (.subw a b c d)
    | _ => .error (.illTyped u.sel)
  | 0x02 => match u.args with
    | [.word a, .word b, .word z, .word c, .wdst d] => .ok (.macw a b z c d)
    | _ => .error (.illTyped u.sel)
  | 0x03 => match u.args with
    | [.nat n, .vec x, .vec y, .vreg d] => .ok (.addv n x y d)
    | _ => .error (.illTyped u.sel)
  | 0x04 => match u.args with
    | [.nat n, .vec x, .vec y, .vreg d] => .ok (.subv n x y d)
    | _ => .error (.illTyped u.sel)
  | 0x05 => match u.args with
    | [.nat n, .vdst z, .vec x, .word y] => .ok (.macv n z x y)
    | _ => .error (.illTyped u.sel)
  | 0x06 => match u.args with
    | [.nat n, .vec x, .vec y] => .ok (.cmpv n x y)
    | _ => .error (.illTyped u.sel)
  | 0x07 => match u.args with
    | [.nat n, .vec x, .vec m, .vreg d] => .ok (.remv n x m d)
    | _ => .error (.illTyped u.sel)
  | 0x08 => match u.args with
    | [.nat n, .vec x] => .ok (.iszerov n x)
    | _ => .error (.illTyped u.sel)
  | 0x09 => match u.args with
    | [.nat n, .bytes b, .vreg d] => .ok (.frombe n b d)
    | _ => .error (.illTyped u.sel)
  | 0x0A => match u.args with
    | [.nat n, .vec x, .buf b, .nat o] => .ok (.tobe n x b o)
    | _ => .error (.illTyped u.sel)
  | 0x0B => match u.args with
    | [.bytes b, .slice d] => .ok (.leftpad b d)
    | _ => .error (.illTyped u.sel)
  | 0x10 => match u.args with
    | [.word m] => .ok (.n0inv m)
    | _ => .error (.illTyped u.sel)
  | 0x11 => match u.args with
    | [.nat n, .vec x, .vec y, .vec m, .word k, .vreg d] => .ok (.montmul n x y m k d)
    | _ => .error (.illTyped u.sel)
  | 0x12 => match u.args with
    | [.nat n, .vreg z, .vec m] => .ok (.montfix n z m)
    | _ => .error (.illTyped u.sel)
  | 0x13 => match u.args with
    | [.nat n, .vec m] => .ok (.rrcalc n m)
    | _ => .error (.illTyped u.sel)
  | 0x20 => match u.args with
    | [.nat n, .vec b, .vec e, .vec m] => .ok (.modexp n b e m)
    | _ => .error (.illTyped u.sel)
  | 0x30 => match u.args with
    | [.bytes m] => .ok (.sha256 m)
    | _ => .error (.illTyped u.sel)
  | 0x40 => match u.args with
    | [.slice b, .bytes s] => .ok (.mgf1xor b s)
    | _ => .error (.illTyped u.sel)
  | 0x50 => match u.args with
    | [.bytes h, .bytes t, .nat n] => .ok (.pssenc h t n)
    | _ => .error (.illTyped u.sel)
  | 0x51 => match u.args with
    | [.bytes h, .nat n, .nat l] => .ok (.pssvfy h n l)
    | _ => .error (.illTyped u.sel)
  | 0x60 => match u.args with
    | [] => .ok .saltgen
    | _ => .error (.illTyped u.sel)
  | 0x61 => match u.args with
    | [] => .ok .signop
    | _ => .error (.illTyped u.sel)
  | 0x62 => match u.args with
    | [] => .ok .verifyop
    | _ => .error (.illTyped u.sel)
  | 0x70 => match u.args with
    | [.buf b, .nat i] => .ok (.rdbyte b i)
    | _ => .error (.illTyped u.sel)
  | 0x71 => match u.args with
    | [.slice d] => .ok (.rdbuf d)
    | _ => .error (.illTyped u.sel)
  | 0x72 => match u.args with
    | [.bytes b] => .ok (.wrbyte b)
    | _ => .error (.illTyped u.sel)
  | _ => .error (.unassignedSelect u.sel)

/-- Decode an image: a byte string that is exactly one command, or an issued unit operation. -/
def decode : Image → Except DecodeError Instr
  | .stream bytes =>
    match decodeStream bytes with
    | .ok (i, []) => .ok i
    | .ok (_, _ :: _) => .error .trailing
    | .error e => .error e
  | .issue u => decodeIssue u

/-! The encoder. -/

/-- The image of an instruction: the bytes of R91 and R92 for a command, the select code of R99 and the
operands in the rule's order for a unit operation. -/
def encode : Instr → Image
  | .sign d => .stream (0x00 :: d)
  | .verify d g => .stream (0x01 :: (d ++ g))
  | .getowner => .stream [0x02]
  | .getaddress => .stream [0x03]
  | .ignored_04_07 x => .stream [0b000001#6 ++ x]
  | .ignored_08_0f x => .stream [0b00001#5 ++ x]
  | .ignored_10_1f x => .stream [0b0001#4 ++ x]
  | .ignored_20_3f x => .stream [0b001#3 ++ x]
  | .ignored_40_7f x => .stream [0b01#2 ++ x]
  | .ignored_80_ff x => .stream [0b1#1 ++ x]
  | .addw a b c d => .issue ⟨0x00, [.word a, .word b, .cin c, .wdst d]⟩
  | .subw a b c d => .issue ⟨0x01, [.word a, .word b, .cin c, .wdst d]⟩
  | .macw a b z c d => .issue ⟨0x02, [.word a, .word b, .word z, .word c, .wdst d]⟩
  | .addv n x y d => .issue ⟨0x03, [.nat n, .vec x, .vec y, .vreg d]⟩
  | .subv n x y d => .issue ⟨0x04, [.nat n, .vec x, .vec y, .vreg d]⟩
  | .macv n z x y => .issue ⟨0x05, [.nat n, .vdst z, .vec x, .word y]⟩
  | .cmpv n x y => .issue ⟨0x06, [.nat n, .vec x, .vec y]⟩
  | .remv n x m d => .issue ⟨0x07, [.nat n, .vec x, .vec m, .vreg d]⟩
  | .iszerov n x => .issue ⟨0x08, [.nat n, .vec x]⟩
  | .frombe n b d => .issue ⟨0x09, [.nat n, .bytes b, .vreg d]⟩
  | .tobe n x b o => .issue ⟨0x0A, [.nat n, .vec x, .buf b, .nat o]⟩
  | .leftpad b d => .issue ⟨0x0B, [.bytes b, .slice d]⟩
  | .n0inv m => .issue ⟨0x10, [.word m]⟩
  | .montmul n x y m k d => .issue ⟨0x11, [.nat n, .vec x, .vec y, .vec m, .word k, .vreg d]⟩
  | .montfix n z m => .issue ⟨0x12, [.nat n, .vreg z, .vec m]⟩
  | .rrcalc n m => .issue ⟨0x13, [.nat n, .vec m]⟩
  | .modexp n b e m => .issue ⟨0x20, [.nat n, .vec b, .vec e, .vec m]⟩
  | .sha256 m => .issue ⟨0x30, [.bytes m]⟩
  | .mgf1xor b s => .issue ⟨0x40, [.slice b, .bytes s]⟩
  | .pssenc h t n => .issue ⟨0x50, [.bytes h, .bytes t, .nat n]⟩
  | .pssvfy h n l => .issue ⟨0x51, [.bytes h, .nat n, .nat l]⟩
  | .saltgen => .issue ⟨0x60, []⟩
  | .signop => .issue ⟨0x61, []⟩
  | .verifyop => .issue ⟨0x62, []⟩
  | .rdbyte b i => .issue ⟨0x70, [.buf b, .nat i]⟩
  | .rdbuf d => .issue ⟨0x71, [.slice d]⟩
  | .wrbyte b => .issue ⟨0x72, [.bytes b]⟩

/-- The issue of RDBYTE that stays pending while the receive queue is empty (R300). -/
def issueRdbyte (b : Buf) (i : Nat) : Issue := ⟨0x70, [.buf b, .nat i]⟩

/-- The issue of RDBUF for the part of the slice that is still to be filled (R301). -/
def issueRdbuf (d : Slice) : Issue := ⟨0x71, [.slice d]⟩

/-! The opcode table's own words. A table word is 8 bits in either of two name spaces, the opcode byte of the
stream and the select code of a unit operation, and the two share numbers; see log 11. -/

/-- The word a command row of the table is listed under (its `match`). -/
def isCommandMatch (b : Nat) : Bool :=
  b == 0x00 || b == 0x01 || b == 0x02 || b == 0x03 || b == 0x04 || b == 0x08 || b == 0x10 || b == 0x20
    || b == 0x40 || b == 0x80

/-- Operands for a unit operation of which only the select code is given: zeros where the operation accepts them
(log 11). -/
def tableArgs : Nat → Option (List Arg)
  | 0x05 => some [.nat 1, .vdst (.acc 0), .vec (.lit [0]), .word (.lit 0)]
  | 0x06 => some [.nat 1, .vec (.lit [0]), .vec (.lit [0])]
  | 0x07 => some [.nat 128, .vec (.lit (zeroVec 128)), .vec (.lit (oneVec 128)), .vreg .base]
  | 0x09 => some [.nat 128, .bytes (.lit (zeros 512)), .vreg .base]
  | 0x0A => some [.nat 1, .vec (.lit [0]), .buf .digest, .nat 0]
  | 0x0B => some [.bytes (.lit []), .slice ⟨.digest, 0, 0⟩]
  | 0x11 => some [.nat 128, .vec (.lit (zeroVec 128)), .vec (.lit (zeroVec 128)), .vec (.lit (oneVec 128)),
      .word (.lit 0xFFFFFFFF), .vreg .base]
  | 0x12 => some [.nat 128, .vreg .base, .vec (.lit (oneVec 128))]
  | 0x13 => some [.nat 128, .vec (.lit (oneVec 128))]
  | 0x30 => some [.bytes (.lit [])]
  | 0x50 => some [.bytes (.lit []), .bytes (.lit []), .nat 0]
  | 0x51 => some [.bytes (.lit []), .nat 0, .nat 0]
  | 0x60 => some []
  | 0x61 => some []
  | 0x62 => some []
  | 0x70 => some [.buf .digest, .nat 0]
  | 0x71 => some [.slice ⟨.digest, 0, 0⟩]
  | 0x72 => some [.bytes (.lit [0])]
  | _ => none

/-- The bytes of an instruction whose bits are `w`, first byte lowest; every bit at or above `nbits` is 0. -/
def tableBytes (nbits w : Nat) : List Byte :=
  (List.range 545).map fun j => BitVec.ofNat 8 ((w % 2 ^ nbits) >>> (8 * j))

/-- The issue a table word stands for, where it is a select code and no command row's own word. -/
def tableIssue (nbits w : Nat) : Option Issue :=
  let b := w % 2 ^ nbits
  if isCommandMatch b then none
  else (tableArgs b).map fun a => ⟨BitVec.ofNat 8 b, a⟩

/-- The instruction the decoder reads from the bits of an opcode-table row. -/
def decodeTableWord (nbits w : Nat) : Option Instr :=
  match tableIssue nbits w with
  | some u => match decodeIssue u with
    | .ok i => some i
    | .error _ => none
  | none => match decodeStream (tableBytes nbits w) with
    | .ok (i, _) => some i
    | .error _ => none

end Sys2Proof
end

