-- ==== Sys2Proof/Machine/State.lean ====
section
/-! DEFINITION. The state of the engine (`10_state.md`), plain data, the reasons a step can stop, and the state
after reset (R39). -/

namespace Sys2Proof.Machine

/-- The values of `SEQ` (R36), which stands in for a program counter (R35). -/
inductive Seq where
  /-- `IDLE`: waiting for an opcode byte. -/
  | idle
  /-- `RXP(op, k)`: reading payload byte `k`. -/
  | rxp (op : Cmd) (k : Nat)
  /-- `EXEC(op)`: running the command. -/
  | exec (op : Cmd)
  /-- `TXP(op, k)`: sending response byte `k`. -/
  | txp (op : Cmd) (k : Nat)
  /-- `TXE`: sending `STATUS_E`. -/
  | txe
  /-- `DIAG`: sending `FATAL_DIAG`. -/
  | diag
  /-- `HALTED`. -/
  | halted
deriving DecidableEq, Repr

/-- The fatal conditions the platform may report (R333, U17). -/
inductive PlatformCause where
  | allocationFailure | fatalTrap | panic
deriving DecidableEq, Repr

/-- Which agent moves next (R20, R33, R333, R370; log 13). -/
inductive Turn where
  /-- ENGINE takes one step. -/
  | engine
  /-- HOST appends a byte to `RXQ`. -/
  | hostSend (b : Byte)
  /-- HOST removes the oldest byte of `TXQ`. -/
  | hostTake
  /-- The platform reports a fatal condition before ENGINE's next step. -/
  | platformFatal (c : PlatformCause)
  /-- The platform reports a fatal condition while ENGINE is inside its next step: in EXEC, at any point of the
  command's unit operations (R333, D11; log 14). -/
  | platformFatalInside (c : PlatformCause)
  /-- Reset. -/
  | reset
deriving DecidableEq, Repr

/-- The word registers of R23 and R24 (storage class WREG of R71); a width never changes, and a write of another one is
refused (R68; log 1). -/
structure WRegs where
  /-- `BASE`. -/
  base : List Word
  /-- `RR`. -/
  rr : List Word
  /-- `ONE`. -/
  one : List Word
  /-- `TBL[0..15]`. -/
  tbl : Vector (List Word) 16
  /-- `Z`. -/
  z : List Word
  /-- `ZZ`. -/
  zz : List Word
  /-- `RES`. -/
  res : List Word
  /-- `ACC`, the double-width working buffer. -/
  acc : List Word
  /-- `K0`. -/
  k0 : Word
  /-- `CW`, the carry word of the last multiply-accumulate. -/
  cw : Word
  /-- `T`, the reduction multiplier of the last MONTMUL round. -/
  t : Word
deriving DecidableEq, Repr

/-- The condition outputs of R28 but `CW`. -/
structure Flags where
  /-- `CY`. -/
  cy : Bool
  /-- `BW`. -/
  bw : Bool
  /-- `C`. -/
  c : Bool
  /-- `ZEXP`. -/
  zexp : Bool
  /-- `VALID`. -/
  valid : Bool
  /-- `ORD`. -/
  ord : Ordering
deriving DecidableEq, Repr

/-- The byte buffers of R30 (storage class BBUF of R71): the engine's memory. There is no address (R68, R71;
log 36). -/
structure Memory where
  /-- `DIGEST`. -/
  digest : List Byte
  /-- `SALT`. -/
  salt : List Byte
  /-- `EM`. -/
  em : List Byte
  /-- `SIGBUF`. -/
  sigbuf : List Byte
  /-- `HOUT`. -/
  hout : List Byte
  /-- `HBLK`. -/
  hblk : List Byte
deriving DecidableEq, Repr

/-- The internal registers of the SHA unit (R31). -/
structure ShaRegs where
  /-- `HS[0..7]`, the chaining registers. -/
  hs : List Word
  /-- `w[0..63]`, the message schedule. -/
  schedule : List Word
  /-- The 64-bit message bit count. -/
  bitCount : BitVec 64
deriving DecidableEq, Repr

/-- The engine. -/
structure State where
  /-- `KEY_N`, `KEY_D`, `KEY_E` (R22): read-only. -/
  key : Keys
  /-- The open parameters of R8 (log 9): read-only. -/
  par : Params
  /-- The word registers (R23, R24). -/
  w : WRegs
  /-- The condition outputs (R28). -/
  fl : Flags
  /-- `ERR` (R29). -/
  err : Bool
  /-- `HALT` (R29). -/
  halt : Bool
  /-- `CAUSE` (R29), with the codes of R331. -/
  cause : BitVec 8
  /-- The byte buffers (R30). -/
  mem : Memory
  /-- The SHA unit's registers (R31). -/
  sha : ShaRegs
  /-- `CTR` (R32). -/
  ctr : Word
  /-- `WI` (R34). -/
  wi : Nat
  /-- `NI` (R34). -/
  ni : Nat
  /-- `FIRST` (R34). -/
  first : Bool
  /-- `SEQ` (R36). -/
  seq : Seq
  /-- `RXQ` (R33), oldest byte first. -/
  rxq : List Byte
  /-- `TXQ` (R33), oldest byte first. -/
  txq : List Byte
  /-- The model's own: unit operations issued and not yet run, next one first (log 10). -/
  uq : List Issue
  /-- The model's own: which agents move before the next free ENGINE step (log 13). -/
  turns : List Turn
  /-- The model's own: the counter that free values are applied to (log 6). -/
  tick : Nat
deriving DecidableEq, Repr

/-- Why the machine stops with a fault. -/
inductive Fault where
  /-- Raised by the sequencer when the pending issue has a select code outside the table of R99, which "cannot be
  issued". Safe: no run of the hardware has such an issue (log 31). -/
  | unassignedSelect (sel : BitVec 8)
deriving DecidableEq, Repr

/-- Why the machine gives an instruction no meaning. -/
inductive Refusal where
  /-- The instruction of that mnemonic has no meaning in this model. Raised by `exec` alone. Safe. -/
  | notModelled (mnemonic : String)
  /-- A vector operand or a destination register has not `nW` words, a byte string operand has not the length the rule
  gives it, or `nW = 0` (R10, R68, R130, R132, U11). Raised by the unit operations. Safe (log 22). -/
  | operandWidth
  /-- A slice or a word index lies outside its buffer or register (R14, R68). Raised by the unit operations. Safe
  (log 23). -/
  | outsideStorage
  /-- MONTMUL into one of its operands, an operand register that MODEXP writes before it last reads it, `ACC` as an
  operand of either, or a MACV operand in a shifted overlap with the accumulator window (R125, R166, R190, U13).
  Safe (logs 19, 20). -/
  | operandOverlap
  /-- N0INV of an even word: "a model should refuse N0INV on an even word" (R161, U12). Safe (log 18). -/
  | evenWord
  /-- MONTMUL or MONTFIX with an even modulus, called directly (R160, U12). Safe (log 17). -/
  | evenModulus
  /-- MONTMUL with a `K0` that does not belong to the modulus, called directly (R382, U12). Safe (log 17). -/
  | foreignK0
  /-- The operands of an issue are not those of its unit operation, or a payload has the wrong length. Raised by the
  sequencer, and by SIGN and VERIFY. Safe (log 31). -/
  | illTyped
  /-- HOST sends a byte while `RXQ` holds `RXQ_DEPTH` bytes (D26, U16). Raised by the sequencer. Safe (log 24). -/
  | rxqFull
deriving DecidableEq, Repr

/-- The outcome of a step of this machine. -/
abbrev Out := Host.Outcome State Fault Refusal

/-- The fixed buffer sizes of R30. -/
def Memory.wf (m : Memory) : Bool :=
  m.digest.length == 32 && m.salt.length == 32 && m.em.length == 512 && m.sigbuf.length == 512
    && m.hout.length == 32 && m.hblk.length == 64

/-- The widths of R23: every vector register has `n` words, `ACC` twice as many. -/
def WRegs.wf (n : Nat) (w : WRegs) : Bool :=
  w.base.length == n && w.rr.length == n && w.one.length == n && w.tbl.toList.all (·.length == n)
    && w.z.length == n && w.zz.length == n && w.res.length == n && w.acc.length == 2 * n

/-- The sizes of R31. -/
def ShaRegs.wf (h : ShaRegs) : Bool := h.hs.length == 8 && h.schedule.length == 64

/-- The word registers after reset: unspecified (R39), zeros here (DESIGN CHOICE, log 2). -/
def WRegs.reset : WRegs where
  base := zeroVec 128
  rr := zeroVec 128
  one := zeroVec 128
  tbl := Vector.replicate 16 (zeroVec 128)
  z := zeroVec 128
  zz := zeroVec 128
  res := zeroVec 128
  acc := zeroVec 256
  k0 := 0
  cw := 0
  t := 0

/-- The flags after reset: "none is needed" (R28), cleared here (DESIGN CHOICE, log 3). -/
def Flags.reset : Flags := ⟨false, false, false, false, false, .eq⟩

/-- The buffers after reset: unspecified (R39), zeros here (DESIGN CHOICE, log 2). -/
def Memory.reset : Memory := ⟨zeros 32, zeros 32, zeros 512, zeros 512, zeros 32, zeros 64⟩

/-- The SHA unit after reset: unspecified (R39), zeros here (DESIGN CHOICE, log 2). -/
def ShaRegs.reset : ShaRegs := ⟨zeroVec 8, zeroVec 64, 0⟩

/-- The machine right after reset (R39, R370): keys at their build-time values, `ERR = HALT = 0`, `SEQ = IDLE`,
both queues empty; everything R39 leaves unspecified at the value logs 2 and 3 name. -/
def State.reset : State where
  key := Config.keys
  par := Config.params
  w := WRegs.reset
  fl := Flags.reset
  err := false
  halt := false
  cause := 0
  mem := Memory.reset
  sha := ShaRegs.reset
  ctr := 0
  wi := 0
  ni := 0
  first := false
  seq := .idle
  rxq := []
  txq := []
  uq := []
  turns := []
  tick := 0

end Sys2Proof.Machine
end

