-- ==== Sys2Proof/Machine/Ops.lean ====
section
/-! DEFINITION. The named operations on registers, buffers and queues, the free values, raising EncodingError and
Fatal (`60_exceptions.md`), and the return to IDLE. -/

namespace Sys2Proof.Machine

/-! Byte strings and words. -/

/-- The four bytes of a word, most significant first (R63, R224). -/
def wordBytes (w : Word) : List Byte :=
  [w.extractLsb' 24 8, w.extractLsb' 16 8, w.extractLsb' 8 8, w.extractLsb' 0 8]

/-- The word four bytes stand for, most significant first (R62, R66). -/
def wordOfBytes (a b c d : Byte) : Word :=
  BitVec.ofNat 32 (a.toNat * 2 ^ 24 + b.toNat * 2 ^ 16 + c.toNat * 2 ^ 8 + d.toNat)

/-- A byte string read four bytes at a time; fewer than four bytes at the end are dropped. -/
def wordsOfBytes : List Byte → List Word
  | a :: b :: c :: d :: rest => wordOfBytes a b c d :: wordsOfBytes rest
  | _ => []

/-- Decode law of R62: the first four bytes are the most significant word. -/
def fromBE (bs : List Byte) : List Word := (wordsOfBytes bs).reverse

/-- Encode law of R63. -/
def toBE (ws : List Word) : List Byte := ws.reverse.flatMap wordBytes

/-- `be4(c)`: a word as four bytes, most significant first (R65). -/
def be4 (c : Word) : List Byte := wordBytes c

/-- `xs` with the elements from index `off` on replaced by `ys` (R14: `MemWrite`, and the `ACC` window of R162). -/
def splice {α : Type} (xs : List α) (off : Nat) (ys : List α) : List α :=
  xs.take off ++ ys ++ xs.drop (off + ys.length)

/-- `xs[off .. off+n)` (R13, R14). -/
def window {α : Type} (xs : List α) (off n : Nat) : List α := (xs.drop off).take n

/-! Byte buffers (R30). -/

/-- The contents of a buffer. -/
def Memory.get (m : Memory) : Buf → List Byte
  | .digest => m.digest
  | .salt => m.salt
  | .em => m.em
  | .sigbuf => m.sigbuf
  | .hout => m.hout
  | .hblk => m.hblk

/-- Replace the contents of a buffer. -/
def Memory.put (m : Memory) (b : Buf) (bs : List Byte) : Memory :=
  match b with
  | .digest => { m with digest := bs }
  | .salt => { m with salt := bs }
  | .em => { m with em := bs }
  | .sigbuf => { m with sigbuf := bs }
  | .hout => { m with hout := bs }
  | .hblk => { m with hblk := bs }

/-- The read of one byte of a buffer (R69). -/
def Memory.byte (m : Memory) (b : Buf) (i : Nat) : Option Byte := (m.get b)[i]?

/-- `MemWrite(buf, off, len, bs)` (R14). -/
def Memory.write (m : Memory) (b : Buf) (off : Nat) (bs : List Byte) : Memory :=
  m.put b (splice (m.get b) off bs)

/-- Replace the byte buffers of a state. -/
def State.setMem (s : State) (m : Memory) : State := { s with mem := m }

/-! Word registers (R23, R24). -/

/-- The contents of a vector register. -/
def WRegs.get (w : WRegs) : VReg → List Word
  | .base => w.base
  | .rr => w.rr
  | .one => w.one
  | .tbl k => w.tbl[k]
  | .z => w.z
  | .zz => w.zz
  | .res => w.res

/-- Write a vector register. -/
def WRegs.put (w : WRegs) (r : VReg) (v : List Word) : WRegs :=
  match r with
  | .base => { w with base := v }
  | .rr => { w with rr := v }
  | .one => { w with one := v }
  | .tbl k => { w with tbl := w.tbl.set k v }
  | .z => { w with z := v }
  | .zz => { w with zz := v }
  | .res => { w with res := v }

/-- A key constant as a vector (R22). -/
def keyVec (k : Keys) : KeyReg → List Word
  | .n => k.n.toList
  | .d => k.d.toList
  | .e => k.e.toList

/-- Replace the word registers of a state. -/
def State.setW (s : State) (w : WRegs) : State := { s with w := w }

/-- Write one vector register of a state. -/
def State.putReg (s : State) (r : VReg) (v : List Word) : State := { s with w := s.w.put r v }

/-! The queues (R33). -/

/-- `TxByte(b)`: append to `TXQ` (R14, R302). -/
def State.txByte (s : State) (b : Byte) : State := { s with txq := s.txq ++ [b] }

/-- Append a byte string to `TXQ` in order. -/
def State.txBytes (s : State) (bs : List Byte) : State := { s with txq := s.txq ++ bs }

/-- The sequencer moves (R14: `SEQ <- s`). -/
def State.goto (s : State) (q : Seq) : State := { s with seq := q }

/-! Exceptions. -/

/-- The causes of EncodingError (R331). -/
inductive EncCause where
  | digestLength | saltTooLong
deriving DecidableEq, Repr

/-- The causes of Fatal (R331). -/
inductive FatalCause where
  | allocationFailure | fatalTrap | panic | unsupportedModulus
deriving DecidableEq, Repr

/-- The code of R331. -/
def EncCause.code : EncCause → BitVec 8
  | .digestLength => 0x01
  | .saltTooLong => 0x02

/-- The code of R331. -/
def FatalCause.code : FatalCause → BitVec 8
  | .allocationFailure => 0x10
  | .fatalTrap => 0x11
  | .panic => 0x12
  | .unsupportedModulus => 0x13

/-- The cause a platform report carries (R333, U17). -/
def PlatformCause.toFatal : PlatformCause → FatalCause
  | .allocationFailure => .allocationFailure
  | .fatalTrap => .fatalTrap
  | .panic => .panic

/-- Raising EncodingError (R334): `ERR = 1` and `CAUSE`; nothing else is saved or restored (logs 25, 35). -/
def State.raiseEncoding (s : State) (c : EncCause) : State := { s with err := true, cause := c.code }

/-- Raising Fatal (R338): `HALT = 1`, `CAUSE`, `SEQ = DIAG`; every unit operation in progress is abandoned, those
still pending with it (log 26). -/
def State.raiseFatal (s : State) (c : FatalCause) : State :=
  { s with halt := true, cause := c.code, seq := .diag, uq := [] }

/-- The end of DIAG (R338): the diagnostic is sent and the engine halts. There is no return (R339). -/
def State.sendDiag (s : State) : State := { s with txq := s.txq ++ s.par.fatalDiag, seq := .halted }

/-- The outcome of a unit operation (R15); the state of an abnormal outcome is the one it was raised in. -/
inductive UResult where
  | done (s : State)
  | encodingError (c : EncCause) (s : State)
  | fatal (c : FatalCause) (s : State)
  | refused (r : Refusal)

/-- Run the rest of an operation after a part of it completed; an abnormal outcome ends it (R15, R334, R338). -/
def UResult.bind (u : UResult) (k : State → UResult) : UResult :=
  match u with
  | .done s => k s
  | .encodingError c s => .encodingError c s
  | .fatal c s => .fatal c s
  | .refused r => .refused r

/-- The end of a unit operation issued by itself: an exception it raised is taken (R334, R338; log 25). -/
def finishUnit : UResult → Out
  | .done s => .next s
  | .encodingError c s => .next (s.raiseEncoding c)
  | .fatal c s => .next (s.raiseFatal c)
  | .refused r => .refused r

/-- The end of a command's unit operations (R36, R334, R338): the response, `TXE`, or `DIAG`. -/
def finishCommand (q : Seq) : UResult → Out
  | .done s => .next (s.goto q)
  | .encodingError c s => .next ((s.raiseEncoding c).goto .txe)
  | .fatal c s => .next (s.raiseFatal c)
  | .refused r => .refused r

/-! Free values (logs 4 to 7). -/

/-- A vector of undefined words. -/
def freeVec (t : Nat) (p : Place) (n : Nat) : List Word := (List.range n).map (Config.freeWord t p)

/-- A string of undefined bytes. -/
def freeBytes (t : Nat) (p : Place) (n : Nat) : List Byte := (List.range n).map (Config.freeByte t p)

/-- Word registers of which nothing is defined (R38). -/
def WRegs.free (t : Nat) : WRegs where
  base := freeVec t .base 128
  rr := freeVec t .rr 128
  one := freeVec t .one 128
  tbl := Vector.ofFn fun k : Fin 16 => freeVec t (.tbl k.val) 128
  z := freeVec t .z 128
  zz := freeVec t .zz 128
  res := freeVec t .res 128
  acc := freeVec t .acc 256
  k0 := Config.freeWord t .k0 0
  cw := Config.freeWord t .cw 0
  t := Config.freeWord t .t 0

/-- Flags of which nothing is defined (R28, U19). -/
def Flags.free (t : Nat) : Flags where
  cy := Config.freeBit t .cy
  bw := Config.freeBit t .bw
  c := Config.freeBit t .c
  zexp := Config.freeBit t .zexp
  valid := Config.freeBit t .valid
  ord := Config.freeOrd t .ord

/-- Buffers of which nothing but the size is defined (R38). -/
def Memory.free (t : Nat) : Memory where
  digest := freeBytes t .digest 32
  salt := freeBytes t .salt 32
  em := freeBytes t .em 512
  sigbuf := freeBytes t .sigbuf 512
  hout := freeBytes t .hout 32
  hblk := freeBytes t .hblk 64

/-- A SHA unit of which nothing is defined (R31, R38). -/
def ShaRegs.free (t : Nat) : ShaRegs where
  hs := freeVec t .hs 8
  schedule := freeVec t .schedule 64
  bitCount := Config.freeWord t .bitCount 1 ++ Config.freeWord t .bitCount 0

/-- The end of a command (R38, R389): every working register, buffer, counter and flag, and `CAUSE` (U19), is
undefined again. Keys, parameters, `ERR`, `HALT`, `SEQ` and the queues are not touched. -/
def State.forget (s : State) : State :=
  { s with
    w := WRegs.free s.tick
    fl := Flags.free s.tick
    cause := Config.freeByte s.tick .cause 0
    mem := Memory.free s.tick
    sha := ShaRegs.free s.tick
    ctr := Config.freeWord s.tick .ctr 0
    wi := Config.freeNat s.tick .wi
    ni := Config.freeNat s.tick .ni
    first := Config.freeBit s.tick .first
    tick := s.tick + 1 }

/-- `SIGBUF` where EXEC is abandoned: a Verify's request stands in it, a Sign may or may not have written it. -/
def State.abandonedSigbuf (s : State) : List Byte :=
  if s.seq = .exec .verify then s.mem.sigbuf else s.forget.mem.sigbuf

/-- What a Fatal in the middle of EXEC leaves (R338: "no result is written"; R333, R38; log 14): the request (`DIGEST`,
and `SIGBUF` of a Verify) is as it was, everything the unit operations work on is undefined. -/
def State.abandon (s : State) : State :=
  { s.forget with mem := { s.forget.mem with digest := s.mem.digest, sigbuf := s.abandonedSigbuf } }

/-- The answer of ENTROPY to `Draw(32)` (R14, R283). -/
def State.drawn (s : State) : List Byte := (List.range 32).map (Config.draw s.tick)

/-- Reset (R370): the state of R39 with this machine's keys and parameters; `turns` and `tick` are the model's own
and go on (log 37). -/
def State.afterReset (s : State) : State :=
  { State.reset with key := s.key, par := s.par, turns := s.turns, tick := s.tick + 1 }

end Sys2Proof.Machine
end

