-- ==== Sys2Proof/Machine/Flags.lean ====
section
/-! DEFINITION. The word steps with their carries and borrows (`40_fixed_width_arith.md` R120 to R122), the
ordering and zero tests of one vector, and the flag registers of R28. -/

namespace Sys2Proof.Machine

/-- ADDW (R120): the sum word and `CY`. -/
def addw (a b : Word) (cin : Bool) : Word × Bool :=
  let t := a.toNat + b.toNat + cin.toNat
  (BitVec.ofNat 32 t, decide (2 ^ 32 ≤ t))

/-- SUBW (R121): the difference word and `BW`. -/
def subw (a b : Word) (bin : Bool) : Word × Bool :=
  let t : Int := (a.toNat : Int) - b.toNat - bin.toNat
  (BitVec.ofInt 32 t, decide (t < 0))

/-- MACW (R122): `lo` and `hi`. -/
def macw (a b z cin : Word) : Word × Word :=
  let t := a.toNat * b.toNat + z.toNat + cin.toNat
  (BitVec.ofNat 32 t, BitVec.ofNat 32 (t / 2 ^ 32))

/-- `ORD` of two words. -/
def cmpw (a b : Word) : Ordering :=
  if a < b then .lt else if b < a then .gt else .eq

/-- CMPV (R126): the most significant differing word decides. -/
def cmpv : List Word → List Word → Ordering
  | x :: xs, y :: ys =>
    match cmpv xs ys with
    | .eq => cmpw x y
    | o => o
  | _, _ => .eq

/-- ISZEROV (R128). -/
def iszerov (xs : List Word) : Bool := xs.all (· == 0)

/-- Write `CY` (R28). -/
def State.setCy (s : State) (b : Bool) : State := { s with fl := { s.fl with cy := b } }

/-- Write `BW` (R28). -/
def State.setBw (s : State) (b : Bool) : State := { s with fl := { s.fl with bw := b } }

/-- Write `CW` (R24, R28). -/
def State.setCw (s : State) (c : Word) : State := { s with w := { s.w with cw := c } }

/-- Write `ORD` (R28). -/
def State.setOrd (s : State) (o : Ordering) : State := { s with fl := { s.fl with ord := o } }

/-- Write `ZEXP` (R28). -/
def State.setZexp (s : State) (b : Bool) : State := { s with fl := { s.fl with zexp := b } }

/-- Write `VALID` (R28). -/
def State.setValid (s : State) (b : Bool) : State := { s with fl := { s.fl with valid := b } }

/-- `C` after MONTMUL: its final step has consumed it, so its value is free (R28, U19; log 5). -/
def State.spendC (s : State) : State :=
  { s with fl := { s.fl with c := Config.freeBit s.tick .c }, tick := s.tick + 1 }

/-- `ORD` after the rule that consumed it (R28, U19; log 5). -/
def State.spendOrd (s : State) : State :=
  { s with fl := { s.fl with ord := Config.freeOrd s.tick .ord }, tick := s.tick + 1 }

/-- `CY` and `ORD` after RRCALC, which consumed them (R28, R165, U19; log 5). -/
def State.spendCyOrd (s : State) : State :=
  { s with
    fl := { s.fl with cy := Config.freeBit s.tick .cy, ord := Config.freeOrd s.tick .ord }
    tick := s.tick + 1 }

/-- `ZEXP`, `CY`, `C` and `ORD` after MODEXP: none outlives it (R28, R193, U19; log 5). -/
def State.spendModexp (s : State) : State :=
  { s with
    fl := { s.fl with
      cy := Config.freeBit s.tick .cy
      c := Config.freeBit s.tick .c
      zexp := Config.freeBit s.tick .zexp
      ord := Config.freeOrd s.tick .ord }
    tick := s.tick + 1 }

/-- `ZEXP` after the early return of MODEXP (R192, R28, U19; log 5). -/
def State.spendZexp (s : State) : State :=
  { s with fl := { s.fl with zexp := Config.freeBit s.tick .zexp }, tick := s.tick + 1 }

end Sys2Proof.Machine
end

