-- ==== Sys2Proof/Machine/Operands.lean ====
section
/-! DEFINITION. Every operand form: what a source reads, where a destination lies, and the operand registers a rule
forbids. Operands are read once, before anything is written (log 21). -/

namespace Sys2Proof.Machine

/-- The vector a source names, whatever its length. -/
def State.rawVec (s : State) (n : Nat) : VSrc → List Word
  | .reg r => s.w.get r
  | .key k => keyVec s.key k
  | .acc off => window s.w.acc off n
  | .lit ws => ws

/-- A vector operand of `n >= 1` words, if it has that many (R10, R130, U11). -/
def State.vec (s : State) (n : Nat) (x : VSrc) : Option (List Word) :=
  if 1 ≤ n ∧ (s.rawVec n x).length = n then some (s.rawVec n x) else none

/-- A word operand, if it exists. -/
def State.word (s : State) : WSrc → Option Word
  | .lit w => some w
  | .reg r i => (s.w.get r)[i]?
  | .key k i => (keyVec s.key k)[i]?
  | .acc i => s.w.acc[i]?
  | .k0 => some s.w.k0
  | .cw => some s.w.cw
  | .t => some s.w.t

/-- The word destination exists. -/
def State.hasWord (s : State) : WDst → Bool
  | .reg r i => i < (s.w.get r).length
  | .acc i => i < s.w.acc.length

/-- Write a word destination. -/
def State.putWord (s : State) (d : WDst) (v : Word) : State :=
  match d with
  | .reg r i => { s with w := s.w.put r ((s.w.get r).set i v) }
  | .acc i => { s with w := { s.w with acc := s.w.acc.set i v } }

/-- The carry-in of ADDW. -/
def State.carryIn (s : State) : CSrc → Bool
  | .lit b => b
  | .flag => s.fl.cy

/-- The borrow-in of SUBW. -/
def State.borrowIn (s : State) : CSrc → Bool
  | .lit b => b
  | .flag => s.fl.bw

/-- The accumulator vector of MACV as a source. -/
def vdstSrc : VDst → VSrc
  | .reg r => .reg r
  | .acc off => .acc off

/-- Write the accumulator vector of MACV. -/
def State.putVdst (s : State) (d : VDst) (v : List Word) : State :=
  match d with
  | .reg r => { s with w := s.w.put r v }
  | .acc off => { s with w := { s.w with acc := splice s.w.acc off v } }

/-- Every byte of the slice lies inside its buffer (R14, R68); an empty slice has none (R241, R301: `Lb = 0`). -/
def State.fits (s : State) (l : Slice) : Bool := l.len == 0 || decide (l.off + l.len ≤ (s.mem.get l.buf).length)

/-- A byte string operand, if every slice of it lies inside its buffer. -/
def State.bytes (s : State) : BSrc → Option (List Byte)
  | .lit bs => some bs
  | .slice l => if s.fits l then some (window (s.mem.get l.buf) l.off l.len) else none
  | .cat a b =>
    match s.bytes a, s.bytes b with
    | some x, some y => some (x ++ y)
    | _, _ => none

/-- Write bytes at an index of a buffer (R14: `MemWrite`). -/
def State.putBytes (s : State) (b : Buf) (off : Nat) (bs : List Byte) : State :=
  { s with mem := s.mem.write b off bs }

/-! Continuations that read an operand, or refuse the call by the operand's fault. -/

/-- Read a vector operand. -/
def withVec (s : State) (n : Nat) (x : VSrc) (k : List Word → UResult) : UResult :=
  match s.vec n x with
  | some v => k v
  | none => .refused .operandWidth

/-- Read a word operand, once (log 40). -/
def withWord (s : State) (x : WSrc) (k : Word → UResult) : UResult :=
  match s.word x with
  | some v => k v
  | none => .refused .outsideStorage

/-- Require a word destination to exist. -/
def withWordDst (s : State) (d : WDst) (k : UResult) : UResult :=
  if s.hasWord d then k else .refused .outsideStorage

/-- Require a destination register to have `n` words: nothing resizes it (R68, R130; log 22). -/
def withReg (s : State) (n : Nat) (r : VReg) (k : UResult) : UResult :=
  if (s.w.get r).length = n then k else .refused .operandWidth

/-- Require `ACC` to have `2*n` words (R23, R68). -/
def withAcc (s : State) (n : Nat) (k : UResult) : UResult :=
  if s.w.acc.length = 2 * n then k else .refused .operandWidth

/-- Require every word register to have the width of `nW = n` (R23, R68). -/
def withRegs (s : State) (n : Nat) (k : UResult) : UResult :=
  if s.w.wf n then k else .refused .operandWidth

/-- Read a byte string operand, once (log 40). -/
def withBytes (s : State) (b : BSrc) (k : List Byte → UResult) : UResult :=
  match s.bytes b with
  | some v => k v
  | none => .refused .outsideStorage

/-- Require a slice to lie inside its buffer. -/
def withSlice (s : State) (l : Slice) (k : UResult) : UResult :=
  if s.fits l then k else .refused .outsideStorage

/-! The operand registers a rule forbids. -/

/-- MONTMUL's result register is one of its operands, or `ACC` is an operand (R166, U13; log 19). -/
def montmulOverlap (d : VReg) : VSrc → Bool
  | .reg r => r == d
  | .acc _ => true
  | _ => false

/-- MODEXP's `BASE` operand is a register written before line 8 reads it, or `ACC` (R166, R193; log 19). -/
def modexpBaseOverlap : VSrc → Bool
  | .reg .rr => true
  | .reg .one => true
  | .reg (.tbl k) => decide (k.val < 2)
  | .acc _ => true
  | _ => false

/-- MODEXP's `EXP` or `M` operand is a register that MODEXP writes before it last reads the operand, or `ACC` (R190,
R193; log 19). `RES` is written after that (line 26). -/
def modexpReadOnlyOverlap : VSrc → Bool
  | .reg .base => false
  | .reg .res => false
  | .reg _ => true
  | .acc _ => true
  | _ => false

/-- MACV's `X` overlaps the accumulator window without being the same one (R125, R131; log 20). -/
def macvOverlap (n : Nat) : VDst → VSrc → Bool
  | .acc i, .acc j => i != j && i < j + n && j < i + n
  | _, _ => false

end Sys2Proof.Machine
end

