-- ==== Sys2Proof/Machine/Arith.lean ====
section
/-! DEFINITION. The unit ARITH (`40_fixed_width_arith.md`): the vector operations on values, and the meanings of
ADDW, SUBW, MACW, ADDV, SUBV, MACV, CMPV, REMV, ISZEROV, FROMBE, TOBE and LEFTPAD. -/

namespace Sys2Proof.Machine

/-! Values. -/

/-- ADDV (R123) with a carry-in: the sum vector and the carry out of the last word. -/
def addv : List Word → List Word → Bool → List Word × Bool
  | x :: xs, y :: ys, c =>
    let s := addw x y c
    let r := addv xs ys s.2
    (s.1 :: r.1, r.2)
  | _, _, c => ([], c)

/-- SUBV (R124) with a borrow-in: the difference vector and the borrow out of the last word. -/
def subv : List Word → List Word → Bool → List Word × Bool
  | x :: xs, y :: ys, b =>
    let s := subw x y b
    let r := subv xs ys s.2
    (s.1 :: r.1, r.2)
  | _, _, b => ([], b)

/-- MACV (R125) with a carry-in: `Zv + X*y` and the carry word. -/
def macv : List Word → List Word → Word → Word → List Word × Word
  | z :: zs, x :: xs, y, c =>
    let s := macw x y z c
    let r := macv zs xs y s.2
    (s.1 :: r.1, r.2)
  | _, _, _, c => ([], c)

/-- Add a bit to word 0 (R127: `Rm[0] = Rm[0] + xb`). -/
def addBit (b : Bool) : List Word → List Word
  | [] => []
  | w :: ws => (w + (if b then 1 else 0)) :: ws

/-- Subtract `m` where the carry or the comparison says so (R127, R165). -/
def reduceOnce (m : List Word) (r : List Word) (c : Bool) : List Word :=
  if c || cmpv r m != .lt then (subv r m false).1 else r

/-- One step of the remainder (R127): double, bring down a bit, subtract. -/
def remStep (m : List Word) (rm : List Word) (xb : Bool) : List Word :=
  let d := addv rm rm false
  reduceOnce m (addBit xb d.1) d.2

/-- The bits of a word, bit 31 first. -/
def wordBits (w : Word) : List Bool := (List.range 32).map fun i => w.getLsbD (31 - i)

/-- The bits of a vector, most significant first. -/
def vecBits (x : List Word) : List Bool := x.reverse.flatMap wordBits

/-- REMV (R127) for a divisor that is not zero. -/
def remv (x m : List Word) : List Word := (vecBits x).foldl (remStep m) (zeroVec m.length)

/-! Meanings. -/

/-- ADDW (R120): the sum word to `d`, the carry to `CY`. -/
def execAddw (a b : WSrc) (cin : CSrc) (d : WDst) (s : State) : Out :=
  finishUnit <| withWord s a fun x => withWord s b fun y => withWordDst s d <|
    let r := addw x y (s.carryIn cin)
    .done ((s.putWord d r.1).setCy r.2)

/-- SUBW (R121): the difference word to `d`, the borrow to `BW`. -/
def execSubw (a b : WSrc) (bin : CSrc) (d : WDst) (s : State) : Out :=
  finishUnit <| withWord s a fun x => withWord s b fun y => withWordDst s d <|
    let r := subw x y (s.borrowIn bin)
    .done ((s.putWord d r.1).setBw r.2)

/-- MACW (R122): the low word to `d`, the high word to `CW` (R28; log 16). -/
def execMacw (a b z cin : WSrc) (d : WDst) (s : State) : Out :=
  finishUnit <| withWord s a fun x => withWord s b fun y => withWord s z fun u => withWord s cin fun c =>
    withWordDst s d <|
      let r := macw x y u c
      .done ((s.putWord d r.1).setCw r.2)

/-- ADDV (R123): the sum to `d`, the carry to `CY`. -/
def execAddv (nW : Nat) (x y : VSrc) (d : VReg) (s : State) : Out :=
  finishUnit <| withVec s nW x fun xs => withVec s nW y fun ys => withReg s nW d <|
    let r := addv xs ys false
    .done ((s.putReg d r.1).setCy r.2)

/-- SUBV (R124): the difference to `d`, the borrow to `BW`. -/
def execSubv (nW : Nat) (x y : VSrc) (d : VReg) (s : State) : Out :=
  finishUnit <| withVec s nW x fun xs => withVec s nW y fun ys => withReg s nW d <|
    let r := subv xs ys false
    .done ((s.putReg d r.1).setBw r.2)

/-- MACV (R125): `Zv` updated, the carry word to `CW`. DESIGN CHOICE: `y` is read once, also where it is a word of `Zv`
(log 40). -/
def execMacv (nW : Nat) (zv : VDst) (x : VSrc) (y : WSrc) (s : State) : Out :=
  finishUnit <| withVec s nW (vdstSrc zv) fun zs => withVec s nW x fun xs => withWord s y fun yw =>
    if macvOverlap nW zv x then .refused .operandOverlap
    else
      let r := macv zs xs yw 0
      .done ((s.putVdst zv r.1).setCw r.2)

/-- CMPV (R126): `ORD`. -/
def execCmpv (nW : Nat) (x y : VSrc) (s : State) : Out :=
  finishUnit <| withVec s nW x fun xs => withVec s nW y fun ys => .done (s.setOrd (cmpv xs ys))

/-- REMV (R127): the remainder to `d`; a zero divisor raises Fatal(Panic) (D14). It writes no flag. -/
def execRemv (nW : Nat) (x m : VSrc) (d : VReg) (s : State) : Out :=
  finishUnit <| withVec s nW x fun xs => withVec s nW m fun ms => withReg s nW d <|
    if iszerov ms then .fatal .panic s else .done (s.putReg d (remv xs ms))

/-- ISZEROV (R128): `ZEXP`. -/
def execIszerov (nW : Nat) (x : VSrc) (s : State) : Out :=
  finishUnit <| withVec s nW x fun xs => .done (s.setZexp (iszerov xs))

/-- FROMBE on the machine (R132): exactly `4*n` bytes to a register of `n` words. -/
def frombeTo (n : Nat) (bs : List Byte) (d : VReg) (s : State) : UResult :=
  if 1 ≤ n ∧ bs.length = 4 * n then withReg s n d <| .done (s.putReg d (fromBE bs)) else .refused .operandWidth

/-- FROMBE (R132): exactly `4*nW` bytes to the `nW` words of `d`. -/
def execFrombe (nW : Nat) (b : BSrc) (d : VReg) (s : State) : Out :=
  finishUnit <| withBytes s b fun bs => frombeTo nW bs d s

/-- TOBE (R133): the `4*nW` bytes of `X` to `buf[off ..)`. -/
def execTobe (nW : Nat) (x : VSrc) (buf : Buf) (off : Nat) (s : State) : Out :=
  finishUnit <| withVec s nW x fun xs => withSlice s ⟨buf, off, 4 * nW⟩ <|
    .done (s.putBytes buf off (toBE xs))

/-- The value of LEFTPAD (R134) for an input that is not too long. -/
def leftpad (bs : List Byte) (len : Nat) : List Byte := zeros (len - bs.length) ++ bs

/-- LEFTPAD into `buf[off .. off+L)` (R134); an input longer than `L` raises Fatal(Panic) (D29). -/
def leftpadTo (bs : List Byte) (d : Slice) (s : State) : UResult :=
  if d.len < bs.length then .fatal .panic s
  else withSlice s d <| .done (s.putBytes d.buf d.off (leftpad bs d.len))

/-- LEFTPAD (R134). -/
def execLeftpad (b : BSrc) (d : Slice) (s : State) : Out :=
  finishUnit <| withBytes s b fun bs => leftpadTo bs d s

end Sys2Proof.Machine
end

