-- ==== Sys2Proof/Machine/Mont.lean ====
section
/-! DEFINITION. The unit MONT (`41_montgomery.md`): N0INV, MONTMUL, MONTFIX, RRCALC. -/

namespace Sys2Proof.Machine

/-- `f` applied `n` times. -/
def iterate {α : Type} (f : α → α) : Nat → α → α
  | 0, a => a
  | n + 1, a => iterate f n (f a)

/-- One round of N0INV (R161) on `(t, k)`. -/
def n0invRound (p : Word × Word) : Word × Word :=
  let t := p.1 * p.1
  (t, p.2 * (t + 1))

/-- N0INV (R161): five rounds from `t = m0 - 1`, `k = 2 - m0`, then the negation. -/
def n0inv (m0 : Word) : Word := 0 - (iterate n0invRound 5 (m0 - 1, 2 - m0)).2

/-- What one MONTMUL keeps between rounds (R162). -/
structure MontState where
  /-- `ACC`. -/
  acc : List Word
  /-- `C`. -/
  c : Bool
  /-- `CW`, the carry word of the last MACV. -/
  cw : Word
  /-- `T`, the last reduction multiplier. -/
  t : Word
deriving DecidableEq, Repr

/-- One bit as a word. -/
def bitWord (b : Bool) : Word := if b then 1 else 0

/-- Round `i` of MONTMUL with `d = Y[i]` (R162). -/
def montRound (n : Nat) (x m : List Word) (k0 : Word) (i : Nat) (d : Word) (st : MontState) : MontState :=
  let p := macv (window st.acc i n) x d 0
  let acc1 := splice st.acc i p.1
  let t := acc1.getD i 0 * k0
  let q := macv (window acc1 i n) m t 0
  let acc2 := splice acc1 i q.1
  let cx := bitWord st.c + p.2
  let cy := cx + q.2
  ⟨acc2.set (n + i) cy, decide (cx < p.2) || decide (cy < q.2), q.2, t⟩

/-- The rounds of MONTMUL from round `i` on (R162). -/
def montLoop (n : Nat) (x m : List Word) (k0 : Word) : Nat → List Word → MontState → MontState
  | _, [], st => st
  | i, d :: ds, st => montLoop n x m k0 (i + 1) ds (montRound n x m k0 i d st)

/-- All rounds of MONTMUL, from a cleared `ACC` and `C = 0` (R162). -/
def montRun (n : Nat) (x y m : List Word) (k0 : Word) : MontState :=
  montLoop n x m k0 0 y ⟨zeroVec (2 * n), false, 0, 0⟩

/-- The result of MONTMUL from the state its rounds leave: the upper half of `ACC`, less `M` if `C = 1` (R162). -/
def montResult (n : Nat) (m : List Word) (st : MontState) : List Word :=
  if st.c then (subv (st.acc.drop n) m false).1 else st.acc.drop n

/-- MONTMUL (R162) on values. -/
def montmul (n : Nat) (x y m : List Word) (k0 : Word) : List Word := montResult n m (montRun n x y m k0)

/-- The registers one MONTMUL leaves: `ACC`, `CW`, `T`, and `C` spent (R24, R162, R28). -/
def State.afterMont (s : State) (st : MontState) : State :=
  ({ s with w := { s.w with acc := st.acc, cw := st.cw, t := st.t } }).spendC

/-- MONTFIX (R164) on values: compare, subtract once, and a remainder as the defensive double-check; `none` where
that remainder has a zero divisor. `later` is the modulus as it reads once the subtraction has written its result
(R73). -/
def montfixWith (later : List Word → List Word) (zv m : List Word) : Option (List Word) :=
  if cmpv zv m != .lt then
    let z1 := (subv zv m false).1
    let m1 := later z1
    if cmpv z1 m1 != .lt then
      if iszerov m1 then none else some (remv z1 m1)
    else some z1
  else some zv

/-- MONTFIX (R164) with a modulus that is not the register it writes. -/
def montfix (zv m : List Word) : Option (List Word) := montfixWith (fun _ => m) zv m

/-- Bit 0 of `M[0]` is 1. -/
def oddModulus (m : List Word) : Bool := (m.getD 0 0).getLsbD 0

/-- One modular doubling (R165). -/
def rrStep (m rr : List Word) : List Word :=
  let d := addv rr rr false
  reduceOnce m d.1 d.2

/-- RRCALC (R165) on values, for a modulus of `n` words that is not zero. -/
def rrcalc (n : Nat) (m : List Word) : List Word := iterate (rrStep m) (2 * n * 32) (remv (oneVec n) m)

/-! Meanings. -/

/-- N0INV (R161): to `K0`; an even word is refused (U12; log 18). -/
def execN0inv (m0 : WSrc) (s : State) : Out :=
  finishUnit <| withWord s m0 fun w =>
    if w.getLsbD 0 then .done { s with w := { s.w with k0 := n0inv w } } else .refused .evenWord

/-- MONTMUL (R162): to `d`, which is none of the operands (R166; log 19). An even modulus and a `K0` of another modulus
are refused (R160, R382, U12; log 17). DESIGN CHOICE: `K0` is read once, before the rounds, also where it is taken from a
word of `ACC`, from `CW` or from `T`, which the rounds overwrite and R166 does not mention (log 40). -/
def execMontmul (nW : Nat) (x y m : VSrc) (k0 : WSrc) (d : VReg) (s : State) : Out :=
  finishUnit <| withVec s nW x fun xs => withVec s nW y fun ys => withVec s nW m fun ms =>
    withWord s k0 fun k => withReg s nW d <| withAcc s nW <|
      if montmulOverlap d x || montmulOverlap d y || montmulOverlap d m then .refused .operandOverlap
      else if !oddModulus ms then .refused .evenModulus
      else if k * ms.getD 0 0 + 1 ≠ 0 then .refused .foreignK0
      else
        let st := montRun nW xs ys ms k
        .done ((s.afterMont st).putReg d (montResult nW ms st))

/-- MONTFIX (R164): `zv` reduced in place. `M` is read again after the subtraction has written `zv` (R73). An even
modulus that is not zero is refused (R160, U12; log 17); a zero one raises REMV's Fatal(Panic). -/
def execMontfix (nW : Nat) (zv : VReg) (m : VSrc) (s : State) : Out :=
  finishUnit <| withVec s nW (.reg zv) fun zs => withVec s nW m fun ms =>
    if !oddModulus ms && !iszerov ms then .refused .evenModulus
    else match montfixWith (fun z1 => if m = .reg zv then z1 else ms) zs ms with
    | some r => .done ((s.putReg zv r).spendOrd)
    | none => .fatal .panic s

/-- RRCALC (R165): to `RR`; its first remainder raises Fatal(Panic) for a zero modulus (R127). -/
def execRrcalc (nW : Nat) (m : VSrc) (s : State) : Out :=
  finishUnit <| withVec s nW m fun ms => withReg s nW .rr <|
    if iszerov ms then .fatal .panic s
    else .done ((s.putReg .rr (rrcalc nW ms)).spendCyOrd)

end Sys2Proof.Machine
end

