-- ==== Sys2Proof/Machine/ModExp.lean ====
section
/-! DEFINITION. The unit MODEXP (`42_modexp.md`): the fixed 4-bit-window exponentiation of R193, as the list of the
MONTMUL operations and copies it performs on the registers, in order. -/

namespace Sys2Proof.Machine

/-- Nibble `NI` of an exponent word: bits `31-4*NI` to `28-4*NI` (R196). -/
def nibble (e : Word) (ni : Nat) : Fin 16 := (e.extractLsb' (28 - 4 * ni) 4).toFin

/-- The nibbles of an exponent in processing order: last word first, high nibble first (R64, R193 lines 13 and 14,
R197). -/
def nibbles (exp : List Word) : List (Fin 16) :=
  exp.reverse.flatMap fun e => (List.range 8).map (nibble e)

/-- A factor of a MONTMUL inside MODEXP: a register, or the operand `BASE`. -/
inductive Factor where
  | reg (r : VReg)
  | base
deriving DecidableEq, Repr

/-- One action of MODEXP on the registers. -/
inductive ModexpStep where
  /-- `d <- MONTMUL(x, y, M, K0, nW)`. -/
  | mul (d : VReg) (x y : Factor)
  /-- `d <- r`. -/
  | copy (d r : VReg)
deriving DecidableEq, Repr

/-- The number of MONTMUL operations in a list of actions (R199). -/
def mulCount (l : List ModexpStep) : Nat :=
  (l.filter fun a => match a with
    | .mul _ _ _ => true
    | .copy _ _ => false).length

/-- `TBL[k]`. -/
def tblReg (k : Nat) : VReg := .tbl (Fin.ofNat 16 k)

/-- The power table (R193 lines 7 to 10). -/
def tableSteps : List ModexpStep :=
  .mul (tblReg 0) (.reg .one) (.reg .rr) :: .mul (tblReg 1) .base (.reg .rr) ::
    (List.range 14).map fun j => .mul (tblReg (j + 2)) (.reg (tblReg (j + 1))) (.reg (tblReg 1))

/-- Four squarings in two pairs (R193 lines 16 to 19). -/
def squareSteps : List ModexpStep :=
  [.mul .zz (.reg .z) (.reg .z), .mul .z (.reg .zz) (.reg .zz),
   .mul .zz (.reg .z) (.reg .z), .mul .z (.reg .zz) (.reg .zz)]

/-- One nibble (R193 lines 15 to 23): `FIRST` skips the squarings (R195). -/
def nibbleSteps (first : Bool) (nib : Fin 16) : List ModexpStep :=
  (if first then [] else squareSteps) ++ [.mul .zz (.reg .z) (.reg (.tbl nib)), .copy .z .zz]

/-- The window loop (R193 lines 12 to 23): `FIRST` is 1 for the very first nibble only (R195). -/
def windowSteps : Bool → List (Fin 16) → List ModexpStep
  | _, [] => []
  | first, nib :: rest => nibbleSteps first nib ++ windowSteps false rest

/-- Lines 7 to 24 of R193. -/
def modexpSteps (exp : List Word) : List ModexpStep :=
  tableSteps ++ .copy .z (tblReg 0) :: (windowSteps true (nibbles exp) ++ [.mul .zz (.reg .z) (.reg .one)])

/-- The value of a factor. -/
def factorVal (base : List Word) (w : WRegs) : Factor → List Word
  | .reg r => w.get r
  | .base => base

/-- One action on the word registers (R162, R193); MONTMUL takes `K0` from its register. -/
def modexpStep (n : Nat) (base m : List Word) (w : WRegs) : ModexpStep → WRegs
  | .mul d x y =>
    let st := montRun n (factorVal base w x) (factorVal base w y) m w.k0
    ({ w with acc := st.acc, cw := st.cw, t := st.t }).put d (montResult n m st)
  | .copy d r => w.put d (w.get r)

/-- Lines 4 to 6 of R193: `K0`, `RR` and `ONE`. -/
def modexpInit (n : Nat) (m : List Word) (w : WRegs) : WRegs :=
  { w with k0 := n0inv (m.getD 0 0), rr := rrcalc n m, one := oneVec n }

/-- The word registers before line 25 of R193. -/
def modexpRun (n : Nat) (base exp m : List Word) (w : WRegs) : WRegs :=
  (modexpSteps exp).foldl (modexpStep n base m) (modexpInit n m w)

/-- The registers MODEXP leaves (R193 lines 25 and 26): `ZZ` reduced, `RES` its copy, the loop variables at their
last values (log 30), its flags spent. -/
def State.afterModexp (s : State) (w : WRegs) (res : List Word) : State :=
  ({ s with w := { w with zz := res, res := res }, wi := 0, ni := 7, first := false }).spendModexp

/-- MODEXP (R193) on operand values: the zero exponent first (R192), then the parity of the modulus (R191). The
registers it works in have `n` words (R23, R68). -/
def modexp (n : Nat) (base exp m : List Word) (s : State) : UResult :=
  withRegs s n <| if iszerov exp then .done ((s.putReg .res (oneVec n)).spendZexp)
  else if oddModulus m = false then .fatal .unsupportedModulus s
  else
    let w := modexpRun n base exp m s.w
    match montfix w.zz m with
    | some res => .done (s.afterModexp w res)
    | none => .fatal .panic s

/-- MODEXP goes past its two tests, to the lines that write registers (R193 lines 1 to 3). -/
def modexpEnters (exp m : List Word) : Bool := !iszerov exp && oddModulus m

/-- MODEXP (R193): to `RES`. An operand register that it writes before it last reads it is refused where it comes to
that write; a call that lines 1 to 3 end (a zero exponent, an even modulus) runs with such an operand too, which the spec
leaves open (log 19, DESIGN CHOICE). -/
def execModexp (nW : Nat) (base exp m : VSrc) (s : State) : Out :=
  finishUnit <| withVec s nW base fun b => withVec s nW exp fun e => withVec s nW m fun ms =>
    if modexpEnters e ms && (modexpBaseOverlap base || modexpReadOnlyOverlap exp || modexpReadOnlyOverlap m) then
      .refused .operandOverlap
    else modexp nW b e ms s

end Sys2Proof.Machine
end

