-- ==== Sys2Proof/Machine/Sha.lean ====
section
/-! DEFINITION. The unit SHA (`43_sha256.md`): SHA-256. -/

namespace Sys2Proof.Machine

/-- A line of R221 as it is printed there: eight words in hexadecimal, the first one leftmost. -/
def shaLine (line : Nat) : List Word := (List.range 8).map fun j => BitVec.ofNat 32 (line >>> (32 * (7 - j)))

/-- `H0[0..7]`, the initial chaining value (R221). -/
def shaInit : List Word := shaLine 0x6a09e667bb67ae853c6ef372a54ff53a510e527f9b05688c1f83d9ab5be0cd19

/-- The eight lines of the round constants (R221). -/
def shaKLines : List Nat :=
  [0x428a2f9871374491b5c0fbcfe9b5dba53956c25b59f111f1923f82a4ab1c5ed5,
   0xd807aa9812835b01243185be550c7dc372be5d7480deb1fe9bdc06a7c19bf174,
   0xe49b69c1efbe47860fc19dc6240ca1cc2de92c6f4a7484aa5cb0a9dc76f988da,
   0x983e5152a831c66db00327c8bf597fc7c6e00bf3d5a7914706ca635114292967,
   0x27b70a852e1b21384d2c6dfc53380d13650a7354766a0abb81c2c92e92722c85,
   0xa2bfe8a1a81a664bc24b8b70c76c51a3d192e819d6990624f40e3585106aa070,
   0x19a4c1161e376c082748774c34b0bcb5391c0cb34ed8aa4a5b9cca4f682e6ff3,
   0x748f82ee78a5636f84c878148cc7020890befffaa4506cebbef9a3f7c67178f2]

/-- The round constants `K[0..63]` (R221). -/
def shaK : List Word := shaKLines.flatMap shaLine

/-- `rotr(x, n) = ((x >> n) | (x << (32-n))) mod 2^32` (R222). -/
def rotr (x : Word) (n : Nat) : Word := x >>> n ||| x <<< (32 - n)

/-- `x` rotated by each distance, all of them combined by `xor` (R222). -/
def xorRotr (x : Word) (distances : List Nat) : Word := (distances.map (rotr x)).foldl (· ^^^ ·) 0

/-- `w[t]` from the words before it, newest first, so that `w[t-i]` stands at index `i-1` (R222). -/
def nextScheduleWord (ws : List Word) : Word :=
  let back (i : Nat) : Word := ws.getD (i - 1) 0
  back 16 + (xorRotr (back 15) [7, 18] ^^^ back 15 >>> 3) + back 7 + (xorRotr (back 2) [17, 19] ^^^ back 2 >>> 10)

/-- The schedule continued by `n` words, newest first (R222). -/
def extendSchedule (n : Nat) (ws : List Word) : List Word :=
  match n with
  | 0 => ws
  | k + 1 => extendSchedule k (nextScheduleWord ws :: ws)

/-- `w[0..63]` of one 64-byte block (R222). -/
def shaSchedule (blk : List Byte) : List Word := (extendSchedule 48 (wordsOfBytes blk).reverse).reverse

/-- The eight working variables of R222. -/
structure ShaVars where
  /-- The eight variables. -/
  (a b c d e f g h : Word)
deriving DecidableEq, Repr

/-- `(a, .., h) = HS[0..7]` (R222). -/
def ShaVars.load (hs : List Word) : ShaVars :=
  let i (k : Nat) : Word := hs.getD k 0
  ⟨i 0, i 1, i 2, i 3, i 4, i 5, i 6, i 7⟩

/-- The variables in order. -/
def ShaVars.toList (v : ShaVars) : List Word := [v.a, v.b, v.c, v.d, v.e, v.f, v.g, v.h]

/-- `t1` of R222, with `kt = K[t]` and `wt = w[t]`. -/
def ShaVars.t1 (v : ShaVars) (kt wt : Word) : Word :=
  v.h + xorRotr v.e [6, 11, 25] + (v.e &&& v.f ^^^ ~~~v.e &&& v.g) + kt + wt

/-- `t2` of R222. -/
def ShaVars.t2 (v : ShaVars) : Word :=
  xorRotr v.a [2, 13, 22] + (v.a &&& v.b ^^^ v.a &&& v.c ^^^ v.b &&& v.c)

/-- Round `t` (R222): every variable takes its neighbour's value but `e` and `a`. -/
def ShaVars.round (v : ShaVars) (ktwt : Word × Word) : ShaVars :=
  let t1 := v.t1 ktwt.1 ktwt.2
  { h := v.g, g := v.f, f := v.e, e := v.d + t1, d := v.c, c := v.b, b := v.a, a := t1 + v.t2 }

/-- One block: `HS` plus what the 64 rounds make of it (R222). -/
def shaCompress (hs : List Word) (blk : List Byte) : List Word :=
  let v := (shaK.zip (shaSchedule blk)).foldl ShaVars.round (.load hs)
  List.zipWith (· + ·) hs v.toList

/-- The message length in bits, 64 bits (R31, R223). DESIGN CHOICE: R223 says only that the engine never hashes `2^61`
bytes or more; for such a message, which only a directly issued operation can have, the count here is taken modulo
`2^64` (log 39). -/
def shaBits (msg : List Byte) : BitVec 64 := BitVec.ofNat 64 (8 * msg.length)

/-- `len64`, most significant byte first (R223). -/
def shaLen64 (msg : List Byte) : List Byte :=
  wordBytes ((shaBits msg).extractLsb' 32 32) ++ wordBytes ((shaBits msg).extractLsb' 0 32)

/-- `k = (55 - L) mod 64` (R223). -/
def shaPadLen (l : Nat) : Nat := (119 - l % 64) % 64

/-- The padded message (R223). -/
def shaPad (msg : List Byte) : List Byte := msg ++ 0x80 :: (zeros (shaPadLen msg.length) ++ shaLen64 msg)

/-- The first `n` 64-byte blocks of a string. -/
def shaBlocks : Nat → List Byte → List (List Byte)
  | 0, _ => []
  | n + 1, bs => bs.take 64 :: shaBlocks n (bs.drop 64)

/-- The blocks of the padded message (R222). -/
def messageBlocks (msg : List Byte) : List (List Byte) := shaBlocks ((shaPad msg).length / 64) (shaPad msg)

/-- `HS[0..7]` after the last block (R222). -/
def shaChain (msg : List Byte) : List Word := (messageBlocks msg).foldl shaCompress shaInit

/-- SHA256 (R220, R224): the 32 bytes of `HOUT`. -/
def sha256 (msg : List Byte) : List Byte := (shaChain msg).flatMap wordBytes

/-- The last block of the padded message. -/
def lastBlock (msg : List Byte) : List Byte := (messageBlocks msg).getLastD (zeros 64)

/-- SHA256 on the machine: `HOUT`, and what the unit's own registers and scratch block are left with (R30, R31;
log 29). -/
def State.hashed (s : State) (msg : List Byte) : State :=
  { s with
    mem := { s.mem with hout := sha256 msg, hblk := lastBlock msg }
    sha := ⟨shaChain msg, shaSchedule (lastBlock msg), shaBits msg⟩ }

/-- SHA256 (R222): to `HOUT`. -/
def execSha256 (msg : BSrc) (s : State) : Out :=
  finishUnit <| withBytes s msg fun bs => .done (s.hashed bs)

end Sys2Proof.Machine
end

