-- ==== Sys2Proof/Machine/Mgf.lean ====
section
/-! DEFINITION. The unit MGF (`44_mgf1.md`): MGF1XOR. -/

namespace Sys2Proof.Machine

/-- The number of hashes for `Lb` bytes: `ceil(Lb / 32)` (R241). -/
def mgfHashes (lb : Nat) : Nat := (lb + 31) / 32

/-- The hash output for counter value `c` (R241, R65). -/
def mgfBlock (seed : List Byte) (c : Nat) : List Byte := sha256 (seed ++ be4 (BitVec.ofNat 32 c))

/-- The mask of `Lb` bytes (R241, R244). -/
def mgfMask (seed : List Byte) (lb : Nat) : List Byte :=
  ((List.range (mgfHashes lb)).flatMap (mgfBlock seed)).take lb

/-- The masked buffer (R241). -/
def mgfXor (buf seed : List Byte) : List Byte := List.zipWith (· ^^^ ·) buf (mgfMask seed buf.length)

/-- The counter would have to pass `2^32 - 1` (R242). -/
def mgfOverflows (lb : Nat) : Bool := decide (32 * 2 ^ 32 < lb)

/-- What MGF1XOR leaves besides the buffer (R241): `CTR`, and the last hash in the SHA unit; `Lb = 0` performs no
hash. For a slice of neither `HOUT` nor `HBLK` it and `mgfXor` are what the loop below comes to (Laws/Mgf.lean). -/
def State.afterMgf (s : State) (seed : List Byte) (lb : Nat) : State :=
  let c := mgfHashes lb - 1
  let s := { s with ctr := BitVec.ofNat 32 c }
  if lb = 0 then s else s.hashed (seed ++ be4 (BitVec.ofNat 32 c))

/-- `buf[off+q] <- buf[off+q] xor HOUT[q]` (R241). Both bytes are read when the step is taken (R73), so a slice of
`HOUT` itself reads what earlier steps wrote. -/
def mgfByte (b : Buf) (off : Nat) (m : Memory) (q : Nat) : Memory :=
  m.write b (off + q) [(m.get b).getD (off + q) 0 ^^^ m.hout.getD q 0]

/-- One round of the outer loop of R241: the hash for counter value `c` to `HOUT`, then at most 32 bytes of the slice
from byte `32*c` on. -/
def mgfRound (l : Slice) (seed : List Byte) (s : State) (c : Nat) : State :=
  let s1 := ({ s with ctr := BitVec.ofNat 32 c }).hashed (seed ++ be4 (BitVec.ofNat 32 c))
  s1.setMem ((List.range (min 32 (l.len - 32 * c))).foldl (mgfByte l.buf (l.off + 32 * c)) s1.mem)

/-- The loop of R241. -/
def mgfLoop (l : Slice) (seed : List Byte) (s : State) : State :=
  (List.range (mgfHashes l.len)).foldl (mgfRound l seed) { s with ctr := 0 }

/-- MGF1XOR on a slice of a buffer (R241, R242). -/
def mgf1xor (l : Slice) (seed : List Byte) (s : State) : UResult :=
  if mgfOverflows l.len then .fatal .panic s else .done (mgfLoop l seed s)

/-- MGF1XOR (R241): the slice in place. DESIGN CHOICE: the seed is read once, also where it lies in `HOUT`, `HBLK` or the
slice (log 40). -/
def execMgf1xor (buf : Slice) (seed : BSrc) (s : State) : Out :=
  finishUnit <| withSlice s buf <| withBytes s seed fun sd => mgf1xor buf sd s

end Sys2Proof.Machine
end

