-- ==== Sys2Proof/Machine/Pss.lean ====
section
/-! DEFINITION. The unit PSS (`45_pss.md`): PSSENC and PSSVFY. -/

namespace Sys2Proof.Machine

/-- `em_len = ceil(em_bits / 8)` (R250). DESIGN CHOICE: R250 writes its rules for `em_bits >= 1`; `em_bits = 0` gives
`em_len = 0` here, a size step 2 of either rule turns away (log 38). -/
def emLen (emBits : Nat) : Nat := (emBits + 7) / 8

/-- `0xFF >> (8*em_len - em_bits)` (R253 step 6). -/
def topMask (emBits : Nat) : Byte := 0xFF >>> (8 * emLen emBits - emBits)

/-- Clear the top bits of the first byte (R253 step 6, R262 step 7). -/
def clearTop (emBits : Nat) : List Byte → List Byte
  | [] => []
  | b :: bs => (b &&& topMask emBits) :: bs

/-- `zeros(8) ‖ mHash ‖ salt`, the string that `H` is the hash of (R253 step 3, R262 step 11). -/
def pssMessage (mHash salt : List Byte) : List Byte := zeros 8 ++ mHash ++ salt

/-- `DB` before masking (R253 step 4). -/
def pssDb (salt : List Byte) (emBits : Nat) : List Byte :=
  zeros (emLen emBits - salt.length - 32 - 2) ++ 0x01 :: salt

/-- The checks of R253 steps 1 and 2, in that order (D25). -/
def pssCheck (mHash salt : List Byte) (emBits : Nat) : Option EncCause :=
  if mHash.length ≠ 32 then some .digestLength
  else if emLen emBits < salt.length + 32 + 2 then some .saltTooLong
  else none

/-- `EM` (R253 steps 3 to 7) where the checks pass. -/
def pssEncode (mHash salt : List Byte) (emBits : Nat) : List Byte :=
  let h := sha256 (pssMessage mHash salt)
  clearTop emBits (mgfXor (pssDb salt emBits) h) ++ h ++ [0xBC]

/-- PSSENC on the machine (R253): an error leaves `EM` unwritten; otherwise `EM[0 .. em_len)`. An encoding longer
than the buffer `EM` is refused (log 23). -/
def pssenc (mHash salt : List Byte) (emBits : Nat) (s : State) : UResult :=
  match pssCheck mHash salt emBits with
  | some c => .encodingError c s
  | none =>
    withSlice s ⟨.em, 0, emLen emBits⟩ <|
      let msg := pssMessage mHash salt
      .done (((s.hashed msg).afterMgf (sha256 msg) (emLen emBits - 32 - 1)).putBytes .em 0
        (pssEncode mHash salt emBits))

/-- PSSENC (R253): to `EM`. DESIGN CHOICE: the salt is read once, also where it lies in `HOUT`, `HBLK` or `EM` (log 40). -/
def execPssenc (mHash salt : BSrc) (emBits : Nat) (s : State) : Out :=
  finishUnit <| withBytes s mHash fun h => withBytes s salt fun t => pssenc h t emBits s

/-- `DB'`: the data block of `EM` unmasked and its top bits cleared (R262 steps 5 to 7). -/
def pssUnmask (em : List Byte) (emBits : Nat) : List Byte :=
  let db := em.take (emLen emBits - 32 - 1)
  let h := window em (emLen emBits - 32 - 1) 32
  clearTop emBits (mgfXor db h)

/-- The padding and the separator are right (R262 steps 8 and 9). -/
def pssPaddingOk (db : List Byte) (emBits sLen : Nat) : Bool :=
  (db.take (emLen emBits - 32 - sLen - 2)).all (· == 0)
    && db[emLen emBits - 32 - sLen - 2]? == some 0x01

/-- Steps 1 and 2 of R262: the sizes, before any byte of `EM` is read. -/
def pssSizesOk (mHash : List Byte) (emBits sLen : Nat) : Bool :=
  mHash.length == 32 && decide (32 + sLen + 2 ≤ emLen emBits)

/-- Steps 1 to 4 of R262: sizes, trailer, top bits. -/
def pssShapeOk (mHash em : List Byte) (emBits sLen : Nat) : Bool :=
  pssSizesOk mHash emBits sLen
    && em[emLen emBits - 1]? == some 0xBC
    && (em.getD 0 0 &&& ~~~topMask emBits) == 0

/-- PSSVFY on the machine (R262): every failure answers `VALID = 0` (D31). `EM` is unmasked in place once its shape
has passed. An encoding longer than the buffer `EM` is refused where step 3 would read it (log 23). -/
def pssvfy (mHash : List Byte) (emBits sLen : Nat) (s : State) : UResult :=
  if !pssSizesOk mHash emBits sLen then .done (s.setValid false)
  else withSlice s ⟨.em, 0, emLen emBits⟩ <|
    let em := s.mem.em.take (emLen emBits)
    if pssShapeOk mHash em emBits sLen then
      let h := window em (emLen emBits - 32 - 1) 32
      let db := pssUnmask em emBits
      let s1 := (s.afterMgf h (emLen emBits - 32 - 1)).putBytes .em 0 db
      if pssPaddingOk db emBits sLen then
        let msg := pssMessage mHash (db.drop (emLen emBits - 32 - sLen - 1))
        .done ((s1.hashed msg).setValid (sha256 msg == h))
      else .done (s1.setValid false)
    else .done (s.setValid false)

/-- PSSVFY (R262): `EM` against `mHash`, to `VALID`. DESIGN CHOICE: `mHash` is read once, also where it lies in `HOUT`,
`HBLK` or `EM` (log 40). -/
def execPssvfy (mHash : BSrc) (emBits sLen : Nat) (s : State) : Out :=
  finishUnit <| withBytes s mHash fun h => pssvfy h emBits sLen s

end Sys2Proof.Machine
end

