-- ==== Sys2Proof/Machine/Sign.lean ====
section
/-! DEFINITION. The unit SIGN (`46_sign_service.md`): SALTGEN, SIGNOP, VERIFYOP. -/

namespace Sys2Proof.Machine

/-- The salt of the next Sign: the fixed string of `SALT_SOURCE`, or ENTROPY's answer (R283, D7). -/
def State.nextSalt (s : State) : List Byte :=
  match s.par.saltSource with
  | some b => b.toList
  | none => s.drawn

/-- SALTGEN on the machine (R283); a draw uses up the tick. -/
def saltgen (s : State) : State :=
  { s with mem := { s.mem with salt := s.nextSalt }, tick := s.tick + 1 }

/-- SALTGEN (R283): to `SALT`. -/
def execSaltgen (s : State) : Out := finishUnit (.done (saltgen s))

/-- SIGNOP on the machine, the four steps of R281. -/
def signop (s : State) : UResult :=
  (pssenc s.mem.digest s.mem.salt Config.emBits s).bind fun s1 =>
  (frombeTo Config.numWords s1.mem.em .base s1).bind fun s2 =>
    (modexp Config.numWords s2.w.base (keyVec s2.key .d) (keyVec s2.key .n) s2).bind fun s3 =>
      leftpadTo (toBE s3.w.res) ⟨.sigbuf, 0, Config.modBytes⟩ s3

/-- SIGNOP (R280, R281): `DIGEST`, `SALT` to `SIGBUF`. -/
def execSignop (s : State) : Out := finishUnit (signop s)

/-- VERIFYOP on the machine, the five steps of R286. -/
def verifyop (s : State) : UResult :=
  (frombeTo Config.numWords s.mem.sigbuf .base s).bind fun s1 =>
  let s2 := s1.spendOrd
  if cmpv s2.w.base (keyVec s2.key .n) != .lt then .done (s2.setValid false)
  else
    (modexp Config.numWords s2.w.base (keyVec s2.key .e) (keyVec s2.key .n) s2).bind fun s3 =>
      let s4 := s3.putBytes .em 0 (toBE s3.w.res)
      pssvfy s4.mem.digest Config.emBits Config.saltLen s4

/-- VERIFYOP (R286): `DIGEST`, `SIGBUF` to `VALID`. -/
def execVerifyop (s : State) : Out := finishUnit (verifyop s)

end Sys2Proof.Machine
end

