-- ==== Sys2Proof/Machine/Cmd.lean ====
section
/-! DEFINITION. The commands (`47_commands.md` R307 to R311): what EXEC(op) does once the payload is read (R36). The
payload reads and the response bytes are steps of the sequencer (Sequencer.lean). -/

namespace Sys2Proof.Machine

/-- The response of a command (R96, R307 to R310). -/
def State.response (s : State) : Cmd → List Byte
  | .sign => s.mem.sigbuf
  | .verify => [if s.fl.valid then 0x01 else 0x00]
  | .getowner => s.par.stubResponse
  | .getaddress => s.par.stubResponse

/-- The state of R36 in which the engine sends the response from byte `k` on: `TXP(op, k)`, or `IDLE` where there is
no byte `k`. -/
def State.sendFrom (s : State) (op : Cmd) (k : Nat) : Seq :=
  if k < (s.response op).length then .txp op k else .idle

/-- SIGN (R307): SALTGEN, SIGNOP; then the 512 bytes of `SIGBUF` are sent, or `STATUS_E`. -/
def execSign (digest : List Byte) (s : State) : Out :=
  if digest.length = Config.hashLen then
    finishCommand (.txp .sign 0) (signop (saltgen { s with mem := { s.mem with digest := digest } }))
  else .refused .illTyped

/-- VERIFY (R308): VERIFYOP; then one byte is sent. -/
def execVerify (digest signature : List Byte) (s : State) : Out :=
  if digest.length = Config.hashLen ∧ signature.length = Config.modBytes then
    finishCommand (.txp .verify 0)
      (verifyop { s with mem := { s.mem with digest := digest, sigbuf := signature } })
  else .refused .illTyped

/-- GETOWNER (R309; log 33): no state changes but the sequencer, which sends `STUB_RESPONSE`. -/
def execGetowner (s : State) : Out := .next (s.goto (s.sendFrom .getowner 0))

/-- GETADDRESS (R310): the same as GETOWNER. -/
def execGetaddress (s : State) : Out := .next (s.goto (s.sendFrom .getaddress 0))

/-- An ignored opcode (R311): the byte is consumed and nothing else happens. -/
def ignore (s : State) : Out := .next s

/-- IGNORED_04_07 (R311). -/
def execIgnored0407 (_x : BitVec 2) (s : State) : Out := ignore s
/-- IGNORED_08_0F (R311). -/
def execIgnored080f (_x : BitVec 3) (s : State) : Out := ignore s
/-- IGNORED_10_1F (R311). -/
def execIgnored101f (_x : BitVec 4) (s : State) : Out := ignore s
/-- IGNORED_20_3F (R311). -/
def execIgnored203f (_x : BitVec 5) (s : State) : Out := ignore s
/-- IGNORED_40_7F (R311). -/
def execIgnored407f (_x : BitVec 6) (s : State) : Out := ignore s
/-- IGNORED_80_FF (R311). -/
def execIgnored80ff (_x : BitVec 7) (s : State) : Out := ignore s

end Sys2Proof.Machine
end

