-- ==== Sys2Proof/Machine/Xport.lean ====
section
/-! DEFINITION. The unit XPORT (`47_commands.md` R300 to R303): RDBYTE, RDBUF, WRBYTE. -/

namespace Sys2Proof.Machine

/-- RDBYTE (R300): the oldest byte of `RXQ` to `buf[i]`; with `RXQ` empty nothing changes and the operation stays
pending (log 34). -/
def execRdbyte (buf : Buf) (i : Nat) (s : State) : Out :=
  finishUnit <| withSlice s ⟨buf, i, 1⟩ <|
    match s.rxq with
    | [] => .done { s with uq := issueRdbyte buf i :: s.uq }
    | b :: rest => .done (({ s with rxq := rest }).putBytes buf i [b])

/-- RDBUF (R301): the bytes that have arrived fill the slice from its start; while some are missing the operation
stays pending for the rest of the slice (log 34). -/
def execRdbuf (d : Slice) (s : State) : Out :=
  finishUnit <| withSlice s d <|
    let got := s.rxq.take d.len
    let s1 := ({ s with rxq := s.rxq.drop d.len }).putBytes d.buf d.off got
    if got.length = d.len then .done s1
    else .done { s1 with uq := issueRdbuf ⟨d.buf, d.off + got.length, d.len - got.length⟩ :: s1.uq }

/-- WRBYTE (R302): the byte is appended to `TXQ`. -/
def execWrbyte (b : BSrc) (s : State) : Out :=
  finishUnit <| withBytes s b fun bs =>
    match bs with
    | [x] => .done (s.txByte x)
    | _ => .refused .operandWidth

end Sys2Proof.Machine
end

