-- ==== Sys2Proof/Machine/Sequencer.lean ====
section
/-! DEFINITION. The sequencer (`10_state.md` R36, `47_commands.md` R305, `60_exceptions.md`): what the next step is,
and every step that is no instruction: reading payload bytes, sending response bytes, DIAG, the moves of HOST, the
platform's report and reset. -/

namespace Sys2Proof.Machine

/-- What the next step does. -/
inductive Fetched where
  /-- It runs an instruction in a state. -/
  | run (i : Instr) (s : State)
  /-- It is a move that is no instruction, with its outcome. -/
  | move (o : Out)

/-- How the machine stops on an image that is no instruction (log 31). -/
def stopOn : DecodeError → Out
  | .unassignedSelect sel => .fault (.unassignedSelect sel)
  | _ => .refused .illTyped

/-- The payload of the command in progress, as it lies in the buffers (R94, R95). -/
def State.payload (s : State) : Cmd → List Byte
  | .sign => s.mem.digest
  | .verify => s.mem.digest ++ s.mem.sigbuf
  | .getowner => []
  | .getaddress => []

/-- Store payload byte `k` (R94, R95): bytes 0 to 31 to `DIGEST`, the others to `SIGBUF`. -/
def State.storePayload (s : State) (k : Nat) (b : Byte) : State :=
  if k < 32 then s.putBytes .digest k [b] else s.putBytes .sigbuf (k - 32) [b]

/-- The state of R36 that waits for payload byte `k`, or runs the command where there is none. -/
def rxFrom (op : Cmd) (k : Nat) : Seq := if k < op.payloadLen then .rxp op k else .exec op

/-- The step of IDLE on an opcode byte (R305): a named command is entered, any other opcode runs at once and stays in
IDLE. -/
def dispatchByte (b : Byte) (s : State) : Fetched :=
  match commandOf b with
  | some op => .move (.next (s.goto (rxFrom op 0)))
  | none =>
    match decodeStream [b] with
    | .ok (i, _) => .run i s
    | .error e => .move (stopOn e)

/-- The step of RXP(op, k) (R36, R301): the byte is stored; with `RXQ` empty the engine waits. -/
def receiveByte (op : Cmd) (k : Nat) (s : State) : Out :=
  match s.rxq with
  | [] => .next s
  | b :: rest => .next ((({ s with rxq := rest }).storePayload k b).goto (rxFrom op (k + 1)))

/-- The end of a command (R38): Sign and Verify leave everything undefined, a stub changed no state (R309; log 33). -/
def State.endCommand (s : State) : Cmd → State
  | .sign => s.forget
  | .verify => s.forget
  | .getowner => s
  | .getaddress => s

/-- The step of TXP(op, k) (R36, R302): byte `k` is sent; after the last one the command ends. -/
def sendByte (op : Cmd) (k : Nat) (s : State) : Out :=
  let s1 := s.txBytes ((s.response op)[k]?).toList
  match s.sendFrom op (k + 1) with
  | .idle => .next ((s1.endCommand op).goto .idle)
  | q => .next (s1.goto q)

/-- The step of TXE (R335): `STATUS_E` is sent, `ERR` cleared, and nothing of the error remains. -/
def sendStatus (s : State) : Out :=
  .next (({ s.txByte Config.statusE with err := false }).forget.goto .idle)

/-- The command in EXEC(op), decoded from its opcode and the payload in the buffers (R90). -/
def runCommand (op : Cmd) (s : State) : Fetched :=
  match decodeStream (op.opcode :: s.payload op) with
  | .ok (i, _) => .run i s
  | .error e => .move (stopOn e)

/-- The step of ENGINE (log 14). In IDLE the unit operations issued directly come first (log 10); a step of HALTED
changes nothing (log 15). -/
def engineFetch (s : State) : Fetched :=
  match s.seq with
  | .idle =>
    match s.uq with
    | u :: us =>
      match decodeIssue u with
      | .ok i => .run i { s with uq := us }
      | .error e => .move (stopOn e)
    | [] =>
      match s.rxq with
      | [] => .move (.next s)
      | b :: rest => dispatchByte b { s with rxq := rest }
  | .rxp op k => .move (receiveByte op k s)
  | .exec op => runCommand op s
  | .txp op k => .move (sendByte op k s)
  | .txe => .move (sendStatus s)
  | .diag => .move (.next s.sendDiag)
  | .halted => .move (.next s)

/-- HOST appends a byte to `RXQ` (R33); beyond `RXQ_DEPTH` the run is refused (D26). -/
def hostSend (b : Byte) (s : State) : Out :=
  match s.par.rxqDepth with
  | none => .next { s with rxq := s.rxq ++ [b] }
  | some d => if s.rxq.length < d then .next { s with rxq := s.rxq ++ [b] } else .refused .rxqFull

/-- HOST removes the oldest byte of `TXQ`, if there is one (R33; log 28). -/
def hostTake (s : State) : Out := .next { s with txq := s.txq.drop 1 }

/-- The platform reports a fatal condition between two engine steps (R333, R343). Once `HALT` is 1 a second one
cannot occur (R339; log 27). -/
def platformFatal (c : PlatformCause) (s : State) : Out :=
  if s.halt then .next s else .next (s.raiseFatal c.toFatal)

/-- The platform reports a fatal condition inside ENGINE's step (R333: "at whatever point the engine has reached"). In
EXEC of Sign or Verify the unit operations are abandoned where they stand (R338; log 14); every other step of ENGINE
is one transaction of D1, so there the report lands before it. -/
def platformFatalInside (c : PlatformCause) (s : State) : Out :=
  if s.halt then .next s
  else match s.seq with
    | .exec .sign => .next (s.abandon.raiseFatal c.toFatal)
    | .exec .verify => .next (s.abandon.raiseFatal c.toFatal)
    | _ => .next (s.raiseFatal c.toFatal)

/-- What the next step is (R20): the move of the agent whose turn it is, or ENGINE's. -/
def fetch (s : State) : Fetched :=
  match s.turns with
  | [] => engineFetch s
  | .engine :: ts => engineFetch { s with turns := ts }
  | .hostSend b :: ts => .move (hostSend b { s with turns := ts })
  | .hostTake :: ts => .move (hostTake { s with turns := ts })
  | .platformFatal c :: ts => .move (platformFatal c { s with turns := ts })
  | .platformFatalInside c :: ts => .move (platformFatalInside c { s with turns := ts })
  | .reset :: ts => .move (.next ({ s with turns := ts }).afterReset)

/-- The state whose next step runs the instruction of an opcode-table word (logs 11, 12): a unit operation is issued, an
ignored opcode lies in `RXQ`, a named command stands in EXEC with its payload in the buffers. -/
def placeWord (s : State) (nbits w : Nat) : State :=
  let s0 := { s with turns := [], uq := [] }
  match tableIssue nbits w with
  | some u => ({ s0 with uq := [u] }).goto .idle
  | none =>
    let bytes := tableBytes nbits w
    match commandOf (bytes.headD 0) with
    | some .sign => (s0.setMem { s0.mem with digest := window bytes 1 32 }).goto (.exec .sign)
    | some .verify =>
      (s0.setMem { s0.mem with digest := window bytes 1 32, sigbuf := window bytes 33 512 }).goto (.exec .verify)
    | some op => s0.goto (.exec op)
    | none => ({ s0 with rxq := bytes.headD 0 :: s0.rxq }).goto .idle

end Sys2Proof.Machine
end

