-- ==== Sys2Proof/Machine/Dispatch.lean ====
section
/-! DEFINITION. One arm per constructor of Instr: the meaning of each instruction. -/

namespace Sys2Proof.Machine

def exec (i : Instr) (s : State) : Host.Outcome State Fault Refusal :=
  match i with
  -- commands (47_commands.md)
  | .sign digest => Sys2Proof.Machine.execSign digest s
  | .verify digest signature => Sys2Proof.Machine.execVerify digest signature s
  | .getowner => Sys2Proof.Machine.execGetowner s
  | .getaddress => Sys2Proof.Machine.execGetaddress s
  | .ignored_04_07 x => Sys2Proof.Machine.execIgnored0407 x s
  | .ignored_08_0f x => Sys2Proof.Machine.execIgnored080f x s
  | .ignored_10_1f x => Sys2Proof.Machine.execIgnored101f x s
  | .ignored_20_3f x => Sys2Proof.Machine.execIgnored203f x s
  | .ignored_40_7f x => Sys2Proof.Machine.execIgnored407f x s
  | .ignored_80_ff x => Sys2Proof.Machine.execIgnored80ff x s
  -- ARITH (40_fixed_width_arith.md)
  | .addw a b cin d => Sys2Proof.Machine.execAddw a b cin d s
  | .subw a b bin d => Sys2Proof.Machine.execSubw a b bin d s
  | .macw a b z cin d => Sys2Proof.Machine.execMacw a b z cin d s
  | .addv nW x y d => Sys2Proof.Machine.execAddv nW x y d s
  | .subv nW x y d => Sys2Proof.Machine.execSubv nW x y d s
  | .macv nW zv x y => Sys2Proof.Machine.execMacv nW zv x y s
  | .cmpv nW x y => Sys2Proof.Machine.execCmpv nW x y s
  | .remv nW x m d => Sys2Proof.Machine.execRemv nW x m d s
  | .iszerov nW x => Sys2Proof.Machine.execIszerov nW x s
  | .frombe nW b d => Sys2Proof.Machine.execFrombe nW b d s
  | .tobe nW x buf off => Sys2Proof.Machine.execTobe nW x buf off s
  | .leftpad b d => Sys2Proof.Machine.execLeftpad b d s
  -- MONT (41_montgomery.md)
  | .n0inv m0 => Sys2Proof.Machine.execN0inv m0 s
  | .montmul nW x y m k0 d => Sys2Proof.Machine.execMontmul nW x y m k0 d s
  | .montfix nW zv m => Sys2Proof.Machine.execMontfix nW zv m s
  | .rrcalc nW m => Sys2Proof.Machine.execRrcalc nW m s
  -- MODEXP (42_modexp.md)
  | .modexp nW base exp m => Sys2Proof.Machine.execModexp nW base exp m s
  -- SHA, MGF, PSS (43_sha256.md, 44_mgf1.md, 45_pss.md)
  | .sha256 msg => Sys2Proof.Machine.execSha256 msg s
  | .mgf1xor buf seed => Sys2Proof.Machine.execMgf1xor buf seed s
  | .pssenc mHash salt emBits => Sys2Proof.Machine.execPssenc mHash salt emBits s
  | .pssvfy mHash emBits sLen => Sys2Proof.Machine.execPssvfy mHash emBits sLen s
  -- SIGN (46_sign_service.md)
  | .saltgen => Sys2Proof.Machine.execSaltgen s
  | .signop => Sys2Proof.Machine.execSignop s
  | .verifyop => Sys2Proof.Machine.execVerifyop s
  -- XPORT (47_commands.md)
  | .rdbyte buf idx => Sys2Proof.Machine.execRdbyte buf idx s
  | .rdbuf d => Sys2Proof.Machine.execRdbuf d s
  | .wrbyte b => Sys2Proof.Machine.execWrbyte b s

end Sys2Proof.Machine
end

