-- ==== Sys2Proof/Safety.lean ====
section
/-! DEFINITION. The terms claims use: the invariant of the engine, and what "nothing else changed" means for
registers and for the bytes of the buffers. -/

namespace Sys2Proof.Machine

/-- A value of `SEQ` whose index names a byte that exists: a payload byte of the command (R36, R93), a byte of its
response (R96). -/
def State.seqLegal (s : State) : Prop :=
  match s.seq with
  | .rxp op k => k < op.payloadLen
  | .txp op k => k < (s.response op).length
  | _ => True

/-- The invariant: the word registers, the buffers and the SHA unit have their fixed sizes (R23, R30, R31); `SEQ` names
a byte that exists (R36); `HALT` is 1 exactly in DIAG and HALTED (R338, R339); TXE is entered with `ERR` set (R334,
R335). -/
structure State.Inv (s : State) : Prop where
  regs : s.w.wf 128 = true
  memory : s.mem.wf = true
  sha : s.sha.wf = true
  seq : s.seqLegal
  halt : s.halt = true ↔ s.seq = .diag ∨ s.seq = .halted
  txe : s.seq = .txe → s.err = true

/-- The engine is not halted: the premise R339 asks claims to take. -/
def State.live (s : State) : Prop := s.halt = false

/-- Every word register has the width it had (R68: nothing is resized). -/
def SameWidths (s t : State) : Prop :=
  (∀ r, (t.w.get r).length = (s.w.get r).length) ∧ t.w.acc.length = s.w.acc.length

/-- Every byte of every buffer reads as before. -/
def SameBytes (s t : State) : Prop := ∀ b i, t.mem.byte b i = s.mem.byte b i

/-- Every byte of every buffer outside the slice reads as before. -/
def SameBytesOutside (s t : State) (l : Slice) : Prop :=
  ∀ b i, ¬(b = l.buf ∧ l.off ≤ i ∧ i < l.off + l.len) → t.mem.byte b i = s.mem.byte b i

/-- Every vector register but `d` holds what it held, and so do `ACC`, `K0`, `CW` and `T`. -/
def SameRegsBut (s t : State) (d : VReg) : Prop :=
  (∀ r, r ≠ d → t.w.get r = s.w.get r)
    ∧ t.w.acc = s.w.acc ∧ t.w.k0 = s.w.k0 ∧ t.w.cw = s.w.cw ∧ t.w.t = s.w.t

/-- The select code an instruction is issued under (R99). -/
def hasSelect (i : Instr) (c : BitVec 8) : Prop := ∃ args, encode i = .issue ⟨c, args⟩

/-- Keys, parameters, error state, sequencer, queues, pending issues and turns are as before. -/
structure SameControl (s t : State) : Prop where
  key : t.key = s.key
  par : t.par = s.par
  err : t.err = s.err
  halt : t.halt = s.halt
  cause : t.cause = s.cause
  seq : t.seq = s.seq
  rxq : t.rxq = s.rxq
  txq : t.txq = s.txq
  uq : t.uq = s.uq
  turns : t.turns = s.turns

/-- The SHA unit's registers, `CTR` and the loop variables of MODEXP are as before. -/
structure SameUnits (s t : State) : Prop where
  sha : t.sha = s.sha
  ctr : t.ctr = s.ctr
  wi : t.wi = s.wi
  ni : t.ni = s.ni
  first : t.first = s.first

/-- Every word of every vector register and of `ACC` but the destination word is as before, and so are `K0` and `T`. -/
structure SameWordsBut (s t : State) (d : WDst) : Prop where
  regs : ∀ r i, d ≠ .reg r i → (t.w.get r)[i]? = (s.w.get r)[i]?
  acc : ∀ i, d ≠ .acc i → t.w.acc[i]? = s.w.acc[i]?
  k0 : t.w.k0 = s.w.k0
  t : t.w.t = s.w.t

/-- Every byte of every buffer but `HOUT` and `HBLK`, outside the slice, reads as before. -/
def SameBytesOutsideHash (s t : State) (l : Slice) : Prop :=
  ∀ b i, b ≠ .hout → b ≠ .hblk → ¬(b = l.buf ∧ l.off ≤ i ∧ i < l.off + l.len) → t.mem.byte b i = s.mem.byte b i

/-- It is ENGINE's turn in `s`, and `s0` is `s` with that turn used up. -/
def State.engineTurn (s s0 : State) : Prop :=
  (s.turns = [] ∧ s0 = s) ∨ ∃ ts, s.turns = .engine :: ts ∧ s0 = { s with turns := ts }

/-- `n` free steps of the engine in a row, none of them a stop. -/
inductive Steps : Nat → State → State → Prop where
  | refl (s : State) : Steps 0 s s
  | tail {n : Nat} {s t u : State} (h : step s = .next t) (rest : Steps n t u) : Steps (n + 1) s u

end Sys2Proof.Machine
end

