-- ==== Sys2Proof/Certificates/Slice0/Obligations.lean ====
section
/-! DEFINITION. The statements for the provers. Each is about every state unless it says otherwise; what a statement
rests on besides the numbered rules is said in its docstring. -/

open Sys2Proof Sys2Proof.Machine

/-! Word steps (`40_fixed_width_arith.md` R120 to R122). -/

/-- R120: ADDW completes wherever its operands exist, and its sum and carry satisfy the law; the carry goes to `CY`.
That the sum word goes to a destination operand and that the carry-in may be the flag is the model's (log 10, DESIGN
CHOICE). -/
def Obligations.AddwWritesSumAndCarry : Prop :=
  ∀ (a b : WSrc) (cin : CSrc) (d : WDst) (s : State) (x y : Word),
    s.word a = some x → s.word b = some y → s.hasWord d = true →
    hasSelect (.addw a b cin d) 0x00
      ∧ ∃ (r : Word) (cy : Bool),
        x.toNat + y.toNat + (s.carryIn cin).toNat = r.toNat + cy.toNat * 2 ^ 32
          ∧ exec (.addw a b cin d) s = .next ((s.putWord d r).setCy cy)

/-- R121: SUBW completes wherever its operands exist, and its difference and borrow satisfy the law; the borrow goes to
`BW`. That the difference word goes to a destination operand and that the borrow-in may be the flag is the model's (log
10, DESIGN CHOICE). -/
def Obligations.SubwWritesDifferenceAndBorrow : Prop :=
  ∀ (a b : WSrc) (bin : CSrc) (d : WDst) (s : State) (x y : Word),
    s.word a = some x → s.word b = some y → s.hasWord d = true →
    hasSelect (.subw a b bin d) 0x01
      ∧ ∃ (r : Word) (bw : Bool),
        (x.toNat : Int) - y.toNat - (s.borrowIn bin).toNat = r.toNat - bw.toNat * 2 ^ 32
          ∧ exec (.subw a b bin d) s = .next ((s.putWord d r).setBw bw)

/-- R122: MACW completes wherever its operands exist, and its two words satisfy the law. That the low word goes to a
destination operand is the model's (log 10, DESIGN CHOICE); that the high word goes to `CW` is read from R28 (log 16,
DEDUCED). -/
def Obligations.MacwWritesProductWords : Prop :=
  ∀ (a b z cin : WSrc) (d : WDst) (s : State) (x y u c : Word),
    s.word a = some x → s.word b = some y → s.word z = some u → s.word cin = some c → s.hasWord d = true →
    hasSelect (.macw a b z cin d) 0x02
      ∧ ∃ lo hi : Word,
        x.toNat * y.toNat + u.toNat + c.toNat = lo.toNat + hi.toNat * 2 ^ 32
          ∧ exec (.macw a b z cin d) s = .next ((s.putWord d lo).setCw hi)

/-- The frame of the word steps: one word and one condition output change (R28, R120 to R122; MACW's `CW`: log 16). -/
def Obligations.WordStepsKeepEverythingElse : Prop :=
  ∀ s t : State,
    (∀ a b cin d, exec (.addw a b cin d) s = .next t →
      SameControl s t ∧ SameUnits s t ∧ SameBytes s t ∧ SameWordsBut s t d ∧ t.w.cw = s.w.cw
        ∧ t.fl = { s.fl with cy := t.fl.cy })
    ∧ (∀ a b bin d, exec (.subw a b bin d) s = .next t →
      SameControl s t ∧ SameUnits s t ∧ SameBytes s t ∧ SameWordsBut s t d ∧ t.w.cw = s.w.cw
        ∧ t.fl = { s.fl with bw := t.fl.bw })
    ∧ ∀ a b z cin d, exec (.macw a b z cin d) s = .next t →
      SameControl s t ∧ SameUnits s t ∧ SameBytes s t ∧ SameWordsBut s t d ∧ t.fl = s.fl

/-! Vector operations (`40_fixed_width_arith.md` R123 to R134). -/

/-- R123: ADDV on operands of `nW` words into a register of `nW` words, its value law; the destination may be an
operand. -/
def Obligations.AddvAddsVectors : Prop :=
  ∀ (nW : Nat) (x y : VSrc) (d : VReg) (s : State) (xs ys : List Word),
    s.vec nW x = some xs → s.vec nW y = some ys → (s.w.get d).length = nW →
    hasSelect (.addv nW x y d) 0x03
      ∧ ∃ (r : List Word) (cy : Bool),
        r.length = nW ∧ val xs + val ys = val r + cy.toNat * radix nW
          ∧ exec (.addv nW x y d) s = .next ((s.putReg d r).setCy cy)

/-- R124: SUBV on operands of `nW` words into a register of `nW` words, its value law. -/
def Obligations.SubvSubtractsVectors : Prop :=
  ∀ (nW : Nat) (x y : VSrc) (d : VReg) (s : State) (xs ys : List Word),
    s.vec nW x = some xs → s.vec nW y = some ys → (s.w.get d).length = nW →
    hasSelect (.subv nW x y d) 0x04
      ∧ ∃ (r : List Word) (bw : Bool),
        r.length = nW ∧ (val xs : Int) - val ys = val r - bw.toNat * radix nW
          ∧ exec (.subv nW x y d) s = .next ((s.putReg d r).setBw bw)

/-- R125: MACV, its value law, wherever `X` is not in a shifted overlap with the window. `X` in the window's own place
(the same register, or the same window of `ACC`) completes: each word is read before it is written (R131, log 20). Two
differing windows of `ACC` that share a word are a shifted overlap, and that call is refused (log 20). That `y` is read
once, also where it is a word of `Zv`, is log 40 (DESIGN CHOICE). -/
def Obligations.MacvAccumulatesProduct : Prop :=
  ∀ (nW : Nat) (zv : VDst) (x : VSrc) (y : WSrc) (s : State) (zs xs : List Word) (yw : Word),
    s.vec nW (vdstSrc zv) = some zs → s.vec nW x = some xs → s.word y = some yw →
    hasSelect (.macv nW zv x y) 0x05
    ∧ (macvOverlap nW zv x = false →
      ∃ (r : List Word) (cw : Word),
        r.length = nW ∧ val zs + val xs * yw.toNat = val r + cw.toNat * radix nW
          ∧ exec (.macv nW zv x y) s = .next ((s.putVdst zv r).setCw cw))
    ∧ (macvOverlap nW zv x = true → exec (.macv nW zv x y) s = .refused .operandOverlap)

/-- R126: CMPV is the unsigned comparison of the two values. -/
def Obligations.CmpvComparesValues : Prop :=
  ∀ (nW : Nat) (x y : VSrc) (s : State) (xs ys : List Word),
    s.vec nW x = some xs → s.vec nW y = some ys →
    hasSelect (.cmpv nW x y) 0x06
      ∧ exec (.cmpv nW x y) s = .next (s.setOrd (compare (val xs) (val ys)))

/-- R127: REMV is the remainder, and a zero divisor raises Fatal(Panic), entered as R331 and R338 say. The destination may
be `X` or `M`: the operands are read first (log 21, DEDUCED). That the Fatal drops the pending issues and keeps every
register is log 26 (DEDUCED). -/
def Obligations.RemvComputesRemainder : Prop :=
  ∀ (nW : Nat) (x m : VSrc) (d : VReg) (s : State) (xs ms : List Word),
    s.vec nW x = some xs → s.vec nW m = some ms → (s.w.get d).length = nW →
    hasSelect (.remv nW x m d) 0x07
      ∧ (val ms ≠ 0 →
        ∃ r : List Word, r.length = nW ∧ val r = val xs % val ms
          ∧ exec (.remv nW x m d) s = .next (s.putReg d r))
      ∧ (val ms = 0 → exec (.remv nW x m d) s = .next { s with halt := true, cause := 0x12, seq := .diag, uq := [] })

/-- R128: ISZEROV tests every word. -/
def Obligations.IszerovTestsEveryWord : Prop :=
  ∀ (nW : Nat) (x : VSrc) (s : State) (xs : List Word), s.vec nW x = some xs →
    hasSelect (.iszerov nW x) 0x08
      ∧ exec (.iszerov nW x) s = .next (s.setZexp (decide (∀ w ∈ xs, w = 0)))

/-- R132: FROMBE decodes exactly `4*nW` bytes into a register of `nW` words and accepts no other length. -/
def Obligations.FrombeDecodesBigEndian : Prop :=
  ∀ (nW : Nat) (b : BSrc) (d : VReg) (s : State) (bs : List Byte), 1 ≤ nW → s.bytes b = some bs →
    hasSelect (.frombe nW b d) 0x09
      ∧ (bs.length = 4 * nW → (s.w.get d).length = nW →
        ∃ r : List Word, r.length = nW ∧ val r = be bs ∧ exec (.frombe nW b d) s = .next (s.putReg d r))
      ∧ (bs.length ≠ 4 * nW → exec (.frombe nW b d) s = .refused .operandWidth)

/-- R133: TOBE writes the `4*nW` bytes of the value, leading zero bytes included, and no other byte. -/
def Obligations.TobeEncodesBigEndian : Prop :=
  ∀ (nW : Nat) (x : VSrc) (buf : Buf) (off : Nat) (s : State) (xs : List Word),
    s.vec nW x = some xs → s.fits ⟨buf, off, 4 * nW⟩ = true →
    hasSelect (.tobe nW x buf off) 0x0A
      ∧ ∃ (bs : List Byte) (t : State),
        bs.length = 4 * nW ∧ be bs = val xs
          ∧ exec (.tobe nW x buf off) s = .next t ∧ t = { s with mem := t.mem }
          ∧ (∀ i, i < 4 * nW → t.mem.byte buf (off + i) = bs[i]?)
          ∧ SameBytesOutside s t ⟨buf, off, 4 * nW⟩

/-- R134: LEFTPAD writes zeros and then its input to the target slice; a longer input raises Fatal(Panic), entered as
R331 and R338 say. That the Fatal drops the pending issues is log 26 (DEDUCED). -/
def Obligations.LeftpadFillsSlice : Prop :=
  ∀ (b : BSrc) (d : Slice) (s : State) (bs : List Byte), s.bytes b = some bs → s.fits d = true →
    hasSelect (.leftpad b d) 0x0B
      ∧ (bs.length ≤ d.len →
        ∃ t : State, exec (.leftpad b d) s = .next t ∧ t = { s with mem := t.mem }
          ∧ (∀ i, i < d.len → t.mem.byte d.buf (d.off + i) = (zeros (d.len - bs.length) ++ bs)[i]?)
          ∧ SameBytesOutside s t d)
      ∧ (d.len < bs.length →
        exec (.leftpad b d) s = .next { s with halt := true, cause := 0x12, seq := .diag, uq := [] })

/-- R62 and R63: the two laws word by word and byte by byte, and that each undoes the other. -/
def Obligations.DecodeAndEncodeLawsAreInverse : Prop :=
  (∀ (n : Nat) (bs : List Byte), bs.length = 4 * n →
    (fromBE bs).length = n ∧ val (fromBE bs) = be bs ∧ toBE (fromBE bs) = bs
      ∧ ∀ i, i < n →
        ((fromBE bs).getD i 0).toNat
          = (bs.getD (4 * (n - 1 - i)) 0).toNat * 2 ^ 24 + (bs.getD (4 * (n - 1 - i) + 1) 0).toNat * 2 ^ 16
            + (bs.getD (4 * (n - 1 - i) + 2) 0).toNat * 2 ^ 8 + (bs.getD (4 * (n - 1 - i) + 3) 0).toNat)
  ∧ ∀ ws : List Word,
    (toBE ws).length = 4 * ws.length ∧ be (toBE ws) = val ws ∧ fromBE (toBE ws) = ws
      ∧ ∀ i, i < ws.length →
        (toBE ws).getD (4 * (ws.length - 1 - i)) 0 = (ws.getD i 0).extractLsb' 24 8
          ∧ (toBE ws).getD (4 * (ws.length - 1 - i) + 1) 0 = (ws.getD i 0).extractLsb' 16 8
          ∧ (toBE ws).getD (4 * (ws.length - 1 - i) + 2) 0 = (ws.getD i 0).extractLsb' 8 8
          ∧ (toBE ws).getD (4 * (ws.length - 1 - i) + 3) 0 = (ws.getD i 0).extractLsb' 0 8

/-- R68, R130: an operand of another word count is refused by every vector operation, in each operand place; so is a
destination register of another width, which nothing resizes (logs 1, 22). -/
def Obligations.OtherWordCountIsRefused : Prop :=
  ∀ (nW : Nat) (x g g' g'' : VSrc) (s : State) (gs gs' gs'' : List Word), s.vec nW g = some gs →
    s.vec nW g' = some gs' → s.vec nW g'' = some gs'' →
    (s.vec nW x = none →
      (∀ y d, exec (.addv nW x y d) s = .refused .operandWidth)
      ∧ (∀ d, exec (.addv nW g x d) s = .refused .operandWidth)
      ∧ (∀ y d, exec (.subv nW x y d) s = .refused .operandWidth)
      ∧ (∀ d, exec (.subv nW g x d) s = .refused .operandWidth)
      ∧ (∀ zv y, exec (.macv nW zv x y) s = .refused .operandWidth)
      ∧ (∀ zv y, s.vec nW (vdstSrc zv) = none → exec (.macv nW zv g y) s = .refused .operandWidth)
      ∧ (∀ y, exec (.cmpv nW x y) s = .refused .operandWidth)
      ∧ exec (.cmpv nW g x) s = .refused .operandWidth
      ∧ (∀ m d, exec (.remv nW x m d) s = .refused .operandWidth)
      ∧ (∀ d, exec (.remv nW g x d) s = .refused .operandWidth)
      ∧ exec (.iszerov nW x) s = .refused .operandWidth
      ∧ (∀ buf off, exec (.tobe nW x buf off) s = .refused .operandWidth)
      ∧ (∀ y m k d, exec (.montmul nW x y m k d) s = .refused .operandWidth)
      ∧ (∀ m k d, exec (.montmul nW g x m k d) s = .refused .operandWidth)
      ∧ (∀ k d, exec (.montmul nW g g' x k d) s = .refused .operandWidth)
      ∧ (∀ zv, exec (.montfix nW zv x) s = .refused .operandWidth)
      ∧ (∀ zv, s.vec nW (.reg zv) = none → exec (.montfix nW zv g) s = .refused .operandWidth)
      ∧ exec (.rrcalc nW x) s = .refused .operandWidth
      ∧ (∀ e m, exec (.modexp nW x e m) s = .refused .operandWidth)
      ∧ (∀ m, exec (.modexp nW g x m) s = .refused .operandWidth)
      ∧ exec (.modexp nW g g' x) s = .refused .operandWidth)
    ∧ (∀ d, (s.w.get d).length ≠ nW →
      exec (.addv nW g g' d) s = .refused .operandWidth
      ∧ exec (.subv nW g g' d) s = .refused .operandWidth
      ∧ exec (.remv nW g g' d) s = .refused .operandWidth
      ∧ (∀ b bs, s.bytes b = some bs → exec (.frombe nW b d) s = .refused .operandWidth)
      ∧ ∀ k w, s.word k = some w → exec (.montmul nW g g' g'' k d) s = .refused .operandWidth)
    ∧ (s.w.acc.length ≠ 2 * nW →
      ∀ k w d, s.word k = some w → exec (.montmul nW g g' g'' k d) s = .refused .operandWidth)
    ∧ (s.w.rr.length ≠ nW → exec (.rrcalc nW g) s = .refused .operandWidth)
    ∧ (s.w.wf nW = false → modexpBaseOverlap g = false → modexpReadOnlyOverlap g' = false →
      modexpReadOnlyOverlap g'' = false → exec (.modexp nW g g' g'') s = .refused .operandWidth)

/-- The frame of the operations on vectors: which registers and condition outputs each may change. The operations
that can raise Fatal are stated for runs in which they do not (`HALT` stays 0). A condition output that a rule has
consumed is a free value (log 5), so it is left open here. -/
def Obligations.VectorOpsKeepEverythingElse : Prop :=
  ∀ (nW : Nat) (s t : State),
    (∀ x y d, exec (.addv nW x y d) s = .next t →
      SameControl s t ∧ SameUnits s t ∧ SameBytes s t ∧ SameRegsBut s t d ∧ t.fl = { s.fl with cy := t.fl.cy })
    ∧ (∀ x y d, exec (.subv nW x y d) s = .next t →
      SameControl s t ∧ SameUnits s t ∧ SameBytes s t ∧ SameRegsBut s t d ∧ t.fl = { s.fl with bw := t.fl.bw })
    ∧ (∀ zv x y, exec (.macv nW zv x y) s = .next t →
      SameControl s t ∧ SameUnits s t ∧ SameBytes s t ∧ t.fl = s.fl ∧ t.w.k0 = s.w.k0 ∧ t.w.t = s.w.t
        ∧ (∀ r, zv ≠ .reg r → t.w.get r = s.w.get r)
        ∧ ∀ i, (∀ off, zv = .acc off → i < off ∨ off + nW ≤ i) → t.w.acc[i]? = s.w.acc[i]?)
    ∧ (∀ x y, exec (.cmpv nW x y) s = .next t →
      SameControl s t ∧ SameUnits s t ∧ SameBytes s t ∧ t.w = s.w ∧ t.fl = { s.fl with ord := t.fl.ord })
    ∧ (∀ x m d, exec (.remv nW x m d) s = .next t → t.live →
      SameControl s t ∧ SameUnits s t ∧ SameBytes s t ∧ SameRegsBut s t d ∧ t.fl = s.fl)
    ∧ (∀ x, exec (.iszerov nW x) s = .next t →
      SameControl s t ∧ SameUnits s t ∧ SameBytes s t ∧ t.w = s.w ∧ t.fl = { s.fl with zexp := t.fl.zexp })
    ∧ (∀ b d, exec (.frombe nW b d) s = .next t →
      SameControl s t ∧ SameUnits s t ∧ SameBytes s t ∧ SameRegsBut s t d ∧ t.fl = s.fl)
    ∧ (∀ m0, exec (.n0inv m0) s = .next t →
      SameControl s t ∧ SameUnits s t ∧ SameBytes s t ∧ t.w = { s.w with k0 := t.w.k0 } ∧ t.fl = s.fl)
    ∧ (∀ x y m k d, exec (.montmul nW x y m k d) s = .next t →
      SameControl s t ∧ SameUnits s t ∧ SameBytes s t ∧ t.fl = { s.fl with c := t.fl.c } ∧ t.w.k0 = s.w.k0
        ∧ ∀ r, r ≠ d → t.w.get r = s.w.get r)
    ∧ (∀ zv m, exec (.montfix nW zv m) s = .next t → t.live →
      SameControl s t ∧ SameUnits s t ∧ SameBytes s t ∧ SameRegsBut s t zv ∧ t.fl = { s.fl with ord := t.fl.ord })
    ∧ (∀ m, exec (.rrcalc nW m) s = .next t → t.live →
      SameControl s t ∧ SameUnits s t ∧ SameBytes s t ∧ SameRegsBut s t .rr
        ∧ t.fl = { s.fl with cy := t.fl.cy, ord := t.fl.ord })
    ∧ ∀ b e m, exec (.modexp nW b e m) s = .next t → t.live →
      SameControl s t ∧ SameBytes s t ∧ t.sha = s.sha ∧ t.ctr = s.ctr ∧ t.w.base = s.w.base
        ∧ t.fl = { s.fl with cy := t.fl.cy, c := t.fl.c, zexp := t.fl.zexp, ord := t.fl.ord }

/-! The Montgomery unit (`41_montgomery.md`). -/

/-- R161: N0INV writes to `K0` the one word with `K0*m0 + 1 = 0`; an even word is refused (log 18). -/
def Obligations.N0invInvertsOddWord : Prop :=
  ∀ (m0 : WSrc) (s : State) (m : Word), s.word m0 = some m →
    hasSelect (.n0inv m0) 0x10
      ∧ (m.toNat % 2 = 1 →
        ∃ k : Word, (k.toNat * m.toNat + 1) % 2 ^ 32 = 0
          ∧ (∀ k' : Word, (k'.toNat * m.toNat + 1) % 2 ^ 32 = 0 → k' = k)
          ∧ exec (.n0inv m0) s = .next { s with w := { s.w with k0 := k } })
      ∧ (m.toNat % 2 = 0 → exec (.n0inv m0) s = .refused .evenWord)

/-- R163, with R162's registers and a result register and an `ACC` of their widths: what the rounds of MONTMUL leave in
`ACC` and `C` (`V = C*R + ` the upper half), the final subtraction, and the congruence, for operands of any size and the
`K0` of the modulus. That `K0` is read once, also from a word of `ACC`, from `CW` or from `T`, is log 40 (DESIGN CHOICE). -/
def Obligations.MontmulValueLaw : Prop :=
  ∀ (nW : Nat) (x y m : VSrc) (k0 : WSrc) (d : VReg) (s : State) (xs ys ms : List Word) (k : Word),
    s.vec nW x = some xs → s.vec nW y = some ys → s.vec nW m = some ms → s.word k0 = some k →
    (k.toNat * (ms.getD 0 0).toNat + 1) % 2 ^ 32 = 0 → (s.w.get d).length = nW → s.w.acc.length = 2 * nW →
    montmulOverlap d x = false → montmulOverlap d y = false → montmulOverlap d m = false →
    ∃ (st : MontState) (r : List Word) (q V : Nat),
      st.acc.length = 2 * nW ∧ (∀ i, i < nW → st.acc[i]? = some 0)
        ∧ V = st.c.toNat * radix nW + val (st.acc.drop nW)
        ∧ V * radix nW = val xs * val ys + q * val ms ∧ q < radix nW
        ∧ V < radix nW + val ms ∧ (val xs < val ms ∨ val ys < val ms → V < 2 * val ms)
        ∧ r.length = nW ∧ val r = (if st.c then V - val ms else V)
        ∧ val r * radix nW ≡ val xs * val ys [MOD val ms] ∧ val r < radix nW
        ∧ exec (.montmul nW x y m k0 d) s = .next ((s.afterMont st).putReg d r)

/-- Every call of MONTMUL on operands, a result register and an `ACC` of their widths: R166: a result register that is
an operand, or `ACC` as an operand, is refused (log 19); an even modulus and a `K0` that does not belong to the modulus
are refused, as ruling U12 asks of a direct call (R160, R382; log 17); every other call completes with `nW` words. That a `K0`
taken from a word of `ACC`, from `CW` or from `T` runs, read once, is log 40 (DESIGN CHOICE). -/
def Obligations.MontmulCompletesOrIsRefused : Prop :=
  ∀ (nW : Nat) (x y m : VSrc) (k0 : WSrc) (d : VReg) (s : State) (xs ys ms : List Word) (k : Word),
    s.vec nW x = some xs → s.vec nW y = some ys → s.vec nW m = some ms → s.word k0 = some k →
    (s.w.get d).length = nW → s.w.acc.length = 2 * nW →
    (montmulOverlap d x = true ∨ montmulOverlap d y = true ∨ montmulOverlap d m = true →
      exec (.montmul nW x y m k0 d) s = .refused .operandOverlap)
    ∧ (montmulOverlap d x = false → montmulOverlap d y = false → montmulOverlap d m = false →
      (val ms % 2 = 0 → exec (.montmul nW x y m k0 d) s = .refused .evenModulus)
      ∧ (val ms % 2 = 1 → (k.toNat * (ms.getD 0 0).toNat + 1) % 2 ^ 32 ≠ 0 →
        exec (.montmul nW x y m k0 d) s = .refused .foreignK0)
      ∧ (val ms % 2 = 1 → (k.toNat * (ms.getD 0 0).toNat + 1) % 2 ^ 32 = 0 →
        ∃ (st : MontState) (r : List Word), st.acc.length = 2 * nW ∧ r.length = nW
          ∧ exec (.montmul nW x y m k0 d) s = .next ((s.afterMont st).putReg d r)))

/-- R164: MONTFIX reduces its register modulo an odd `M` that is not the register itself, the fallback included. A modulus
that is even and not zero is refused, as ruling U12 asks of a direct call (R160; log 17). That a zero `M`, which U12's words
cover too, is not refused but reaches the remainder by zero and its Fatal(Panic) (R127) is the model's choice (log 17). That
an odd `M` which is the register itself ends there too, where R164's value law would give 0, is the model's reading of R73:
the pseudocode reads `M` again after the subtraction has cleared it (log 21, DEDUCED). The Fatal is entered as R331 and R338
say, the pending issues dropped (log 26, DEDUCED). `ORD` afterwards is a free value (log 5). -/
def Obligations.MontfixReducesModulo : Prop :=
  ∀ (nW : Nat) (zv : VReg) (m : VSrc) (s : State) (zs ms : List Word),
    s.vec nW (.reg zv) = some zs → s.vec nW m = some ms →
    hasSelect (.montfix nW zv m) 0x12
    ∧ (val ms % 2 = 1 → m ≠ .reg zv →
      ∃ r : List Word, r.length = nW ∧ val r = val zs % val ms
        ∧ exec (.montfix nW zv m) s = .next ((s.putReg zv r).spendOrd))
    ∧ (val ms % 2 = 0 → val ms ≠ 0 → exec (.montfix nW zv m) s = .refused .evenModulus)
    ∧ (val ms = 0 ∨ (val ms % 2 = 1 ∧ m = .reg zv) →
      exec (.montfix nW zv m) s = .next { s with halt := true, cause := 0x12, seq := .diag, uq := [] })

/-- R165: RRCALC writes `R^2 mod M` to `RR`; a zero `M` raises Fatal(Panic) in its first remainder (R127), entered as
R331 and R338 say, the pending issues dropped (log 26, DEDUCED). An even modulus that is not zero runs (log 17); `M` may
be `RR` itself: it is read first (log 21, DEDUCED). `CY` and `ORD` afterwards are free values (log 5). -/
def Obligations.RrcalcComputesSquareOfRadix : Prop :=
  ∀ (nW : Nat) (m : VSrc) (s : State) (ms : List Word), s.vec nW m = some ms → s.w.rr.length = nW →
    hasSelect (.rrcalc nW m) 0x13
    ∧ (val ms ≠ 0 →
      ∃ r : List Word, r.length = nW ∧ val r = 2 ^ (2 * nW * 32) % val ms
        ∧ exec (.rrcalc nW m) s = .next ((s.putReg .rr r).spendCyOrd))
    ∧ (val ms = 0 → exec (.rrcalc nW m) s = .next { s with halt := true, cause := 0x12, seq := .diag, uq := [] })

/-! MODEXP (`42_modexp.md`). -/

/-- R198: for an odd modulus and an exponent that is not zero, MODEXP on registers of `nW` words is modular
exponentiation, whatever the size of the base; an operand register that it writes before it last reads it is refused
(log 19). The flags it consumed are free values afterwards (log 5); its loop variables keep their last values (log 30,
DEDUCED). -/
def Obligations.ModexpComputesPower : Prop :=
  ∀ (nW : Nat) (b e m : VSrc) (s : State) (bs es ms : List Word),
    s.vec nW b = some bs → s.vec nW e = some es → s.vec nW m = some ms → val es ≠ 0 → val ms % 2 = 1 →
    (s.w.wf nW = true →
      modexpBaseOverlap b = false → modexpReadOnlyOverlap e = false → modexpReadOnlyOverlap m = false →
      ∃ (w : WRegs) (res : List Word),
        res.length = nW ∧ val res = val bs ^ val es % val ms
          ∧ exec (.modexp nW b e m) s = .next (s.afterModexp w res))
    ∧ (modexpBaseOverlap b = true ∨ modexpReadOnlyOverlap e = true ∨ modexpReadOnlyOverlap m = true →
      exec (.modexp nW b e m) s = .refused .operandOverlap)

/-- R194: after MODEXP, entry `k` of the table is `BASE^k * R` modulo `M`, below `R`. -/
def Obligations.ModexpTableHoldsPowers : Prop :=
  ∀ (nW : Nat) (b e m : VSrc) (s t : State) (bs es ms : List Word),
    s.vec nW b = some bs → s.vec nW e = some es → s.vec nW m = some ms → val es ≠ 0 → val ms % 2 = 1 →
    exec (.modexp nW b e m) s = .next t →
    ∀ k : Fin 16, (t.w.get (.tbl k)).length = nW
      ∧ val (t.w.get (.tbl k)) ≡ val bs ^ k.val * radix nW [MOD val ms]
      ∧ val (t.w.get (.tbl k)) < radix nW

/-- R192: a zero exponent answers 1 at once, whatever the modulus, and no register but `RES` is written. `ZEXP`
afterwards is a free value (log 5). Every operand form runs here, an operand register that MODEXP would go on to write
included (log 19). -/
def Obligations.ModexpZeroExponentAnswersOne : Prop :=
  ∀ (nW : Nat) (b e m : VSrc) (s : State) (bs es ms : List Word),
    s.vec nW b = some bs → s.vec nW e = some es → s.vec nW m = some ms → s.w.wf nW = true → val es = 0 →
    ∃ res : List Word, res.length = nW ∧ val res = 1
      ∧ exec (.modexp nW b e m) s = .next ((s.putReg .res res).spendZexp)

/-- R191: an even modulus raises Fatal(UnsupportedModulus) before anything else, where the exponent is not zero;
every operand form, as above (log 19). The Fatal is entered as R331 and R338 say, the pending issues dropped (log 26,
DEDUCED). -/
def Obligations.ModexpEvenModulusIsFatal : Prop :=
  ∀ (nW : Nat) (b e m : VSrc) (s : State) (bs es ms : List Word),
    s.vec nW b = some bs → s.vec nW e = some es → s.vec nW m = some ms → s.w.wf nW = true →
    val es ≠ 0 → (ms.getD 0 0).getLsbD 0 = false →
    exec (.modexp nW b e m) s = .next { s with halt := true, cause := 0x13, seq := .diag, uq := [] }

/-- R199: the registers are those that a list of exactly `40*nW + 13` MONTMULs (and copies) leaves, whatever the
exponent, the base and the modulus. The list is a function of the exponent alone (R193, R195, R197). -/
def Obligations.ModexpMultiplicationCountIsUniform : Prop :=
  ∀ (nW : Nat) (b e m : VSrc) (s t : State) (bs es ms : List Word),
    s.vec nW b = some bs → s.vec nW e = some es → s.vec nW m = some ms → val es ≠ 0 → val ms % 2 = 1 →
    exec (.modexp nW b e m) s = .next t →
    mulCount (modexpSteps es) = 40 * nW + 13
      ∧ ∃ w res, w = (modexpSteps es).foldl (modexpStep nW bs ms) (modexpInit nW ms s.w)
        ∧ t.w = { w with zz := res, res := res }

/-! SHA-256 and MGF1 (`43_sha256.md`, `44_mgf1.md`). -/

/-- R223, R224 with the loop of R222: the padded message, its 64-byte blocks, the chaining words that the compression
folds over them, and their bytes in `HOUT`; nothing but `HOUT`, `HBLK` and the SHA unit changes. That `HBLK` keeps the
last block is the model's choice (log 29), and so is the bit length modulo `2^64` for a message of `2^61` bytes or more,
which R223 leaves out (log 39). -/
def Obligations.Sha256HashesPaddedBlocks : Prop :=
  ∀ (msg : BSrc) (s : State) (bs : List Byte), s.bytes msg = some bs →
    ∃ (t : State) (k : Nat) (len : List Byte) (blocks : List (List Byte)),
      exec (.sha256 msg) s = .next t
        ∧ k < 64 ∧ len.length = 8 ∧ be len = 8 * bs.length % 2 ^ 64
        ∧ blocks.flatten = bs ++ 0x80 :: (zeros k ++ len) ∧ (∀ blk ∈ blocks, blk.length = 64)
        ∧ t.sha.hs = blocks.foldl shaCompress shaInit ∧ t.sha.hs.length = 8
        ∧ t.mem.hout = t.sha.hs.flatMap be4 ∧ t.mem.hout.length = 32
        ∧ t = { s with mem := { s.mem with hout := t.mem.hout, hblk := t.mem.hblk }, sha := t.sha }

/-- R224: the two published values. -/
def Obligations.Sha256PublishedValues : Prop :=
  ∀ s : State,
    (∃ t, exec (.sha256 (.lit [])) s = .next t ∧
      t.mem.hout = [0xe3, 0xb0, 0xc4, 0x42, 0x98, 0xfc, 0x1c, 0x14, 0x9a, 0xfb, 0xf4, 0xc8, 0x99, 0x6f, 0xb9, 0x24,
        0x27, 0xae, 0x41, 0xe4, 0x64, 0x9b, 0x93, 0x4c, 0xa4, 0x95, 0x99, 0x1b, 0x78, 0x52, 0xb8, 0x55])
    ∧ ∃ t, exec (.sha256 (.lit [0x61, 0x62, 0x63])) s = .next t ∧
      t.mem.hout = [0xba, 0x78, 0x16, 0xbf, 0x8f, 0x01, 0xcf, 0xea, 0x41, 0x41, 0x40, 0xde, 0x5d, 0xae, 0x22, 0x23,
        0xb0, 0x03, 0x61, 0xa3, 0x96, 0x17, 0x7a, 0x9c, 0xb4, 0x10, 0xff, 0x61, 0xf2, 0x00, 0x15, 0xad]

/-- R241: byte `p` of the slice is XORed with byte `p mod 32` of the hash of `seed` and the counter `p div 32`; no byte
outside the slice, `HOUT` and `HBLK` changes, and no byte at all where the slice is empty. A slice of `HOUT` or `HBLK`
is overwritten by the hashes before its bytes are read (R73, R241): in `HOUT` byte `off + p` is the hash's byte XORed
with the byte that then stands at `p`; in `HBLK`, whose bytes after a hash are log 29's, the last round's bytes are
masked. That the seed is read once, also from `HOUT`, `HBLK` or the slice, is log 40 (DESIGN CHOICE). The premise gives
every buffer its size. -/
def Obligations.Mgf1xorMasksEachByte : Prop :=
  ∀ (l : Slice) (seed : BSrc) (s : State) (sd : List Byte),
    s.mem.wf = true → s.fits l = true → s.bytes seed = some sd →
    hasSelect (.mgf1xor l seed) 0x40
      ∧ ∃ t : State, exec (.mgf1xor l seed) s = .next t
      ∧ (l.buf ≠ .hout → l.buf ≠ .hblk → ∀ p, p < l.len → ∃ b k : Byte,
        s.mem.byte l.buf (l.off + p) = some b
          ∧ (sha256 (sd ++ be4 (BitVec.ofNat 32 (p / 32))))[p % 32]? = some k
          ∧ t.mem.byte l.buf (l.off + p) = some (b ^^^ k))
      ∧ (l.buf = .hout → 0 < l.len → ∀ h : List Byte, h = sha256 (sd ++ be4 0) →
        (∀ i, i < l.off ∨ l.off + l.len ≤ i → t.mem.byte .hout i = h[i]?)
          ∧ ∀ p, p < l.len → ∃ b k : Byte,
            h[l.off + p]? = some b ∧ (if l.off = 0 then h else t.mem.hout)[p]? = some k
              ∧ t.mem.byte .hout (l.off + p) = some (b ^^^ k))
      ∧ (l.buf = .hblk → 0 < l.len → ∀ (c : Nat) (msg : List Byte), c = (l.len + 31) / 32 - 1 →
        msg = sd ++ be4 (BitVec.ofNat 32 c) →
        (∀ i, i < l.off + 32 * c ∨ l.off + l.len ≤ i → t.mem.byte .hblk i = (lastBlock msg)[i]?)
          ∧ ∀ p, 32 * c ≤ p → p < l.len → ∃ b k : Byte,
            (lastBlock msg)[l.off + p]? = some b ∧ (sha256 msg)[p - 32 * c]? = some k
              ∧ t.mem.byte .hblk (l.off + p) = some (b ^^^ k))
      ∧ SameBytesOutsideHash s t l ∧ (l.len = 0 → SameBytes s t)
      ∧ t.ctr.toNat = (l.len + 31) / 32 - 1
      ∧ t = { s with mem := t.mem, sha := t.sha, ctr := t.ctr }

/-- R243: applying MGF1XOR twice with the same seed restores the slice, for every buffer that the hashes do not write
themselves. In `HOUT` and `HBLK` the hashes overwrite the slice (R73, R241; stated above), so nothing is restored there. -/
def Obligations.Mgf1xorTwiceRestores : Prop :=
  ∀ (l : Slice) (sd : List Byte) (s t u : State), s.mem.wf = true → l.buf ≠ .hout → l.buf ≠ .hblk →
    exec (.mgf1xor l (.lit sd)) s = .next t → exec (.mgf1xor l (.lit sd)) t = .next u →
    ∀ p, p < l.len → u.mem.byte l.buf (l.off + p) = s.mem.byte l.buf (l.off + p)

/-! PSS (`45_pss.md`). -/

/-- R253: the two checks in their order, each with its EncodingError and `EM` unwritten, and the encoding byte by
byte. An encoding longer than the buffer `EM` is refused (log 23). That an EncodingError of a PSSENC issued directly
leaves `SEQ` as it was is log 25 (DESIGN CHOICE). For `em_bits = 0`, which R250 leaves out, `em_len` is 0 and the outcome is
an EncodingError: log 38 (DESIGN CHOICE). What `HBLK` holds afterwards is log 29's and is left open here. That
the salt is read once, also from `HOUT`, `HBLK` or `EM`, is log 40 (DESIGN CHOICE). -/
def Obligations.PssencBuildsEncoding : Prop :=
  ∀ (hSrc tSrc : BSrc) (emBits : Nat) (s : State) (h salt : List Byte),
    s.bytes hSrc = some h → s.bytes tSrc = some salt →
    hasSelect (.pssenc hSrc tSrc emBits) 0x50
      ∧ (h.length ≠ 32 → exec (.pssenc hSrc tSrc emBits) s = .next { s with err := true, cause := 0x01 })
      ∧ (h.length = 32 → emLen emBits < salt.length + 32 + 2 →
        exec (.pssenc hSrc tSrc emBits) s = .next { s with err := true, cause := 0x02 })
      ∧ (h.length = 32 → salt.length + 32 + 2 ≤ emLen emBits → s.fits ⟨.em, 0, emLen emBits⟩ = true →
        ∃ t : State, exec (.pssenc hSrc tSrc emBits) s = .next t
          ∧ (∀ p, p < emLen emBits - 32 - 1 → ∃ db k : Byte,
            (zeros (emLen emBits - salt.length - 32 - 2) ++ 0x01 :: salt)[p]? = some db
              ∧ (sha256 (sha256 (zeros 8 ++ h ++ salt) ++ be4 (BitVec.ofNat 32 (p / 32))))[p % 32]? = some k
              ∧ t.mem.byte .em p
                = some ((db ^^^ k) &&& (if p = 0 then 0xFF >>> (8 * emLen emBits - emBits) else 0xFF)))
          ∧ (∀ j, j < 32 →
            t.mem.byte .em (emLen emBits - 32 - 1 + j) = (sha256 (zeros 8 ++ h ++ salt))[j]?)
          ∧ t.mem.byte .em (emLen emBits - 1) = some 0xBC
          ∧ SameBytesOutsideHash s t ⟨.em, 0, emLen emBits⟩
          ∧ t = { s with mem := t.mem, sha := t.sha, ctr := t.ctr })
      ∧ (h.length = 32 → salt.length + 32 + 2 ≤ emLen emBits → s.fits ⟨.em, 0, emLen emBits⟩ = false →
        exec (.pssenc hSrc tSrc emBits) s = .refused .outsideStorage)

/-- R262: a digest of another length and an encoding too short for the salt answer `VALID = 0` before a byte of `EM` is
read; otherwise PSSVFY answers, never with an exception, and answers 1 exactly for the encodings of the digest with a
salt of `sLen` bytes; `VALID` is the one flag it writes. An encoding longer than the buffer `EM` is refused (log 23). For
`em_bits = 0`, which R250 leaves out, `em_len` is 0 and the answer is `VALID = 0`: log 38 (DESIGN CHOICE). That `mHash` is
read once, also from `HOUT`, `HBLK` or `EM`, is log 40 (DESIGN CHOICE). -/
def Obligations.PssvfyAcceptsExactlyEncodings : Prop :=
  ∀ (hSrc : BSrc) (emBits sLen : Nat) (s : State) (h : List Byte), s.bytes hSrc = some h →
    (h.length ≠ 32 ∨ emLen emBits < 32 + sLen + 2 →
      exec (.pssvfy hSrc emBits sLen) s = .next (s.setValid false))
    ∧ (h.length = 32 → 32 + sLen + 2 ≤ emLen emBits → s.fits ⟨.em, 0, emLen emBits⟩ = true →
      ∃ t : State, exec (.pssvfy hSrc emBits sLen) s = .next t
        ∧ (t.fl.valid = true ↔
          ∃ salt : List Byte, salt.length = sLen ∧ s.mem.em.take (emLen emBits) = pssEncode h salt emBits)
        ∧ t = { s with mem := t.mem, fl := { s.fl with valid := t.fl.valid }, sha := t.sha, ctr := t.ctr }
        ∧ SameBytesOutsideHash s t ⟨.em, 0, emLen emBits⟩)
    ∧ (h.length = 32 → 32 + sLen + 2 ≤ emLen emBits → s.fits ⟨.em, 0, emLen emBits⟩ = false →
      exec (.pssvfy hSrc emBits sLen) s = .refused .outsideStorage)

/-! The signing service (`46_sign_service.md`). -/

/-- R283: SALTGEN takes the fixed string where there is one, and a draw of 32 bytes otherwise; the draw is a free
value (log 7) and uses up a tick of the model (log 6). Nothing else changes. -/
def Obligations.SaltgenDrawsSalt : Prop :=
  ∀ s : State, ∃ salt : List Byte, salt.length = 32
    ∧ (∀ b, s.par.saltSource = some b → salt = b.toList)
    ∧ (s.par.saltSource = none → ∀ i, i < 32 → salt[i]? = some (Config.draw s.tick i))
    ∧ exec .saltgen s = .next { s with mem := { s.mem with salt := salt }, tick := s.tick + 1 }

/-- R281, its value law, for registers and buffers of their sizes: with an odd modulus the signature is 512 bytes and
`be(EM)^d mod n`; with a zero exponent it is 1, whatever the modulus (R192). -/
def Obligations.SignopComputesSignature : Prop :=
  ∀ s : State, s.mem.wf = true → s.w.wf 128 = true →
    (val s.key.d.toList ≠ 0 → val s.key.n.toList % 2 = 1) →
    ∃ t : State, exec .signop s = .next t
      ∧ t.mem.sigbuf.length = 512
      ∧ (val s.key.d.toList ≠ 0 →
        be t.mem.sigbuf
          = be (pssEncode s.mem.digest s.mem.salt 4095) ^ val s.key.d.toList % val s.key.n.toList)
      ∧ (val s.key.d.toList = 0 → be t.mem.sigbuf = 1)
      ∧ SameControl s t ∧ t.mem.digest = s.mem.digest ∧ t.mem.salt = s.mem.salt
      ∧ t.fl.bw = s.fl.bw ∧ t.fl.valid = s.fl.valid

/-- R286: VERIFYOP answers 1 exactly where the signature is below the modulus and its power is the encoding of the
digest with some 32-byte salt; the modulus is odd, or the exponent zero (R192). -/
def Obligations.VerifyopChecksSignature : Prop :=
  ∀ s : State, s.mem.wf = true → s.w.wf 128 = true →
    (val s.key.e.toList ≠ 0 → val s.key.n.toList % 2 = 1) →
    ∃ t : State, exec .verifyop s = .next t
      ∧ (t.fl.valid = true ↔
        be s.mem.sigbuf < val s.key.n.toList
          ∧ ∃ salt : List Byte, salt.length = 32
            ∧ be (pssEncode s.mem.digest salt 4095)
              = be s.mem.sigbuf ^ val s.key.e.toList % val s.key.n.toList)
      ∧ SameControl s t ∧ t.mem.digest = s.mem.digest ∧ t.mem.salt = s.mem.salt ∧ t.mem.sigbuf = s.mem.sigbuf
      ∧ t.fl.bw = s.fl.bw

/-- R287: for a key whose exponents invert each other and whose modulus has bit 4095 set, VERIFYOP accepts what SIGNOP
produced, for every digest and salt. -/
def Obligations.VerifyopAcceptsSignature : Prop :=
  ∀ s : State, s.mem.wf = true → s.w.wf 128 = true → val s.key.n.toList % 2 = 1 → 2 ^ 4095 ≤ val s.key.n.toList →
    val s.key.d.toList ≠ 0 →
    (∀ m, m < val s.key.n.toList →
      (m ^ val s.key.d.toList % val s.key.n.toList) ^ val s.key.e.toList % val s.key.n.toList = m) →
    ∃ t u : State, exec .signop s = .next t ∧ exec .verifyop t = .next u ∧ u.fl.valid = true

/-- R191, R338 in the service and the commands: with an even `KEY_N` and exponents that are not zero, each of SIGNOP,
VERIFYOP (of a signature in range), SIGN and VERIFY halts the engine with the code of UnsupportedModulus, and no
response byte has been sent. -/
def Obligations.EvenKeyModulusHaltsEngine : Prop :=
  ∀ (s : State), s.mem.wf = true → s.w.wf 128 = true → val s.key.n.toList % 2 = 0 →
    (val s.key.d.toList ≠ 0 →
      (∃ t, exec .signop s = .next t ∧ t.halt = true ∧ t.cause = 0x13 ∧ t.seq = .diag ∧ t.txq = s.txq)
      ∧ ∀ dg : List Byte, dg.length = 32 →
        ∃ t, exec (.sign dg) s = .next t ∧ t.halt = true ∧ t.cause = 0x13 ∧ t.seq = .diag ∧ t.txq = s.txq)
    ∧ (val s.key.e.toList ≠ 0 →
      (be s.mem.sigbuf < val s.key.n.toList →
        ∃ t, exec .verifyop s = .next t ∧ t.halt = true ∧ t.cause = 0x13 ∧ t.seq = .diag ∧ t.txq = s.txq)
      ∧ ∀ dg sg : List Byte, dg.length = 32 → sg.length = 512 → be sg < val s.key.n.toList →
        ∃ t, exec (.verify dg sg) s = .next t ∧ t.halt = true ∧ t.cause = 0x13 ∧ t.seq = .diag ∧ t.txq = s.txq)

/-! The transport port (`47_commands.md` R300 to R302). -/

/-- R300: RDBYTE takes the oldest byte; with `RXQ` empty it waits and changes no state of the engine (that it waits as the
first pending issue is the model's form, logs 10 and 34). Where the byte goes is an operand of the model (log 10). -/
def Obligations.RdbyteTakesOldestByte : Prop :=
  ∀ (buf : Buf) (i : Nat) (s : State), s.fits ⟨buf, i, 1⟩ = true →
    hasSelect (.rdbyte buf i) 0x70
      ∧ (∀ b rest, s.rxq = b :: rest →
        ∃ t, exec (.rdbyte buf i) s = .next t ∧ t = { s with rxq := rest, mem := t.mem }
          ∧ t.mem.byte buf i = some b ∧ SameBytesOutside s t ⟨buf, i, 1⟩)
      ∧ (s.rxq = [] → exec (.rdbyte buf i) s = .next { s with uq := ⟨0x70, [.buf buf, .nat i]⟩ :: s.uq })

/-- R301: RDBUF stores the bytes in arrival order, index 0 first. That one step takes every byte that has arrived, and that
the operation then stays the first pending issue for the rest of the buffer, is the model's choice (log 34, DESIGN CHOICE;
issues: log 10). -/
def Obligations.RdbufFillsBuffer : Prop :=
  ∀ (d : Slice) (s : State), s.fits d = true →
    hasSelect (.rdbuf d) 0x71
      ∧ ∃ t, exec (.rdbuf d) s = .next t
        ∧ (∀ j, j < d.len → j < s.rxq.length → t.mem.byte d.buf (d.off + j) = s.rxq[j]?)
        ∧ SameBytesOutside s t ⟨d.buf, d.off, min d.len s.rxq.length⟩
        ∧ t = { s with rxq := s.rxq.drop d.len, mem := t.mem, uq := t.uq }
        ∧ (d.len ≤ s.rxq.length → t.uq = s.uq)
        ∧ (s.rxq.length < d.len →
          t.uq = ⟨0x71, [.slice ⟨d.buf, d.off + s.rxq.length, d.len - s.rxq.length⟩]⟩ :: s.uq)

/-- R302: WRBYTE appends its byte to `TXQ` and always completes. -/
def Obligations.WrbyteAppendsByte : Prop :=
  ∀ (src : BSrc) (s : State) (b : Byte), s.bytes src = some [b] →
    hasSelect (.wrbyte src) 0x72 ∧ exec (.wrbyte src) s = .next { s with txq := s.txq ++ [b] }

/-! The commands (`47_commands.md` R307 to R311). -/

/-- R307 up to its response: SIGN stores the digest, draws a salt (a free value, log 7), computes the signature of
R281 (with a zero exponent the value 1, R192) and begins to send it. -/
def Obligations.SignCommandComputesResponse : Prop :=
  ∀ (dg : List Byte) (s : State), dg.length = 32 → s.mem.wf = true → s.w.wf 128 = true →
    (val s.key.d.toList ≠ 0 → val s.key.n.toList % 2 = 1) →
    ∃ (t : State) (salt : List Byte), exec (.sign dg) s = .next t
      ∧ t.seq = .txp .sign 0 ∧ t.mem.sigbuf.length = 512
      ∧ salt.length = 32 ∧ (∀ b, s.par.saltSource = some b → salt = b.toList)
      ∧ (val s.key.d.toList ≠ 0 →
        be t.mem.sigbuf = be (pssEncode dg salt 4095) ^ val s.key.d.toList % val s.key.n.toList)
      ∧ (val s.key.d.toList = 0 → be t.mem.sigbuf = 1)
      ∧ SameControl s { t with seq := s.seq } ∧ t.mem.digest = dg ∧ t.mem.salt = salt
      ∧ t.fl.bw = s.fl.bw ∧ t.fl.valid = s.fl.valid

/-- R308 up to its response: VERIFY answers `0x01` exactly for a consistent signature, and `0x00` otherwise. -/
def Obligations.VerifyCommandComputesResponse : Prop :=
  ∀ (dg sg : List Byte) (s : State), dg.length = 32 → sg.length = 512 → s.mem.wf = true →
    s.w.wf 128 = true → (val s.key.e.toList ≠ 0 → val s.key.n.toList % 2 = 1) →
    ∃ t : State, exec (.verify dg sg) s = .next t
      ∧ t.seq = .txp .verify 0
      ∧ ((t.response .verify = [0x01]
          ∧ be sg < val s.key.n.toList
          ∧ ∃ salt : List Byte, salt.length = 32
            ∧ be (pssEncode dg salt 4095) = be sg ^ val s.key.e.toList % val s.key.n.toList)
        ∨ (t.response .verify = [0x00]
          ∧ ¬(be sg < val s.key.n.toList
            ∧ ∃ salt : List Byte, salt.length = 32
              ∧ be (pssEncode dg salt 4095) = be sg ^ val s.key.e.toList % val s.key.n.toList)))
      ∧ SameControl s { t with seq := s.seq } ∧ t.mem.digest = dg ∧ t.mem.sigbuf = sg ∧ t.mem.salt = s.mem.salt
      ∧ t.fl.bw = s.fl.bw

/-- R309, R310: the stubs change nothing but the sequencer, which goes on to send `STUB_RESPONSE`, or stays in IDLE
where that is empty. That working state stands where the command so ends, which R38 would make undefined, is the model's
choice (log 33, DESIGN CHOICE). -/
def Obligations.StubCommandsSendStubResponse : Prop :=
  ∀ s : State,
    (s.par.stubResponse = [] →
      exec .getowner s = .next { s with seq := .idle } ∧ exec .getaddress s = .next { s with seq := .idle })
    ∧ (s.par.stubResponse ≠ [] →
      exec .getowner s = .next { s with seq := .txp .getowner 0 }
        ∧ exec .getaddress s = .next { s with seq := .txp .getaddress 0 })

/-- R311: each ignored opcode, as an instruction, changes nothing at all; and an opcode byte from `0x04` on is consumed
by one step of IDLE that does nothing else. -/
def Obligations.IgnoredOpcodesDoNothing : Prop :=
  (∀ s : State,
    (∀ x, exec (.ignored_04_07 x) s = .next s) ∧ (∀ x, exec (.ignored_08_0f x) s = .next s)
      ∧ (∀ x, exec (.ignored_10_1f x) s = .next s) ∧ (∀ x, exec (.ignored_20_3f x) s = .next s)
      ∧ (∀ x, exec (.ignored_40_7f x) s = .next s) ∧ ∀ x, exec (.ignored_80_ff x) s = .next s)
  ∧ ∀ (s s0 : State) (b : Byte) (rest : List Byte), s.engineTurn s0 → s0.seq = .idle → s0.uq = [] →
    s0.rxq = b :: rest → 4 ≤ b.toNat → step s = .next { s0 with rxq := rest }

/-! The sequencer (`10_state.md` R36, `47_commands.md` R305, R306). -/

/-- A step runs the decoded instruction: a pending issue in IDLE (log 10), the command in EXEC from its opcode and the
payload in the buffers, an opcode byte that names no command. -/
def Obligations.StepRunsDecodedInstruction : Prop :=
  ∀ s s0 : State, s.engineTurn s0 →
    (∀ u us i, s0.seq = .idle → s0.uq = u :: us → decode (.issue u) = .ok i → step s = exec i { s0 with uq := us })
    ∧ (∀ op i, s0.seq = .exec op → decode (.stream (op.opcode :: s0.payload op)) = .ok i → step s = exec i s0)
    ∧ ∀ b rest i, s0.seq = .idle → s0.uq = [] → s0.rxq = b :: rest → commandOf b = none →
      decode (.stream [b]) = .ok i → step s = exec i { s0 with rxq := rest }

/-- R36, R94, R95, R305: an opcode byte of a named command enters it; payload byte `k` goes to `DIGEST[k]` or to
`SIGBUF[k-32]`; after the last one the command runs; with `RXQ` empty the engine waits. -/
def Obligations.PayloadBytesAreStoredInOrder : Prop :=
  ∀ s s0 : State, s.engineTurn s0 →
    (∀ b rest op, s0.seq = .idle → s0.uq = [] → s0.rxq = b :: rest → commandOf b = some op →
      step s = .next { s0 with rxq := rest, seq := if op.payloadLen = 0 then .exec op else .rxp op 0 })
    ∧ (∀ op k b rest, s0.seq = .rxp op k → s0.rxq = b :: rest → s0.mem.wf = true → k < op.payloadLen →
      ∃ t, step s = .next t
        ∧ t = { s0 with
          rxq := rest, mem := t.mem, seq := if k + 1 < op.payloadLen then .rxp op (k + 1) else .exec op }
        ∧ (k < 32 → t.mem.byte .digest k = some b ∧ SameBytesOutside s0 t ⟨.digest, k, 1⟩)
        ∧ (32 ≤ k → t.mem.byte .sigbuf (k - 32) = some b ∧ SameBytesOutside s0 t ⟨.sigbuf, k - 32, 1⟩))
    ∧ (∀ op k, s0.seq = .rxp op k → s0.rxq = [] → step s = .next s0)
    ∧ (s0.seq = .idle → s0.uq = [] → s0.rxq = [] → step s = .next s0)

/-- R36, R38, R96: TXP sends byte `k` of the response; after the last byte of Sign or Verify the engine is in IDLE and
every working register, buffer, counter and flag is a free value (log 4). That after the last byte of a stub all of it
stands, as R309 says and R38 does not, is the model's choice (log 33, DESIGN CHOICE). -/
def Obligations.ResponseBytesAreSentInOrder : Prop :=
  ∀ (s s0 : State) (op : Cmd) (k : Nat) (b : Byte), s.engineTurn s0 → s0.seq = .txp op k →
    (s0.response op)[k]? = some b →
    (k + 1 < (s0.response op).length →
      step s = .next { s0 with txq := s0.txq ++ [b], seq := .txp op (k + 1) })
    ∧ (k + 1 = (s0.response op).length → op = .sign ∨ op = .verify →
      step s = .next { ({ s0 with txq := s0.txq ++ [b] } : State).forget with seq := .idle })
    ∧ (k + 1 = (s0.response op).length → op = .getowner ∨ op = .getaddress →
      step s = .next { s0 with txq := s0.txq ++ [b], seq := .idle })

/-- R335: TXE sends exactly `STATUS_E`, clears `ERR` and returns to IDLE, keeping keys and parameters; R338: DIAG sends
`FATAL_DIAG` and halts. That DIAG is one step is the model's choice (log 14). -/
def Obligations.ErrorAndDiagnosticAreSent : Prop :=
  ∀ s s0 : State, s.engineTurn s0 →
    (s0.seq = .txe → ∃ t, step s = .next t ∧ t.txq = s0.txq ++ [0x45] ∧ t.err = false ∧ t.seq = .idle
      ∧ t.halt = s0.halt ∧ t.key = s0.key ∧ t.par = s0.par ∧ t.rxq = s0.rxq)
    ∧ (s0.seq = .diag → step s = .next { s0 with txq := s0.txq ++ s0.par.fatalDiag, seq := .halted })

/-- R339: from HALTED every step but reset changes nothing but the queues: no byte is read and none is sent (HOST may
still append to `RXQ` and take from `TXQ`). Everything else, the pending issues of the model included, is as it was; the
list of turns is the model's own (log 13), and a step of ENGINE in HALTED that changes nothing is log 15. -/
def Obligations.HaltedEndsOnlyByReset : Prop :=
  ∀ s t : State, s.seq = .halted → s.halt = true → s.turns.head? ≠ some .reset → step s = .next t →
    t = { s with turns := t.turns, rxq := t.rxq, txq := t.txq }
      ∧ (t.rxq = s.rxq ∨ ∃ b, t.rxq = s.rxq ++ [b]) ∧ (t.txq = s.txq ∨ t.txq = s.txq.drop 1)

/-- R306, R74, R98: a step of ENGINE with no unit operation pending takes at most one byte from `RXQ`, the oldest, and
only in IDLE or RXP; it never takes a byte back from `TXQ`; in EXEC it sends nothing. -/
def Obligations.EngineUsesQueuesInOrder : Prop :=
  ∀ s s0 t : State, s.engineTurn s0 → s0.uq = [] → step s = .next t →
    (t.rxq = s0.rxq ∨ ((s0.seq = .idle ∨ ∃ op k, s0.seq = .rxp op k) ∧ t.rxq = s0.rxq.drop 1))
      ∧ (∃ sent, t.txq = s0.txq ++ sent)
      ∧ (∀ op, s0.seq = .exec op → t.rxq = s0.rxq ∧ t.txq = s0.txq)

/-! The other agents (`10_state.md` R20, R33; `60_exceptions.md` R333, R338; `70_reset_and_hazards.md` R370). -/

/-- R33: HOST appends to `RXQ` and removes the oldest byte of `TXQ`, and does nothing else. A finite `RXQ_DEPTH` that
is used up refuses the run (D26, log 24). That a take from an empty `TXQ` changes nothing is the model's choice (log 28).
The turns are the model's own (log 13). -/
def Obligations.HostMovesOnlyTheQueues : Prop :=
  ∀ (s : State) (ts : List Turn),
    (∀ b, s.turns = .hostSend b :: ts → (∀ d, s.par.rxqDepth = some d → s.rxq.length < d) →
      step s = .next { s with turns := ts, rxq := s.rxq ++ [b] })
    ∧ (∀ b d, s.turns = .hostSend b :: ts → s.par.rxqDepth = some d → d ≤ s.rxq.length →
      step s = .refused .rxqFull)
    ∧ (∀ b rest, s.turns = .hostTake :: ts → s.txq = b :: rest → step s = .next { s with turns := ts, txq := rest })
    ∧ (s.turns = .hostTake :: ts → s.txq = [] → step s = .next { s with turns := ts })

/-- R331, R333, R338: a platform fatal sets `HALT`, the code and DIAG from any state that is not halted, between two
steps and inside one; inside EXEC of Sign or Verify the working storage is a free value afterwards and the request
stands in `DIGEST` and, of a Verify, in `SIGBUF` (log 14). That the pending issues are dropped is log 26 (DEDUCED). R370:
reset gives the values of R39 from every state. The turns, and that reset keeps those that follow, are the model's own (logs
13, 37). -/
def Obligations.PlatformFatalAndResetTakeEffect : Prop :=
  ∀ (s : State) (ts : List Turn),
    (∀ c, s.turns = .platformFatal c :: ts → s.live →
      ∃ t, step s = .next t ∧ t.halt = true ∧ t.seq = .diag
        ∧ t.cause = (match c with
          | .allocationFailure => 0x10
          | .fatalTrap => 0x11
          | .panic => 0x12)
        ∧ t = { s with turns := ts, halt := true, seq := .diag, cause := t.cause, uq := [] })
    ∧ (∀ c, s.turns = .platformFatalInside c :: ts → s.live →
      ∃ t, step s = .next t ∧ t.halt = true ∧ t.seq = .diag
        ∧ t.cause = (match c with
          | .allocationFailure => 0x10
          | .fatalTrap => 0x11
          | .panic => 0x12)
        ∧ t.key = s.key ∧ t.par = s.par ∧ t.err = s.err ∧ t.rxq = s.rxq ∧ t.txq = s.txq ∧ t.uq = [] ∧ t.turns = ts
        ∧ t.mem.digest = s.mem.digest ∧ (s.seq ≠ .exec .sign → t.mem.sigbuf = s.mem.sigbuf)
        ∧ (s.seq ≠ .exec .sign → s.seq ≠ .exec .verify →
          t = { s with turns := ts, halt := true, seq := .diag, cause := t.cause, uq := [] }))
    ∧ (s.turns = .reset :: ts →
      ∃ t, step s = .next t ∧ t.key = s.key ∧ t.par = s.par ∧ t.seq = .idle ∧ t.err = false ∧ t.halt = false
        ∧ t.rxq = [] ∧ t.txq = [] ∧ t.uq = [] ∧ t.turns = ts)

/-! The whole machine. -/

/-- R22: no step of any agent writes a key constant or a parameter. -/
def Obligations.KeysAndParametersNeverChange : Prop :=
  ∀ s t : State, step s = .next t → t.key = s.key ∧ t.par = s.par

/-- R39: the state right after reset, in the values the spec gives; and it satisfies the invariant. -/
def Obligations.ResetStateIsAsGiven : Prop :=
  State.reset.key = Config.keys ∧ State.reset.err = false ∧ State.reset.halt = false ∧ State.reset.seq = .idle
    ∧ State.reset.rxq = [] ∧ State.reset.txq = [] ∧ State.reset.Inv

/-- The invariant is kept by every step: registers, buffers and SHA unit keep their sizes (R23, R30, R31; log 1), `SEQ`
names a byte that exists (R36, R96), `HALT` is 1 exactly in DIAG and HALTED (R338, R339), and TXE is entered with `ERR`
set (R334). -/
def Obligations.StepKeepsInvariant : Prop :=
  ∀ s t : State, s.Inv → step s = .next t → t.Inv

/-- Decode and encode agree, both ways: a well-formed instruction is what its image decodes to, and an image that
decodes is the image of what it decodes to. The operand fields of unit operations are the model's (log 10). -/
def Obligations.DecodeAndEncodeAgree : Prop :=
  (∀ i : Instr, i.wf = true → decode (encode i) = .ok i)
    ∧ ∀ (im : Image) (i : Instr), decode im = .ok i → encode i = im

/-- R93, R97: with enough bytes after it, every opcode byte is a command; `0x00` takes 32 more bytes, `0x01` takes 544
and every other value none. -/
def Obligations.EveryOpcodeByteDecodes : Prop :=
  ∀ (b : Byte) (p : List Byte), 544 ≤ p.length →
    ∃ i, decodeStream (b :: p)
      = .ok (i, p.drop (if b = 0x00 then 32 else if b = 0x01 then 544 else 0))

/-- R92, R99: words written out from the tables decode to the instruction they stand for. -/
def Obligations.TableWordsDecode : Prop :=
  decode (.stream [0b00000010]) = .ok .getowner
    ∧ decode (.stream [0b00000011]) = .ok .getaddress
    ∧ decode (.stream [0b00000111]) = .ok (.ignored_04_07 0b11)
    ∧ decode (.stream [0b11111111]) = .ok (.ignored_80_ff 0b1111111)
    ∧ decode (.stream (0b00000000 :: zeros 32)) = .ok (.sign (zeros 32))
    ∧ decode (.issue ⟨0b00001000, [.nat 1, .vec (.reg .base)]⟩) = .ok (.iszerov 1 (.reg .base))
    ∧ decode (.issue ⟨0b01100001, []⟩) = .ok .signop
    ∧ decode (.issue ⟨0b01110010, [.bytes (.lit [0x45])]⟩) = .ok (.wrbyte (.lit [0x45]))
    ∧ decode (.issue ⟨0b01110011, []⟩) = .error (.unassignedSelect 0b01110011)

/-- R305 to R307, R96: a Sign on the byte stream. From IDLE with the opcode and 32 digest bytes in `RXQ`, 546 steps of
ENGINE later the engine is in IDLE again, has taken exactly those 33 bytes and has sent exactly the 512 bytes of the
signature of R281 for some 32-byte salt (of the value 1 where the exponent is zero, R192). The number 546 rests on the
step grain of log 14 (DESIGN CHOICE); the salt is a free value (log 7), and the empty list of turns, ENGINE moving alone, is
log 13's. -/
def Obligations.SignTransactionSendsSignature : Prop :=
  ∀ (s : State) (dg rest : List Byte), s.turns = [] → s.uq = [] → s.seq = .idle → s.mem.wf = true →
    s.w.wf 128 = true → s.rxq = 0x00 :: (dg ++ rest) → dg.length = 32 →
    (val s.key.d.toList ≠ 0 → val s.key.n.toList % 2 = 1) →
    ∃ (t : State) (salt sig : List Byte), Steps 546 s t
      ∧ t.seq = .idle ∧ t.rxq = rest ∧ t.txq = s.txq ++ sig ∧ sig.length = 512 ∧ salt.length = 32
      ∧ (val s.key.d.toList ≠ 0 →
        be sig = be (pssEncode dg salt 4095) ^ val s.key.d.toList % val s.key.n.toList)
      ∧ (val s.key.d.toList = 0 → be sig = 1)
      ∧ t.key = s.key ∧ t.err = s.err ∧ t.halt = s.halt ∧ t.mem.wf = true ∧ t.w.wf 128 = true

/-- R68: no unit operation that answers a next state, an exception included, changes the width of a word register
(log 1). -/
def Obligations.UnitOperationsResizeNothing : Prop :=
  ∀ (i : Instr) (c : BitVec 8) (s t : State), hasSelect i c → exec i s = .next t → SameWidths s t
end

