-- ==== Sys2Proof/Laws/Regs.lean ====
section
/-! SUPPORT. The word registers and the byte buffers: read after write, and that a write leaves the others alone. -/

namespace Sys2Proof.Machine

@[simp] theorem WRegs.get_put_self (w : WRegs) (r : VReg) (v : List Word) : (w.put r v).get r = v := by
  cases r <;> simp [WRegs.put, WRegs.get]

theorem WRegs.get_put_ne (w : WRegs) {r d : VReg} (v : List Word) (h : r ≠ d) : (w.put d v).get r = w.get r := by
  cases d <;> cases r <;> first
    | rfl
    | exact absurd rfl h
    | (rename_i k j
       have hk : ¬(k : Nat) = j := fun e => h (by rw [Fin.ext e])
       simp [WRegs.put, WRegs.get, hk])

@[simp] theorem WRegs.put_acc (w : WRegs) (r : VReg) (v : List Word) : (w.put r v).acc = w.acc := by cases r <;> rfl
@[simp] theorem WRegs.put_k0 (w : WRegs) (r : VReg) (v : List Word) : (w.put r v).k0 = w.k0 := by cases r <;> rfl
@[simp] theorem WRegs.put_cw (w : WRegs) (r : VReg) (v : List Word) : (w.put r v).cw = w.cw := by cases r <;> rfl
@[simp] theorem WRegs.put_t (w : WRegs) (r : VReg) (v : List Word) : (w.put r v).t = w.t := by cases r <;> rfl

theorem WRegs.get_scratch (w : WRegs) (a : List Word) (k c t : Word) (r : VReg) :
    ({ w with acc := a, k0 := k, cw := c, t := t } : WRegs).get r = w.get r := by cases r <;> rfl

/-! Register widths. -/

theorem WRegs.wf_iff (n : Nat) (w : WRegs) : w.wf n = true ↔ (∀ r, (w.get r).length = n) ∧ w.acc.length = 2 * n := by
  simp only [WRegs.wf, Bool.and_eq_true, beq_iff_eq, List.all_eq_true, Vector.mem_toList_iff]
  constructor
  · rintro ⟨⟨⟨⟨⟨⟨⟨h1, h2⟩, h3⟩, h4⟩, h5⟩, h6⟩, h7⟩, h8⟩
    refine ⟨fun r => ?_, h8⟩
    cases r <;> simp only [WRegs.get, h1, h2, h3, h5, h6, h7]
    exact h4 _ (Vector.getElem_mem _)
  · rintro ⟨h, ha⟩
    refine ⟨⟨⟨⟨⟨⟨⟨h .base, h .rr⟩, h .one⟩, fun v hv => ?_⟩, h .z⟩, h .zz⟩, h .res⟩, ha⟩
    obtain ⟨i, hi, rfl⟩ := Vector.mem_iff_getElem.1 hv
    exact h (.tbl ⟨i, hi⟩)

/-- Writing a vector of the register's own width keeps every width. -/
theorem WRegs.length_get_put (w : WRegs) (d r : VReg) (v : List Word) (h : v.length = (w.get d).length) :
    ((w.put d v).get r).length = (w.get r).length := by
  by_cases hr : r = d
  · subst hr; rw [WRegs.get_put_self, h]
  · rw [WRegs.get_put_ne _ _ hr]

theorem WRegs.wf_put {n : Nat} {w : WRegs} (d : VReg) {v : List Word} (hw : w.wf n = true) (h : v.length = n) :
    (w.put d v).wf n = true := by
  rw [WRegs.wf_iff] at *
  exact ⟨fun r => (WRegs.length_get_put w d r v (h.trans (hw.1 d).symm)).trans (hw.1 r), by simpa using hw.2⟩

/-! The byte buffers. -/

@[simp] theorem Memory.get_put_self (m : Memory) (b : Buf) (bs : List Byte) : (m.put b bs).get b = bs := by
  cases b <;> rfl

theorem Memory.get_put_ne (m : Memory) {b c : Buf} (bs : List Byte) (h : c ≠ b) : (m.put b bs).get c = m.get c := by
  cases b <;> cases c <;> first
    | rfl
    | exact absurd rfl h

theorem splice_nil {α : Type} (xs : List α) (off : Nat) : splice xs off [] = xs := by simp [splice]

theorem splice_length {α : Type} (xs ys : List α) (off : Nat) (h : ys.length = 0 ∨ off + ys.length ≤ xs.length) :
    (splice xs off ys).length = xs.length := by
  rcases h with h | h
  · rw [List.length_eq_zero_iff.1 h, splice_nil]
  simp only [splice, List.length_append, List.length_take, List.length_drop]
  omega

theorem splice_outside {α : Type} (xs ys : List α) (off i : Nat) (h : ys.length = 0 ∨ off + ys.length ≤ xs.length)
    (hi : i < off ∨ off + ys.length ≤ i) : (splice xs off ys)[i]? = xs[i]? := by
  rcases h with h | h
  · rw [List.length_eq_zero_iff.1 h, splice_nil]
  unfold splice
  rcases hi with hi | hi
  · rw [List.getElem?_append_left (by simp; omega), List.getElem?_append_left (by simp; omega),
      List.getElem?_take, if_pos hi]
  · rw [List.getElem?_append_right (by simp; omega), List.getElem?_drop]
    congr 1
    simp only [List.length_append, List.length_take]
    omega

theorem splice_inside {α : Type} (xs ys : List α) (off i : Nat) (h : off + ys.length ≤ xs.length)
    (hi : i < ys.length) : (splice xs off ys)[off + i]? = ys[i]? := by
  unfold splice
  rw [List.getElem?_append_left (by simp; omega), List.getElem?_append_right (by simp)]
  congr 1
  simp only [List.length_take]
  omega

theorem window_splice {α : Type} (xs ys : List α) (off : Nat) (h : off + ys.length ≤ xs.length) :
    window (splice xs off ys) off ys.length = ys := by
  unfold window splice
  have : (xs.take off).length = off := by simp; omega
  rw [List.append_assoc]
  conv_lhs => rw [← this]
  rw [List.drop_left' (by simp [this]), List.take_left]

theorem window_length {α : Type} (xs : List α) (off n : Nat) (h : off + n ≤ xs.length) :
    (window xs off n).length = n := by
  simp only [window, List.length_take, List.length_drop]
  omega

theorem window_getElem? {α : Type} (xs : List α) (off n i : Nat) (h : i < n) :
    (window xs off n)[i]? = xs[off + i]? := by
  simp [window, h]

/-- Reading a byte after a write: the written bytes, and everything else as before. -/
theorem Memory.byte_write_inside (m : Memory) (b : Buf) (off i : Nat) (bs : List Byte)
    (h : off + bs.length ≤ (m.get b).length) (hi : i < bs.length) : (m.write b off bs).byte b (off + i) = bs[i]? := by
  simp only [Memory.byte, Memory.write, Memory.get_put_self]
  exact splice_inside _ _ _ _ h hi

theorem Memory.byte_write_outside (m : Memory) (b c : Buf) (off i : Nat) (bs : List Byte)
    (h : bs.length = 0 ∨ off + bs.length ≤ (m.get b).length) (hi : ¬(c = b ∧ off ≤ i ∧ i < off + bs.length)) :
    (m.write b off bs).byte c i = m.byte c i := by
  simp only [Memory.byte, Memory.write]
  by_cases hc : c = b
  · subst hc
    rw [Memory.get_put_self]
    refine splice_outside _ _ _ _ h ?_
    by_contra hn
    exact hi ⟨rfl, by omega, by omega⟩
  · rw [Memory.get_put_ne _ _ hc]

theorem Memory.wf_iff (m : Memory) : m.wf = true ↔ ∀ b, (m.get b).length = b.size := by
  constructor
  · intro h b
    simp only [Memory.wf, Bool.and_eq_true, beq_iff_eq] at h
    cases b <;> simp [Memory.get, Buf.size, h]
  · intro h
    simp only [Memory.wf, Bool.and_eq_true, beq_iff_eq]
    exact ⟨⟨⟨⟨⟨h .digest, h .salt⟩, h .em⟩, h .sigbuf⟩, h .hout⟩, h .hblk⟩

theorem Memory.wf_put (m : Memory) (b : Buf) (bs : List Byte) (h : m.wf = true) (hl : bs.length = b.size) :
    (m.put b bs).wf = true := by
  rw [Memory.wf_iff] at *
  intro c
  by_cases hc : c = b
  · subst hc; rw [Memory.get_put_self]; exact hl
  · rw [Memory.get_put_ne _ _ hc]; exact h c

/-- Writing inside a buffer keeps every buffer's size. -/
theorem Memory.wf_write (m : Memory) (b : Buf) (off : Nat) (bs : List Byte) (h : m.wf = true)
    (hl : bs.length = 0 ∨ off + bs.length ≤ b.size) : (m.write b off bs).wf = true := by
  have hb := (Memory.wf_iff m).1 h b
  exact Memory.wf_put m b _ h (by rw [splice_length _ _ _ (by omega), hb])

theorem freeBytes_length (t : Nat) (p : Place) (n : Nat) : (freeBytes t p n).length = n := by simp [freeBytes]

theorem freeVec_length (t : Nat) (p : Place) (n : Nat) : (freeVec t p n).length = n := by simp [freeVec]

theorem Memory.wf_free (t : Nat) : (Memory.free t).wf = true := by
  simp [Memory.wf, Memory.free, freeBytes_length]

theorem Memory.wf_reset : Memory.reset.wf = true := by decide +kernel

theorem ShaRegs.wf_free (t : Nat) : (ShaRegs.free t).wf = true := by
  simp [ShaRegs.wf, ShaRegs.free, freeVec_length]

theorem ShaRegs.wf_reset : ShaRegs.reset.wf = true := by decide +kernel

theorem WRegs.wf_free (t : Nat) : (WRegs.free t).wf 128 = true := by
  rw [WRegs.wf_iff]
  refine ⟨fun r => ?_, freeVec_length _ _ _⟩
  cases r <;> simp [WRegs.get, WRegs.free, freeVec_length]

theorem WRegs.wf_reset : WRegs.reset.wf 128 = true := by
  rw [WRegs.wf_iff]
  refine ⟨fun r => ?_, List.length_replicate⟩
  cases r with
  | tbl k => exact (congrArg List.length (Vector.getElem_replicate k.isLt)).trans List.length_replicate
  | _ => exact List.length_replicate

end Sys2Proof.Machine
end

