-- ==== Sys2Proof/Laws/Vectors.lean ====
section
/-! SUPPORT. What the word and vector operations compute, as integers (`40_fixed_width_arith.md`). -/

namespace Sys2Proof

@[simp] theorem val_nil : val [] = 0 := rfl

@[simp] theorem val_cons (w : Word) (ws : List Word) : val (w :: ws) = w.toNat + 2 ^ 32 * val ws := rfl

theorem radix_succ (n : Nat) : radix (n + 1) = 2 ^ 32 * radix n := by
  unfold radix
  rw [← pow_add]
  congr 1
  omega

@[simp] theorem radix_zero : radix 0 = 1 := rfl

theorem radix_pos (n : Nat) : 0 < radix n := Nat.two_pow_pos _

theorem radix_add (m n : Nat) : radix (m + n) = radix m * radix n := by
  unfold radix
  rw [← pow_add]
  congr 1
  omega

theorem val_lt_radix (ws : List Word) : val ws < radix ws.length := by
  induction ws with
  | nil => simp
  | cons w ws ih =>
    have h := w.isLt
    rw [val_cons, List.length_cons, radix_succ]
    have : val ws + 1 ≤ radix ws.length := ih
    have := Nat.mul_le_mul_left (2 ^ 32) this
    omega

theorem val_append (xs ys : List Word) : val (xs ++ ys) = val xs + radix xs.length * val ys := by
  induction xs with
  | nil => simp
  | cons x xs ih => simp only [List.cons_append, val_cons, ih, List.length_cons, radix_succ]; ring

theorem val_inj {xs ys : List Word} (hl : xs.length = ys.length) (h : val xs = val ys) : xs = ys := by
  induction xs generalizing ys with
  | nil => cases ys with
    | nil => rfl
    | cons _ _ => simp at hl
  | cons x xs ih => cases ys with
    | nil => simp at hl
    | cons y ys =>
      have hx := x.isLt
      have hy := y.isLt
      simp only [val_cons] at h
      have h1 : x.toNat = y.toNat := by omega
      have h2 : val xs = val ys := by omega
      rw [BitVec.eq_of_toNat_eq h1, ih (by simpa using hl) h2]

@[simp] theorem length_zeroVec (n : Nat) : (zeroVec n).length = n := List.length_replicate

@[simp] theorem length_oneVec (n : Nat) : (oneVec n).length = n := by cases n <;> simp [oneVec]

@[simp] theorem val_zeroVec (n : Nat) : val (zeroVec n) = 0 := by
  induction n with
  | zero => rfl
  | succ n ih => simp [zeroVec, List.replicate_succ]; exact ih

theorem val_oneVec {n : Nat} (h : 1 ≤ n) : val (oneVec n) = 1 := by
  cases n with
  | zero => omega
  | succ n => simp [oneVec]

namespace Machine

theorem addw_law (a b : Word) (c : Bool) :
    a.toNat + b.toNat + c.toNat = (addw a b c).1.toNat + (addw a b c).2.toNat * 2 ^ 32 := by
  have ha := a.isLt
  have hb := b.isLt
  have hc : c.toNat ≤ 1 := Bool.toNat_le c
  simp only [addw, BitVec.toNat_ofNat]
  by_cases h : 2 ^ 32 ≤ a.toNat + b.toNat + c.toNat
  · rw [decide_eq_true h, Bool.toNat_true]; omega
  · rw [decide_eq_false h, Bool.toNat_false]; omega

theorem subw_law (a b : Word) (c : Bool) :
    a.toNat + (subw a b c).2.toNat * 2 ^ 32 = (subw a b c).1.toNat + b.toNat + c.toNat := by
  have ha := a.isLt
  have hb := b.isLt
  have hc : c.toNat ≤ 1 := Bool.toNat_le c
  simp only [subw, BitVec.toNat_ofInt]
  by_cases h : (a.toNat : Int) - b.toNat - c.toNat < 0
  · rw [decide_eq_true h, Bool.toNat_true]; omega
  · rw [decide_eq_false h, Bool.toNat_false]; omega

theorem macw_law (a b z c : Word) :
    a.toNat * b.toNat + z.toNat + c.toNat = (macw a b z c).1.toNat + (macw a b z c).2.toNat * 2 ^ 32 := by
  have ha := a.isLt
  have hb := b.isLt
  have hz := z.isLt
  have hc := c.isLt
  have : a.toNat * b.toNat ≤ (2 ^ 32 - 1) * (2 ^ 32 - 1) := Nat.mul_le_mul (by omega) (by omega)
  simp only [macw, BitVec.toNat_ofNat]
  generalize a.toNat * b.toNat = p at *
  omega

theorem addv_length (xs ys : List Word) (c : Bool) (h : xs.length = ys.length) :
    (addv xs ys c).1.length = xs.length := by
  induction xs generalizing ys c with
  | nil => simp [addv]
  | cons x xs ih => cases ys with
    | nil => simp at h
    | cons y ys => simp [addv, ih ys _ (by simpa using h)]

theorem addv_law (xs ys : List Word) (c : Bool) (h : xs.length = ys.length) :
    val xs + val ys + c.toNat = val (addv xs ys c).1 + (addv xs ys c).2.toNat * radix xs.length := by
  induction xs generalizing ys c with
  | nil => cases ys with
    | nil => simp [addv]
    | cons y ys => simp at h
  | cons x xs ih => cases ys with
    | nil => simp at h
    | cons y ys =>
      have h1 := addw_law x y c
      have h2 := ih ys (addw x y c).2 (by simpa using h)
      simp only [addv, val_cons, List.length_cons, radix_succ]
      generalize (addv xs ys (addw x y c).2).2.toNat = e at *
      have : e * (2 ^ 32 * radix xs.length) = 2 ^ 32 * (e * radix xs.length) := by ring
      rw [this]
      omega

theorem subv_length (xs ys : List Word) (c : Bool) (h : xs.length = ys.length) :
    (subv xs ys c).1.length = xs.length := by
  induction xs generalizing ys c with
  | nil => simp [subv]
  | cons x xs ih => cases ys with
    | nil => simp at h
    | cons y ys => simp [subv, ih ys _ (by simpa using h)]

theorem subv_law (xs ys : List Word) (c : Bool) (h : xs.length = ys.length) :
    val xs + (subv xs ys c).2.toNat * radix xs.length = val (subv xs ys c).1 + val ys + c.toNat := by
  induction xs generalizing ys c with
  | nil => cases ys with
    | nil => simp [subv]
    | cons y ys => simp at h
  | cons x xs ih => cases ys with
    | nil => simp at h
    | cons y ys =>
      have h1 := subw_law x y c
      have h2 := ih ys (subw x y c).2 (by simpa using h)
      simp only [subv, val_cons, List.length_cons, radix_succ]
      generalize (subv xs ys (subw x y c).2).2.toNat = e at *
      have : e * (2 ^ 32 * radix xs.length) = 2 ^ 32 * (e * radix xs.length) := by ring
      rw [this]
      omega

theorem macv_length (zs xs : List Word) (y c : Word) (h : zs.length = xs.length) :
    (macv zs xs y c).1.length = zs.length := by
  induction zs generalizing xs c with
  | nil => simp [macv]
  | cons z zs ih => cases xs with
    | nil => simp at h
    | cons x xs => simp [macv, ih xs _ (by simpa using h)]

theorem macv_law (zs xs : List Word) (y c : Word) (h : zs.length = xs.length) :
    val zs + val xs * y.toNat + c.toNat
      = val (macv zs xs y c).1 + (macv zs xs y c).2.toNat * radix zs.length := by
  induction zs generalizing xs c with
  | nil => cases xs with
    | nil => simp [macv]
    | cons x xs => simp at h
  | cons z zs ih => cases xs with
    | nil => simp at h
    | cons x xs =>
      have h1 := macw_law x y z c
      have h2 := ih xs (macw x y z c).2 (by simpa using h)
      simp only [macv, val_cons, List.length_cons, radix_succ]
      generalize (macv zs xs y (macw x y z c).2).2.toNat = e at *
      have e1 : e * (2 ^ 32 * radix zs.length) = 2 ^ 32 * (e * radix zs.length) := by ring
      have e2 : (x.toNat + 2 ^ 32 * val xs) * y.toNat = x.toNat * y.toNat + 2 ^ 32 * (val xs * y.toNat) := by ring
      rw [e1, e2]
      omega

theorem cmpv_law (xs ys : List Word) (h : xs.length = ys.length) :
    cmpv xs ys = compare (val xs) (val ys) := by
  induction xs generalizing ys with
  | nil => cases ys with
    | nil => rfl
    | cons y ys => simp at h
  | cons x xs ih => cases ys with
    | nil => simp at h
    | cons y ys =>
      have hx := x.isLt
      have hy := y.isLt
      have h2 := ih ys (by simpa using h)
      simp only [cmpv, val_cons]
      rcases Nat.lt_trichotomy (val xs) (val ys) with hlt | heq | hgt
      · rw [h2, Nat.compare_eq_lt.2 hlt]
        exact (Nat.compare_eq_lt.2 (by omega)).symm
      · rw [h2, Nat.compare_eq_eq.2 heq]
        simp only [cmpw, BitVec.lt_def]
        split
        · exact (Nat.compare_eq_lt.2 (by omega)).symm
        · split
          · exact (Nat.compare_eq_gt.2 (by omega)).symm
          · exact (Nat.compare_eq_eq.2 (by omega)).symm
      · rw [h2, Nat.compare_eq_gt.2 hgt]
        exact (Nat.compare_eq_gt.2 (by omega)).symm

theorem cmpv_ne_lt (xs ys : List Word) (h : xs.length = ys.length) :
    (cmpv xs ys != .lt) = decide (val ys ≤ val xs) := by
  rw [cmpv_law xs ys h]
  rcases Nat.lt_trichotomy (val xs) (val ys) with hlt | heq | hgt
  · rw [Nat.compare_eq_lt.2 hlt, decide_eq_false (by omega)]; rfl
  · rw [Nat.compare_eq_eq.2 heq, decide_eq_true (by omega)]; rfl
  · rw [Nat.compare_eq_gt.2 hgt, decide_eq_true (by omega)]; rfl

theorem iszerov_iff (xs : List Word) : iszerov xs = true ↔ val xs = 0 := by
  induction xs with
  | nil => simp [iszerov]
  | cons x xs ih =>
    have : iszerov (x :: xs) = (x == 0 && iszerov xs) := rfl
    rw [this, Bool.and_eq_true, ih, val_cons, beq_iff_eq, ← BitVec.toNat_inj]
    simp

end Machine
end Sys2Proof
end

