-- ==== Sys2Proof/Laws/Bytes.lean ====
section
/-! SUPPORT. Byte strings: the decode and encode laws (`20_memory.md` R62, R63), and the lengths and bytes of SHA-256,
MGF1 and PSS values (`43_sha256.md`, `44_mgf1.md`, `45_pss.md`). -/

namespace Sys2Proof

@[simp] theorem be_nil : be [] = 0 := rfl

theorem be_cons (b : Byte) (bs : List Byte) : be (b :: bs) = b.toNat * 256 ^ bs.length + be bs := rfl

theorem be_append (a b : List Byte) : be (a ++ b) = be a * 256 ^ b.length + be b := by
  induction a with
  | nil => simp
  | cons x a ih => rw [List.cons_append, be_cons, be_cons, ih, List.length_append, pow_add]; ring

theorem be_lt (b : List Byte) : be b < 256 ^ b.length := by
  induction b with
  | nil => simp
  | cons x b ih =>
    have h := x.isLt
    rw [be_cons, List.length_cons, pow_succ]
    have := Nat.mul_le_mul_right (256 ^ b.length) (show x.toNat + 1 ≤ 256 by omega)
    rw [Nat.add_mul] at this
    omega

theorem be_inj {a b : List Byte} (hl : a.length = b.length) (h : be a = be b) : a = b := by
  induction a generalizing b with
  | nil => cases b with
    | nil => rfl
    | cons _ _ => simp at hl
  | cons x a ih => cases b with
    | nil => simp at hl
    | cons y b =>
      have hl' : a.length = b.length := by simpa using hl
      rw [be_cons, be_cons, hl'] at h
      have ha := be_lt a
      have hb := be_lt b
      rw [hl'] at ha
      have hp : 0 < 256 ^ b.length := by positivity
      have h1 : x.toNat = y.toNat := by
        have e1 : (x.toNat * 256 ^ b.length + be a) / 256 ^ b.length = x.toNat := by
          rw [Nat.mul_comm, Nat.mul_add_div hp, Nat.div_eq_of_lt ha, Nat.add_zero]
        have e2 : (y.toNat * 256 ^ b.length + be b) / 256 ^ b.length = y.toNat := by
          rw [Nat.mul_comm, Nat.mul_add_div hp, Nat.div_eq_of_lt hb, Nat.add_zero]
        rw [← e1, ← e2, h]
      rw [h1] at h
      rw [BitVec.eq_of_toNat_eq h1, ih hl' (by omega)]

@[simp] theorem zeros_length (k : Nat) : (zeros k).length = k := List.length_replicate

@[simp] theorem be_zeros (k : Nat) : be (zeros k) = 0 := by
  induction k with
  | zero => rfl
  | succ k ih =>
    have : zeros (k + 1) = 0 :: zeros k := rfl
    rw [this, be_cons, ih]
    simp

namespace Machine

@[simp] theorem wordBytes_length (w : Word) : (wordBytes w).length = 4 := rfl

theorem be_wordBytes (w : Word) : be (wordBytes w) = w.toNat := by
  have h := w.isLt
  simp only [wordBytes, be_cons, be_nil, List.length_cons, List.length_nil, BitVec.extractLsb'_toNat,
    Nat.shiftRight_eq_div_pow]
  norm_num
  omega

theorem wordOfBytes_toNat (a b c d : Byte) : (wordOfBytes a b c d).toNat = be [a, b, c, d] := by
  have ha := a.isLt
  have hb := b.isLt
  have hc := c.isLt
  have hd := d.isLt
  simp only [wordOfBytes, be_cons, be_nil, List.length_cons, List.length_nil, BitVec.toNat_ofNat]
  norm_num
  omega

theorem radix_eq_pow (n : Nat) : radix n = 256 ^ (4 * n) := by
  unfold radix
  rw [show (256 : Nat) = 2 ^ 8 by norm_num, ← pow_mul]
  congr 1
  omega

/-- FROMBE (R62): the length and the value. -/
theorem fromBE_law (n : Nat) (bs : List Byte) (h : bs.length = 4 * n) :
    (fromBE bs).length = n ∧ val (fromBE bs) = be bs := by
  induction n generalizing bs with
  | zero =>
    have h0 : bs = [] := List.length_eq_zero_iff.1 h
    rw [h0]
    exact ⟨rfl, rfl⟩
  | succ n ih =>
    match bs, h with
    | a :: b :: c :: d :: rest, h =>
      have hr : rest.length = 4 * n := by simp only [List.length_cons] at h; omega
      obtain ⟨h1, h2⟩ := ih rest hr
      have e : fromBE (a :: b :: c :: d :: rest) = fromBE rest ++ [wordOfBytes a b c d] := by
        simp [fromBE, wordsOfBytes]
      rw [e]
      refine ⟨by simp [h1], ?_⟩
      rw [val_append, h1, h2, val_cons, val_nil, wordOfBytes_toNat, radix_eq_pow, ← hr,
        show a :: b :: c :: d :: rest = [a, b, c, d] ++ rest from rfl, be_append]
      ring
    | [], h => simp at h
    | [_], h => simp at h; omega
    | [_, _], h => simp at h; omega
    | [_, _, _], h => simp at h; omega

theorem toBE_cons (w : Word) (ws : List Word) : toBE (w :: ws) = toBE ws ++ wordBytes w := by simp [toBE]

/-- TOBE (R63): the length and the value. -/
theorem toBE_law (ws : List Word) : (toBE ws).length = 4 * ws.length ∧ be (toBE ws) = val ws := by
  induction ws with
  | nil => exact ⟨rfl, rfl⟩
  | cons w ws ih =>
    rw [toBE_cons]
    refine ⟨by rw [List.length_append, ih.1, wordBytes_length, List.length_cons]; omega, ?_⟩
    rw [be_append, ih.2, be_wordBytes, wordBytes_length, val_cons]
    ring

theorem flatMap_wordBytes_length (l : List Word) : (l.flatMap wordBytes).length = 4 * l.length := by
  induction l with
  | nil => rfl
  | cons w l ih => rw [List.flatMap_cons, List.length_append, ih, wordBytes_length, List.length_cons]; omega

/-! SHA-256. -/

@[simp] theorem ShaVars.toList_length (v : ShaVars) : v.toList.length = 8 := rfl

theorem shaCompress_length (hs : List Word) (blk : List Byte) (h : hs.length = 8) :
    (shaCompress hs blk).length = 8 := by simp [shaCompress, h]

theorem shaFold_length (l : List (List Byte)) (hs : List Word) (h : hs.length = 8) :
    (l.foldl shaCompress hs).length = 8 := by
  induction l generalizing hs with
  | nil => exact h
  | cons b l ih => exact ih _ (shaCompress_length hs b h)

theorem shaChain_length (msg : List Byte) : (shaChain msg).length = 8 := shaFold_length _ _ rfl

@[simp] theorem sha256_length (msg : List Byte) : (sha256 msg).length = 32 := by
  rw [sha256, flatMap_wordBytes_length, shaChain_length]

theorem shaPad_length (msg : List Byte) : (shaPad msg).length = 64 * ((msg.length + 72) / 64) := by
  simp only [shaPad, shaLen64, shaPadLen, List.length_append, List.length_cons, zeros_length, wordBytes_length]
  omega

theorem shaBlocks_length (n : Nat) (bs : List Byte) : (shaBlocks n bs).length = n := by
  induction n generalizing bs with
  | zero => rfl
  | succ n ih => simp [shaBlocks, ih]

theorem shaBlocks_mem (n : Nat) (bs : List Byte) (h : bs.length = 64 * n) :
    ∀ b ∈ shaBlocks n bs, b.length = 64 := by
  induction n generalizing bs with
  | zero => simp [shaBlocks]
  | succ n ih =>
    intro b hb
    rw [shaBlocks, List.mem_cons] at hb
    rcases hb with rfl | hb
    · rw [List.length_take]; omega
    · exact ih _ (by rw [List.length_drop]; omega) b hb

theorem shaBlocks_flatten (n : Nat) (bs : List Byte) (h : bs.length = 64 * n) : (shaBlocks n bs).flatten = bs := by
  induction n generalizing bs with
  | zero =>
    have h0 : bs = [] := List.length_eq_zero_iff.1 h
    rw [h0]
    rfl
  | succ n ih =>
    rw [shaBlocks, List.flatten_cons, ih _ (by rw [List.length_drop]; omega), List.take_append_drop]

theorem messageBlocks_mem (msg : List Byte) : ∀ b ∈ messageBlocks msg, b.length = 64 := by
  have h := shaPad_length msg
  exact shaBlocks_mem _ _ (by omega)

@[simp] theorem lastBlock_length (msg : List Byte) : (lastBlock msg).length = 64 := by
  unfold lastBlock
  rw [List.getLastD_eq_getLast?]
  cases h : (messageBlocks msg).getLast? with
  | none => simp
  | some b => exact messageBlocks_mem msg b (List.mem_of_getLast? h)

theorem wordsOfBytes_length (n : Nat) (bs : List Byte) (h : bs.length = 4 * n) : (wordsOfBytes bs).length = n := by
  have := (fromBE_law n bs h).1
  simpa [fromBE] using this

theorem extendSchedule_length (n : Nat) (ws : List Word) : (extendSchedule n ws).length = n + ws.length := by
  induction n generalizing ws with
  | zero => simp [extendSchedule]
  | succ n ih => rw [extendSchedule, ih, List.length_cons]; omega

theorem shaSchedule_length (blk : List Byte) (h : blk.length = 64) : (shaSchedule blk).length = 64 := by
  simp [shaSchedule, extendSchedule_length, wordsOfBytes_length 16 blk (by omega)]

/-! MGF1. -/

@[simp] theorem mgfBlock_length (seed : List Byte) (c : Nat) : (mgfBlock seed c).length = 32 := sha256_length _

theorem flatMap_block_length (seed : List Byte) (l : List Nat) : (l.flatMap (mgfBlock seed)).length = 32 * l.length := by
  induction l with
  | nil => rfl
  | cons c l ih => rw [List.flatMap_cons, List.length_append, ih, mgfBlock_length, List.length_cons]; omega

@[simp] theorem mgfMask_length (seed : List Byte) (lb : Nat) : (mgfMask seed lb).length = lb := by
  simp only [mgfMask, List.length_take, flatMap_block_length, List.length_range, mgfHashes]
  omega

theorem flatMap_block_getElem? (seed : List Byte) (k : Nat) (p : Nat) (h : p < 32 * k) :
    ((List.range k).flatMap (mgfBlock seed))[p]? = (mgfBlock seed (p / 32))[p % 32]? := by
  induction k with
  | zero => omega
  | succ k ih =>
    rw [List.range_succ, List.flatMap_append]
    by_cases hp : p < 32 * k
    · rw [List.getElem?_append_left (by rw [flatMap_block_length, List.length_range]; exact hp), ih hp]
    · rw [List.getElem?_append_right (by rw [flatMap_block_length, List.length_range]; omega),
        flatMap_block_length, List.length_range]
      have e : p / 32 = k := by omega
      simp only [List.flatMap_cons, List.flatMap_nil, List.append_nil]
      rw [e]
      congr 1
      omega

/-- Byte `p` of the mask (R241). -/
theorem mgfMask_getElem? (seed : List Byte) (lb p : Nat) (h : p < lb) :
    (mgfMask seed lb)[p]? = (mgfBlock seed (p / 32))[p % 32]? := by
  unfold mgfMask
  rw [List.getElem?_take, if_pos h, flatMap_block_getElem? seed _ p (by unfold mgfHashes; omega)]

@[simp] theorem mgfXor_length (buf seed : List Byte) : (mgfXor buf seed).length = buf.length := by simp [mgfXor]

/-- Applying the mask twice restores the buffer (R243). -/
theorem mgfXor_twice (buf seed : List Byte) : mgfXor (mgfXor buf seed) seed = buf := by
  apply List.ext_getElem?
  intro i
  simp only [mgfXor, List.getElem?_zipWith, List.length_zipWith, mgfMask_length, Nat.min_self]
  rcases h1 : buf[i]? with _ | b
  · simp
  · have hi := (List.getElem?_eq_some_iff.1 h1).1
    rcases h2 : (mgfMask seed buf.length)[i]? with _ | k
    · rw [List.getElem?_eq_none_iff, mgfMask_length] at h2; omega
    · simp

/-! PSS. -/

@[simp] theorem clearTop_length (emBits : Nat) (db : List Byte) : (clearTop emBits db).length = db.length := by
  cases db <;> rfl

theorem pssDb_length (salt : List Byte) (emBits : Nat) (h : salt.length + 32 + 2 ≤ emLen emBits) :
    (pssDb salt emBits).length = emLen emBits - 32 - 1 := by
  simp only [pssDb, List.length_append, zeros_length, List.length_cons]
  omega

theorem pssEncode_length (mHash salt : List Byte) (emBits : Nat) (h : salt.length + 32 + 2 ≤ emLen emBits) :
    (pssEncode mHash salt emBits).length = emLen emBits := by
  simp only [pssEncode, List.length_append, clearTop_length, mgfXor_length, pssDb_length salt emBits h, sha256_length,
    List.length_singleton]
  omega

end Machine
end Sys2Proof
end

