-- ==== Sys2Proof/Laws/State.lean ====
section
/-! SUPPORT. One lemma per field per update of the state: what the update writes and what it leaves. -/

namespace Sys2Proof.Machine

variable (s : State)

/-! `State.setMem`. -/

@[simp] theorem State.setMem_key (m : Memory) : (s.setMem m).key = s.key := rfl
@[simp] theorem State.setMem_par (m : Memory) : (s.setMem m).par = s.par := rfl
@[simp] theorem State.setMem_w (m : Memory) : (s.setMem m).w = s.w := rfl
@[simp] theorem State.setMem_fl (m : Memory) : (s.setMem m).fl = s.fl := rfl
@[simp] theorem State.setMem_err (m : Memory) : (s.setMem m).err = s.err := rfl
@[simp] theorem State.setMem_halt (m : Memory) : (s.setMem m).halt = s.halt := rfl
@[simp] theorem State.setMem_cause (m : Memory) : (s.setMem m).cause = s.cause := rfl
@[simp] theorem State.setMem_mem (m : Memory) : (s.setMem m).mem = m := rfl
@[simp] theorem State.setMem_sha (m : Memory) : (s.setMem m).sha = s.sha := rfl
@[simp] theorem State.setMem_ctr (m : Memory) : (s.setMem m).ctr = s.ctr := rfl
@[simp] theorem State.setMem_wi (m : Memory) : (s.setMem m).wi = s.wi := rfl
@[simp] theorem State.setMem_ni (m : Memory) : (s.setMem m).ni = s.ni := rfl
@[simp] theorem State.setMem_first (m : Memory) : (s.setMem m).first = s.first := rfl
@[simp] theorem State.setMem_seq (m : Memory) : (s.setMem m).seq = s.seq := rfl
@[simp] theorem State.setMem_rxq (m : Memory) : (s.setMem m).rxq = s.rxq := rfl
@[simp] theorem State.setMem_txq (m : Memory) : (s.setMem m).txq = s.txq := rfl
@[simp] theorem State.setMem_uq (m : Memory) : (s.setMem m).uq = s.uq := rfl
@[simp] theorem State.setMem_turns (m : Memory) : (s.setMem m).turns = s.turns := rfl
@[simp] theorem State.setMem_tick (m : Memory) : (s.setMem m).tick = s.tick := rfl

/-! `State.setW`. -/

@[simp] theorem State.setW_key (w : WRegs) : (s.setW w).key = s.key := rfl
@[simp] theorem State.setW_par (w : WRegs) : (s.setW w).par = s.par := rfl
@[simp] theorem State.setW_w (w : WRegs) : (s.setW w).w = w := rfl
@[simp] theorem State.setW_fl (w : WRegs) : (s.setW w).fl = s.fl := rfl
@[simp] theorem State.setW_err (w : WRegs) : (s.setW w).err = s.err := rfl
@[simp] theorem State.setW_halt (w : WRegs) : (s.setW w).halt = s.halt := rfl
@[simp] theorem State.setW_cause (w : WRegs) : (s.setW w).cause = s.cause := rfl
@[simp] theorem State.setW_mem (w : WRegs) : (s.setW w).mem = s.mem := rfl
@[simp] theorem State.setW_sha (w : WRegs) : (s.setW w).sha = s.sha := rfl
@[simp] theorem State.setW_ctr (w : WRegs) : (s.setW w).ctr = s.ctr := rfl
@[simp] theorem State.setW_wi (w : WRegs) : (s.setW w).wi = s.wi := rfl
@[simp] theorem State.setW_ni (w : WRegs) : (s.setW w).ni = s.ni := rfl
@[simp] theorem State.setW_first (w : WRegs) : (s.setW w).first = s.first := rfl
@[simp] theorem State.setW_seq (w : WRegs) : (s.setW w).seq = s.seq := rfl
@[simp] theorem State.setW_rxq (w : WRegs) : (s.setW w).rxq = s.rxq := rfl
@[simp] theorem State.setW_txq (w : WRegs) : (s.setW w).txq = s.txq := rfl
@[simp] theorem State.setW_uq (w : WRegs) : (s.setW w).uq = s.uq := rfl
@[simp] theorem State.setW_turns (w : WRegs) : (s.setW w).turns = s.turns := rfl
@[simp] theorem State.setW_tick (w : WRegs) : (s.setW w).tick = s.tick := rfl

/-! `State.putReg`. -/

@[simp] theorem State.putReg_key (r : VReg) (v : List Word) : (s.putReg r v).key = s.key := rfl
@[simp] theorem State.putReg_par (r : VReg) (v : List Word) : (s.putReg r v).par = s.par := rfl
@[simp] theorem State.putReg_w (r : VReg) (v : List Word) : (s.putReg r v).w = s.w.put r v := rfl
@[simp] theorem State.putReg_fl (r : VReg) (v : List Word) : (s.putReg r v).fl = s.fl := rfl
@[simp] theorem State.putReg_err (r : VReg) (v : List Word) : (s.putReg r v).err = s.err := rfl
@[simp] theorem State.putReg_halt (r : VReg) (v : List Word) : (s.putReg r v).halt = s.halt := rfl
@[simp] theorem State.putReg_cause (r : VReg) (v : List Word) : (s.putReg r v).cause = s.cause := rfl
@[simp] theorem State.putReg_mem (r : VReg) (v : List Word) : (s.putReg r v).mem = s.mem := rfl
@[simp] theorem State.putReg_sha (r : VReg) (v : List Word) : (s.putReg r v).sha = s.sha := rfl
@[simp] theorem State.putReg_ctr (r : VReg) (v : List Word) : (s.putReg r v).ctr = s.ctr := rfl
@[simp] theorem State.putReg_wi (r : VReg) (v : List Word) : (s.putReg r v).wi = s.wi := rfl
@[simp] theorem State.putReg_ni (r : VReg) (v : List Word) : (s.putReg r v).ni = s.ni := rfl
@[simp] theorem State.putReg_first (r : VReg) (v : List Word) : (s.putReg r v).first = s.first := rfl
@[simp] theorem State.putReg_seq (r : VReg) (v : List Word) : (s.putReg r v).seq = s.seq := rfl
@[simp] theorem State.putReg_rxq (r : VReg) (v : List Word) : (s.putReg r v).rxq = s.rxq := rfl
@[simp] theorem State.putReg_txq (r : VReg) (v : List Word) : (s.putReg r v).txq = s.txq := rfl
@[simp] theorem State.putReg_uq (r : VReg) (v : List Word) : (s.putReg r v).uq = s.uq := rfl
@[simp] theorem State.putReg_turns (r : VReg) (v : List Word) : (s.putReg r v).turns = s.turns := rfl
@[simp] theorem State.putReg_tick (r : VReg) (v : List Word) : (s.putReg r v).tick = s.tick := rfl

/-! `State.goto`. -/

@[simp] theorem State.goto_key (q : Seq) : (s.goto q).key = s.key := rfl
@[simp] theorem State.goto_par (q : Seq) : (s.goto q).par = s.par := rfl
@[simp] theorem State.goto_w (q : Seq) : (s.goto q).w = s.w := rfl
@[simp] theorem State.goto_fl (q : Seq) : (s.goto q).fl = s.fl := rfl
@[simp] theorem State.goto_err (q : Seq) : (s.goto q).err = s.err := rfl
@[simp] theorem State.goto_halt (q : Seq) : (s.goto q).halt = s.halt := rfl
@[simp] theorem State.goto_cause (q : Seq) : (s.goto q).cause = s.cause := rfl
@[simp] theorem State.goto_mem (q : Seq) : (s.goto q).mem = s.mem := rfl
@[simp] theorem State.goto_sha (q : Seq) : (s.goto q).sha = s.sha := rfl
@[simp] theorem State.goto_ctr (q : Seq) : (s.goto q).ctr = s.ctr := rfl
@[simp] theorem State.goto_wi (q : Seq) : (s.goto q).wi = s.wi := rfl
@[simp] theorem State.goto_ni (q : Seq) : (s.goto q).ni = s.ni := rfl
@[simp] theorem State.goto_first (q : Seq) : (s.goto q).first = s.first := rfl
@[simp] theorem State.goto_seq (q : Seq) : (s.goto q).seq = q := rfl
@[simp] theorem State.goto_rxq (q : Seq) : (s.goto q).rxq = s.rxq := rfl
@[simp] theorem State.goto_txq (q : Seq) : (s.goto q).txq = s.txq := rfl
@[simp] theorem State.goto_uq (q : Seq) : (s.goto q).uq = s.uq := rfl
@[simp] theorem State.goto_turns (q : Seq) : (s.goto q).turns = s.turns := rfl
@[simp] theorem State.goto_tick (q : Seq) : (s.goto q).tick = s.tick := rfl

/-! `State.txByte`. -/

@[simp] theorem State.txByte_key (b : Byte) : (s.txByte b).key = s.key := rfl
@[simp] theorem State.txByte_par (b : Byte) : (s.txByte b).par = s.par := rfl
@[simp] theorem State.txByte_w (b : Byte) : (s.txByte b).w = s.w := rfl
@[simp] theorem State.txByte_fl (b : Byte) : (s.txByte b).fl = s.fl := rfl
@[simp] theorem State.txByte_err (b : Byte) : (s.txByte b).err = s.err := rfl
@[simp] theorem State.txByte_halt (b : Byte) : (s.txByte b).halt = s.halt := rfl
@[simp] theorem State.txByte_cause (b : Byte) : (s.txByte b).cause = s.cause := rfl
@[simp] theorem State.txByte_mem (b : Byte) : (s.txByte b).mem = s.mem := rfl
@[simp] theorem State.txByte_sha (b : Byte) : (s.txByte b).sha = s.sha := rfl
@[simp] theorem State.txByte_ctr (b : Byte) : (s.txByte b).ctr = s.ctr := rfl
@[simp] theorem State.txByte_wi (b : Byte) : (s.txByte b).wi = s.wi := rfl
@[simp] theorem State.txByte_ni (b : Byte) : (s.txByte b).ni = s.ni := rfl
@[simp] theorem State.txByte_first (b : Byte) : (s.txByte b).first = s.first := rfl
@[simp] theorem State.txByte_seq (b : Byte) : (s.txByte b).seq = s.seq := rfl
@[simp] theorem State.txByte_rxq (b : Byte) : (s.txByte b).rxq = s.rxq := rfl
@[simp] theorem State.txByte_txq (b : Byte) : (s.txByte b).txq = s.txq ++ [b] := rfl
@[simp] theorem State.txByte_uq (b : Byte) : (s.txByte b).uq = s.uq := rfl
@[simp] theorem State.txByte_turns (b : Byte) : (s.txByte b).turns = s.turns := rfl
@[simp] theorem State.txByte_tick (b : Byte) : (s.txByte b).tick = s.tick := rfl

/-! `State.txBytes`. -/

@[simp] theorem State.txBytes_key (bs : List Byte) : (s.txBytes bs).key = s.key := rfl
@[simp] theorem State.txBytes_par (bs : List Byte) : (s.txBytes bs).par = s.par := rfl
@[simp] theorem State.txBytes_w (bs : List Byte) : (s.txBytes bs).w = s.w := rfl
@[simp] theorem State.txBytes_fl (bs : List Byte) : (s.txBytes bs).fl = s.fl := rfl
@[simp] theorem State.txBytes_err (bs : List Byte) : (s.txBytes bs).err = s.err := rfl
@[simp] theorem State.txBytes_halt (bs : List Byte) : (s.txBytes bs).halt = s.halt := rfl
@[simp] theorem State.txBytes_cause (bs : List Byte) : (s.txBytes bs).cause = s.cause := rfl
@[simp] theorem State.txBytes_mem (bs : List Byte) : (s.txBytes bs).mem = s.mem := rfl
@[simp] theorem State.txBytes_sha (bs : List Byte) : (s.txBytes bs).sha = s.sha := rfl
@[simp] theorem State.txBytes_ctr (bs : List Byte) : (s.txBytes bs).ctr = s.ctr := rfl
@[simp] theorem State.txBytes_wi (bs : List Byte) : (s.txBytes bs).wi = s.wi := rfl
@[simp] theorem State.txBytes_ni (bs : List Byte) : (s.txBytes bs).ni = s.ni := rfl
@[simp] theorem State.txBytes_first (bs : List Byte) : (s.txBytes bs).first = s.first := rfl
@[simp] theorem State.txBytes_seq (bs : List Byte) : (s.txBytes bs).seq = s.seq := rfl
@[simp] theorem State.txBytes_rxq (bs : List Byte) : (s.txBytes bs).rxq = s.rxq := rfl
@[simp] theorem State.txBytes_txq (bs : List Byte) : (s.txBytes bs).txq = s.txq ++ bs := rfl
@[simp] theorem State.txBytes_uq (bs : List Byte) : (s.txBytes bs).uq = s.uq := rfl
@[simp] theorem State.txBytes_turns (bs : List Byte) : (s.txBytes bs).turns = s.turns := rfl
@[simp] theorem State.txBytes_tick (bs : List Byte) : (s.txBytes bs).tick = s.tick := rfl

/-! `State.raiseEncoding`. -/

@[simp] theorem State.raiseEncoding_key (c : EncCause) : (s.raiseEncoding c).key = s.key := rfl
@[simp] theorem State.raiseEncoding_par (c : EncCause) : (s.raiseEncoding c).par = s.par := rfl
@[simp] theorem State.raiseEncoding_w (c : EncCause) : (s.raiseEncoding c).w = s.w := rfl
@[simp] theorem State.raiseEncoding_fl (c : EncCause) : (s.raiseEncoding c).fl = s.fl := rfl
@[simp] theorem State.raiseEncoding_err (c : EncCause) : (s.raiseEncoding c).err = true := rfl
@[simp] theorem State.raiseEncoding_halt (c : EncCause) : (s.raiseEncoding c).halt = s.halt := rfl
@[simp] theorem State.raiseEncoding_cause (c : EncCause) : (s.raiseEncoding c).cause = c.code := rfl
@[simp] theorem State.raiseEncoding_mem (c : EncCause) : (s.raiseEncoding c).mem = s.mem := rfl
@[simp] theorem State.raiseEncoding_sha (c : EncCause) : (s.raiseEncoding c).sha = s.sha := rfl
@[simp] theorem State.raiseEncoding_ctr (c : EncCause) : (s.raiseEncoding c).ctr = s.ctr := rfl
@[simp] theorem State.raiseEncoding_wi (c : EncCause) : (s.raiseEncoding c).wi = s.wi := rfl
@[simp] theorem State.raiseEncoding_ni (c : EncCause) : (s.raiseEncoding c).ni = s.ni := rfl
@[simp] theorem State.raiseEncoding_first (c : EncCause) : (s.raiseEncoding c).first = s.first := rfl
@[simp] theorem State.raiseEncoding_seq (c : EncCause) : (s.raiseEncoding c).seq = s.seq := rfl
@[simp] theorem State.raiseEncoding_rxq (c : EncCause) : (s.raiseEncoding c).rxq = s.rxq := rfl
@[simp] theorem State.raiseEncoding_txq (c : EncCause) : (s.raiseEncoding c).txq = s.txq := rfl
@[simp] theorem State.raiseEncoding_uq (c : EncCause) : (s.raiseEncoding c).uq = s.uq := rfl
@[simp] theorem State.raiseEncoding_turns (c : EncCause) : (s.raiseEncoding c).turns = s.turns := rfl
@[simp] theorem State.raiseEncoding_tick (c : EncCause) : (s.raiseEncoding c).tick = s.tick := rfl

/-! `State.raiseFatal`. -/

@[simp] theorem State.raiseFatal_key (c : FatalCause) : (s.raiseFatal c).key = s.key := rfl
@[simp] theorem State.raiseFatal_par (c : FatalCause) : (s.raiseFatal c).par = s.par := rfl
@[simp] theorem State.raiseFatal_w (c : FatalCause) : (s.raiseFatal c).w = s.w := rfl
@[simp] theorem State.raiseFatal_fl (c : FatalCause) : (s.raiseFatal c).fl = s.fl := rfl
@[simp] theorem State.raiseFatal_err (c : FatalCause) : (s.raiseFatal c).err = s.err := rfl
@[simp] theorem State.raiseFatal_halt (c : FatalCause) : (s.raiseFatal c).halt = true := rfl
@[simp] theorem State.raiseFatal_cause (c : FatalCause) : (s.raiseFatal c).cause = c.code := rfl
@[simp] theorem State.raiseFatal_mem (c : FatalCause) : (s.raiseFatal c).mem = s.mem := rfl
@[simp] theorem State.raiseFatal_sha (c : FatalCause) : (s.raiseFatal c).sha = s.sha := rfl
@[simp] theorem State.raiseFatal_ctr (c : FatalCause) : (s.raiseFatal c).ctr = s.ctr := rfl
@[simp] theorem State.raiseFatal_wi (c : FatalCause) : (s.raiseFatal c).wi = s.wi := rfl
@[simp] theorem State.raiseFatal_ni (c : FatalCause) : (s.raiseFatal c).ni = s.ni := rfl
@[simp] theorem State.raiseFatal_first (c : FatalCause) : (s.raiseFatal c).first = s.first := rfl
@[simp] theorem State.raiseFatal_seq (c : FatalCause) : (s.raiseFatal c).seq = .diag := rfl
@[simp] theorem State.raiseFatal_rxq (c : FatalCause) : (s.raiseFatal c).rxq = s.rxq := rfl
@[simp] theorem State.raiseFatal_txq (c : FatalCause) : (s.raiseFatal c).txq = s.txq := rfl
@[simp] theorem State.raiseFatal_uq (c : FatalCause) : (s.raiseFatal c).uq = [] := rfl
@[simp] theorem State.raiseFatal_turns (c : FatalCause) : (s.raiseFatal c).turns = s.turns := rfl
@[simp] theorem State.raiseFatal_tick (c : FatalCause) : (s.raiseFatal c).tick = s.tick := rfl

/-! `State.sendDiag`. -/

@[simp] theorem State.sendDiag_key : s.sendDiag.key = s.key := rfl
@[simp] theorem State.sendDiag_par : s.sendDiag.par = s.par := rfl
@[simp] theorem State.sendDiag_w : s.sendDiag.w = s.w := rfl
@[simp] theorem State.sendDiag_fl : s.sendDiag.fl = s.fl := rfl
@[simp] theorem State.sendDiag_err : s.sendDiag.err = s.err := rfl
@[simp] theorem State.sendDiag_halt : s.sendDiag.halt = s.halt := rfl
@[simp] theorem State.sendDiag_cause : s.sendDiag.cause = s.cause := rfl
@[simp] theorem State.sendDiag_mem : s.sendDiag.mem = s.mem := rfl
@[simp] theorem State.sendDiag_sha : s.sendDiag.sha = s.sha := rfl
@[simp] theorem State.sendDiag_ctr : s.sendDiag.ctr = s.ctr := rfl
@[simp] theorem State.sendDiag_wi : s.sendDiag.wi = s.wi := rfl
@[simp] theorem State.sendDiag_ni : s.sendDiag.ni = s.ni := rfl
@[simp] theorem State.sendDiag_first : s.sendDiag.first = s.first := rfl
@[simp] theorem State.sendDiag_seq : s.sendDiag.seq = .halted := rfl
@[simp] theorem State.sendDiag_rxq : s.sendDiag.rxq = s.rxq := rfl
@[simp] theorem State.sendDiag_txq : s.sendDiag.txq = s.txq ++ s.par.fatalDiag := rfl
@[simp] theorem State.sendDiag_uq : s.sendDiag.uq = s.uq := rfl
@[simp] theorem State.sendDiag_turns : s.sendDiag.turns = s.turns := rfl
@[simp] theorem State.sendDiag_tick : s.sendDiag.tick = s.tick := rfl

/-! `State.putBytes`. -/

@[simp] theorem State.putBytes_key (b : Buf) (off : Nat) (bs : List Byte) : (s.putBytes b off bs).key = s.key := rfl
@[simp] theorem State.putBytes_par (b : Buf) (off : Nat) (bs : List Byte) : (s.putBytes b off bs).par = s.par := rfl
@[simp] theorem State.putBytes_w (b : Buf) (off : Nat) (bs : List Byte) : (s.putBytes b off bs).w = s.w := rfl
@[simp] theorem State.putBytes_fl (b : Buf) (off : Nat) (bs : List Byte) : (s.putBytes b off bs).fl = s.fl := rfl
@[simp] theorem State.putBytes_err (b : Buf) (off : Nat) (bs : List Byte) : (s.putBytes b off bs).err = s.err := rfl
@[simp] theorem State.putBytes_halt (b : Buf) (off : Nat) (bs : List Byte) : (s.putBytes b off bs).halt = s.halt := rfl
@[simp] theorem State.putBytes_cause (b : Buf) (off : Nat) (bs : List Byte) : (s.putBytes b off bs).cause = s.cause := rfl
@[simp] theorem State.putBytes_mem (b : Buf) (off : Nat) (bs : List Byte) : (s.putBytes b off bs).mem = s.mem.write b off bs := rfl
@[simp] theorem State.putBytes_sha (b : Buf) (off : Nat) (bs : List Byte) : (s.putBytes b off bs).sha = s.sha := rfl
@[simp] theorem State.putBytes_ctr (b : Buf) (off : Nat) (bs : List Byte) : (s.putBytes b off bs).ctr = s.ctr := rfl
@[simp] theorem State.putBytes_wi (b : Buf) (off : Nat) (bs : List Byte) : (s.putBytes b off bs).wi = s.wi := rfl
@[simp] theorem State.putBytes_ni (b : Buf) (off : Nat) (bs : List Byte) : (s.putBytes b off bs).ni = s.ni := rfl
@[simp] theorem State.putBytes_first (b : Buf) (off : Nat) (bs : List Byte) : (s.putBytes b off bs).first = s.first := rfl
@[simp] theorem State.putBytes_seq (b : Buf) (off : Nat) (bs : List Byte) : (s.putBytes b off bs).seq = s.seq := rfl
@[simp] theorem State.putBytes_rxq (b : Buf) (off : Nat) (bs : List Byte) : (s.putBytes b off bs).rxq = s.rxq := rfl
@[simp] theorem State.putBytes_txq (b : Buf) (off : Nat) (bs : List Byte) : (s.putBytes b off bs).txq = s.txq := rfl
@[simp] theorem State.putBytes_uq (b : Buf) (off : Nat) (bs : List Byte) : (s.putBytes b off bs).uq = s.uq := rfl
@[simp] theorem State.putBytes_turns (b : Buf) (off : Nat) (bs : List Byte) : (s.putBytes b off bs).turns = s.turns := rfl
@[simp] theorem State.putBytes_tick (b : Buf) (off : Nat) (bs : List Byte) : (s.putBytes b off bs).tick = s.tick := rfl

/-! `State.setCy`. -/

@[simp] theorem State.setCy_key (b : Bool) : (s.setCy b).key = s.key := rfl
@[simp] theorem State.setCy_par (b : Bool) : (s.setCy b).par = s.par := rfl
@[simp] theorem State.setCy_w (b : Bool) : (s.setCy b).w = s.w := rfl
@[simp] theorem State.setCy_fl (b : Bool) : (s.setCy b).fl = { s.fl with cy := b } := rfl
@[simp] theorem State.setCy_err (b : Bool) : (s.setCy b).err = s.err := rfl
@[simp] theorem State.setCy_halt (b : Bool) : (s.setCy b).halt = s.halt := rfl
@[simp] theorem State.setCy_cause (b : Bool) : (s.setCy b).cause = s.cause := rfl
@[simp] theorem State.setCy_mem (b : Bool) : (s.setCy b).mem = s.mem := rfl
@[simp] theorem State.setCy_sha (b : Bool) : (s.setCy b).sha = s.sha := rfl
@[simp] theorem State.setCy_ctr (b : Bool) : (s.setCy b).ctr = s.ctr := rfl
@[simp] theorem State.setCy_wi (b : Bool) : (s.setCy b).wi = s.wi := rfl
@[simp] theorem State.setCy_ni (b : Bool) : (s.setCy b).ni = s.ni := rfl
@[simp] theorem State.setCy_first (b : Bool) : (s.setCy b).first = s.first := rfl
@[simp] theorem State.setCy_seq (b : Bool) : (s.setCy b).seq = s.seq := rfl
@[simp] theorem State.setCy_rxq (b : Bool) : (s.setCy b).rxq = s.rxq := rfl
@[simp] theorem State.setCy_txq (b : Bool) : (s.setCy b).txq = s.txq := rfl
@[simp] theorem State.setCy_uq (b : Bool) : (s.setCy b).uq = s.uq := rfl
@[simp] theorem State.setCy_turns (b : Bool) : (s.setCy b).turns = s.turns := rfl
@[simp] theorem State.setCy_tick (b : Bool) : (s.setCy b).tick = s.tick := rfl

/-! `State.setBw`. -/

@[simp] theorem State.setBw_key (b : Bool) : (s.setBw b).key = s.key := rfl
@[simp] theorem State.setBw_par (b : Bool) : (s.setBw b).par = s.par := rfl
@[simp] theorem State.setBw_w (b : Bool) : (s.setBw b).w = s.w := rfl
@[simp] theorem State.setBw_fl (b : Bool) : (s.setBw b).fl = { s.fl with bw := b } := rfl
@[simp] theorem State.setBw_err (b : Bool) : (s.setBw b).err = s.err := rfl
@[simp] theorem State.setBw_halt (b : Bool) : (s.setBw b).halt = s.halt := rfl
@[simp] theorem State.setBw_cause (b : Bool) : (s.setBw b).cause = s.cause := rfl
@[simp] theorem State.setBw_mem (b : Bool) : (s.setBw b).mem = s.mem := rfl
@[simp] theorem State.setBw_sha (b : Bool) : (s.setBw b).sha = s.sha := rfl
@[simp] theorem State.setBw_ctr (b : Bool) : (s.setBw b).ctr = s.ctr := rfl
@[simp] theorem State.setBw_wi (b : Bool) : (s.setBw b).wi = s.wi := rfl
@[simp] theorem State.setBw_ni (b : Bool) : (s.setBw b).ni = s.ni := rfl
@[simp] theorem State.setBw_first (b : Bool) : (s.setBw b).first = s.first := rfl
@[simp] theorem State.setBw_seq (b : Bool) : (s.setBw b).seq = s.seq := rfl
@[simp] theorem State.setBw_rxq (b : Bool) : (s.setBw b).rxq = s.rxq := rfl
@[simp] theorem State.setBw_txq (b : Bool) : (s.setBw b).txq = s.txq := rfl
@[simp] theorem State.setBw_uq (b : Bool) : (s.setBw b).uq = s.uq := rfl
@[simp] theorem State.setBw_turns (b : Bool) : (s.setBw b).turns = s.turns := rfl
@[simp] theorem State.setBw_tick (b : Bool) : (s.setBw b).tick = s.tick := rfl

/-! `State.setCw`. -/

@[simp] theorem State.setCw_key (c : Word) : (s.setCw c).key = s.key := rfl
@[simp] theorem State.setCw_par (c : Word) : (s.setCw c).par = s.par := rfl
@[simp] theorem State.setCw_w (c : Word) : (s.setCw c).w = { s.w with cw := c } := rfl
@[simp] theorem State.setCw_fl (c : Word) : (s.setCw c).fl = s.fl := rfl
@[simp] theorem State.setCw_err (c : Word) : (s.setCw c).err = s.err := rfl
@[simp] theorem State.setCw_halt (c : Word) : (s.setCw c).halt = s.halt := rfl
@[simp] theorem State.setCw_cause (c : Word) : (s.setCw c).cause = s.cause := rfl
@[simp] theorem State.setCw_mem (c : Word) : (s.setCw c).mem = s.mem := rfl
@[simp] theorem State.setCw_sha (c : Word) : (s.setCw c).sha = s.sha := rfl
@[simp] theorem State.setCw_ctr (c : Word) : (s.setCw c).ctr = s.ctr := rfl
@[simp] theorem State.setCw_wi (c : Word) : (s.setCw c).wi = s.wi := rfl
@[simp] theorem State.setCw_ni (c : Word) : (s.setCw c).ni = s.ni := rfl
@[simp] theorem State.setCw_first (c : Word) : (s.setCw c).first = s.first := rfl
@[simp] theorem State.setCw_seq (c : Word) : (s.setCw c).seq = s.seq := rfl
@[simp] theorem State.setCw_rxq (c : Word) : (s.setCw c).rxq = s.rxq := rfl
@[simp] theorem State.setCw_txq (c : Word) : (s.setCw c).txq = s.txq := rfl
@[simp] theorem State.setCw_uq (c : Word) : (s.setCw c).uq = s.uq := rfl
@[simp] theorem State.setCw_turns (c : Word) : (s.setCw c).turns = s.turns := rfl
@[simp] theorem State.setCw_tick (c : Word) : (s.setCw c).tick = s.tick := rfl

/-! `State.setOrd`. -/

@[simp] theorem State.setOrd_key (o : Ordering) : (s.setOrd o).key = s.key := rfl
@[simp] theorem State.setOrd_par (o : Ordering) : (s.setOrd o).par = s.par := rfl
@[simp] theorem State.setOrd_w (o : Ordering) : (s.setOrd o).w = s.w := rfl
@[simp] theorem State.setOrd_fl (o : Ordering) : (s.setOrd o).fl = { s.fl with ord := o } := rfl
@[simp] theorem State.setOrd_err (o : Ordering) : (s.setOrd o).err = s.err := rfl
@[simp] theorem State.setOrd_halt (o : Ordering) : (s.setOrd o).halt = s.halt := rfl
@[simp] theorem State.setOrd_cause (o : Ordering) : (s.setOrd o).cause = s.cause := rfl
@[simp] theorem State.setOrd_mem (o : Ordering) : (s.setOrd o).mem = s.mem := rfl
@[simp] theorem State.setOrd_sha (o : Ordering) : (s.setOrd o).sha = s.sha := rfl
@[simp] theorem State.setOrd_ctr (o : Ordering) : (s.setOrd o).ctr = s.ctr := rfl
@[simp] theorem State.setOrd_wi (o : Ordering) : (s.setOrd o).wi = s.wi := rfl
@[simp] theorem State.setOrd_ni (o : Ordering) : (s.setOrd o).ni = s.ni := rfl
@[simp] theorem State.setOrd_first (o : Ordering) : (s.setOrd o).first = s.first := rfl
@[simp] theorem State.setOrd_seq (o : Ordering) : (s.setOrd o).seq = s.seq := rfl
@[simp] theorem State.setOrd_rxq (o : Ordering) : (s.setOrd o).rxq = s.rxq := rfl
@[simp] theorem State.setOrd_txq (o : Ordering) : (s.setOrd o).txq = s.txq := rfl
@[simp] theorem State.setOrd_uq (o : Ordering) : (s.setOrd o).uq = s.uq := rfl
@[simp] theorem State.setOrd_turns (o : Ordering) : (s.setOrd o).turns = s.turns := rfl
@[simp] theorem State.setOrd_tick (o : Ordering) : (s.setOrd o).tick = s.tick := rfl

/-! `State.setZexp`. -/

@[simp] theorem State.setZexp_key (b : Bool) : (s.setZexp b).key = s.key := rfl
@[simp] theorem State.setZexp_par (b : Bool) : (s.setZexp b).par = s.par := rfl
@[simp] theorem State.setZexp_w (b : Bool) : (s.setZexp b).w = s.w := rfl
@[simp] theorem State.setZexp_fl (b : Bool) : (s.setZexp b).fl = { s.fl with zexp := b } := rfl
@[simp] theorem State.setZexp_err (b : Bool) : (s.setZexp b).err = s.err := rfl
@[simp] theorem State.setZexp_halt (b : Bool) : (s.setZexp b).halt = s.halt := rfl
@[simp] theorem State.setZexp_cause (b : Bool) : (s.setZexp b).cause = s.cause := rfl
@[simp] theorem State.setZexp_mem (b : Bool) : (s.setZexp b).mem = s.mem := rfl
@[simp] theorem State.setZexp_sha (b : Bool) : (s.setZexp b).sha = s.sha := rfl
@[simp] theorem State.setZexp_ctr (b : Bool) : (s.setZexp b).ctr = s.ctr := rfl
@[simp] theorem State.setZexp_wi (b : Bool) : (s.setZexp b).wi = s.wi := rfl
@[simp] theorem State.setZexp_ni (b : Bool) : (s.setZexp b).ni = s.ni := rfl
@[simp] theorem State.setZexp_first (b : Bool) : (s.setZexp b).first = s.first := rfl
@[simp] theorem State.setZexp_seq (b : Bool) : (s.setZexp b).seq = s.seq := rfl
@[simp] theorem State.setZexp_rxq (b : Bool) : (s.setZexp b).rxq = s.rxq := rfl
@[simp] theorem State.setZexp_txq (b : Bool) : (s.setZexp b).txq = s.txq := rfl
@[simp] theorem State.setZexp_uq (b : Bool) : (s.setZexp b).uq = s.uq := rfl
@[simp] theorem State.setZexp_turns (b : Bool) : (s.setZexp b).turns = s.turns := rfl
@[simp] theorem State.setZexp_tick (b : Bool) : (s.setZexp b).tick = s.tick := rfl

/-! `State.setValid`. -/

@[simp] theorem State.setValid_key (b : Bool) : (s.setValid b).key = s.key := rfl
@[simp] theorem State.setValid_par (b : Bool) : (s.setValid b).par = s.par := rfl
@[simp] theorem State.setValid_w (b : Bool) : (s.setValid b).w = s.w := rfl
@[simp] theorem State.setValid_fl (b : Bool) : (s.setValid b).fl = { s.fl with valid := b } := rfl
@[simp] theorem State.setValid_err (b : Bool) : (s.setValid b).err = s.err := rfl
@[simp] theorem State.setValid_halt (b : Bool) : (s.setValid b).halt = s.halt := rfl
@[simp] theorem State.setValid_cause (b : Bool) : (s.setValid b).cause = s.cause := rfl
@[simp] theorem State.setValid_mem (b : Bool) : (s.setValid b).mem = s.mem := rfl
@[simp] theorem State.setValid_sha (b : Bool) : (s.setValid b).sha = s.sha := rfl
@[simp] theorem State.setValid_ctr (b : Bool) : (s.setValid b).ctr = s.ctr := rfl
@[simp] theorem State.setValid_wi (b : Bool) : (s.setValid b).wi = s.wi := rfl
@[simp] theorem State.setValid_ni (b : Bool) : (s.setValid b).ni = s.ni := rfl
@[simp] theorem State.setValid_first (b : Bool) : (s.setValid b).first = s.first := rfl
@[simp] theorem State.setValid_seq (b : Bool) : (s.setValid b).seq = s.seq := rfl
@[simp] theorem State.setValid_rxq (b : Bool) : (s.setValid b).rxq = s.rxq := rfl
@[simp] theorem State.setValid_txq (b : Bool) : (s.setValid b).txq = s.txq := rfl
@[simp] theorem State.setValid_uq (b : Bool) : (s.setValid b).uq = s.uq := rfl
@[simp] theorem State.setValid_turns (b : Bool) : (s.setValid b).turns = s.turns := rfl
@[simp] theorem State.setValid_tick (b : Bool) : (s.setValid b).tick = s.tick := rfl

/-! `State.spendC`. -/

@[simp] theorem State.spendC_key : s.spendC.key = s.key := rfl
@[simp] theorem State.spendC_par : s.spendC.par = s.par := rfl
@[simp] theorem State.spendC_w : s.spendC.w = s.w := rfl
@[simp] theorem State.spendC_fl : s.spendC.fl = { s.fl with c := Config.freeBit s.tick .c } := rfl
@[simp] theorem State.spendC_err : s.spendC.err = s.err := rfl
@[simp] theorem State.spendC_halt : s.spendC.halt = s.halt := rfl
@[simp] theorem State.spendC_cause : s.spendC.cause = s.cause := rfl
@[simp] theorem State.spendC_mem : s.spendC.mem = s.mem := rfl
@[simp] theorem State.spendC_sha : s.spendC.sha = s.sha := rfl
@[simp] theorem State.spendC_ctr : s.spendC.ctr = s.ctr := rfl
@[simp] theorem State.spendC_wi : s.spendC.wi = s.wi := rfl
@[simp] theorem State.spendC_ni : s.spendC.ni = s.ni := rfl
@[simp] theorem State.spendC_first : s.spendC.first = s.first := rfl
@[simp] theorem State.spendC_seq : s.spendC.seq = s.seq := rfl
@[simp] theorem State.spendC_rxq : s.spendC.rxq = s.rxq := rfl
@[simp] theorem State.spendC_txq : s.spendC.txq = s.txq := rfl
@[simp] theorem State.spendC_uq : s.spendC.uq = s.uq := rfl
@[simp] theorem State.spendC_turns : s.spendC.turns = s.turns := rfl
@[simp] theorem State.spendC_tick : s.spendC.tick = s.tick + 1 := rfl

/-! `State.spendOrd`. -/

@[simp] theorem State.spendOrd_key : s.spendOrd.key = s.key := rfl
@[simp] theorem State.spendOrd_par : s.spendOrd.par = s.par := rfl
@[simp] theorem State.spendOrd_w : s.spendOrd.w = s.w := rfl
@[simp] theorem State.spendOrd_fl : s.spendOrd.fl = { s.fl with ord := Config.freeOrd s.tick .ord } := rfl
@[simp] theorem State.spendOrd_err : s.spendOrd.err = s.err := rfl
@[simp] theorem State.spendOrd_halt : s.spendOrd.halt = s.halt := rfl
@[simp] theorem State.spendOrd_cause : s.spendOrd.cause = s.cause := rfl
@[simp] theorem State.spendOrd_mem : s.spendOrd.mem = s.mem := rfl
@[simp] theorem State.spendOrd_sha : s.spendOrd.sha = s.sha := rfl
@[simp] theorem State.spendOrd_ctr : s.spendOrd.ctr = s.ctr := rfl
@[simp] theorem State.spendOrd_wi : s.spendOrd.wi = s.wi := rfl
@[simp] theorem State.spendOrd_ni : s.spendOrd.ni = s.ni := rfl
@[simp] theorem State.spendOrd_first : s.spendOrd.first = s.first := rfl
@[simp] theorem State.spendOrd_seq : s.spendOrd.seq = s.seq := rfl
@[simp] theorem State.spendOrd_rxq : s.spendOrd.rxq = s.rxq := rfl
@[simp] theorem State.spendOrd_txq : s.spendOrd.txq = s.txq := rfl
@[simp] theorem State.spendOrd_uq : s.spendOrd.uq = s.uq := rfl
@[simp] theorem State.spendOrd_turns : s.spendOrd.turns = s.turns := rfl
@[simp] theorem State.spendOrd_tick : s.spendOrd.tick = s.tick + 1 := rfl

/-! `State.spendZexp`. -/

@[simp] theorem State.spendZexp_key : s.spendZexp.key = s.key := rfl
@[simp] theorem State.spendZexp_par : s.spendZexp.par = s.par := rfl
@[simp] theorem State.spendZexp_w : s.spendZexp.w = s.w := rfl
@[simp] theorem State.spendZexp_fl : s.spendZexp.fl = { s.fl with zexp := Config.freeBit s.tick .zexp } := rfl
@[simp] theorem State.spendZexp_err : s.spendZexp.err = s.err := rfl
@[simp] theorem State.spendZexp_halt : s.spendZexp.halt = s.halt := rfl
@[simp] theorem State.spendZexp_cause : s.spendZexp.cause = s.cause := rfl
@[simp] theorem State.spendZexp_mem : s.spendZexp.mem = s.mem := rfl
@[simp] theorem State.spendZexp_sha : s.spendZexp.sha = s.sha := rfl
@[simp] theorem State.spendZexp_ctr : s.spendZexp.ctr = s.ctr := rfl
@[simp] theorem State.spendZexp_wi : s.spendZexp.wi = s.wi := rfl
@[simp] theorem State.spendZexp_ni : s.spendZexp.ni = s.ni := rfl
@[simp] theorem State.spendZexp_first : s.spendZexp.first = s.first := rfl
@[simp] theorem State.spendZexp_seq : s.spendZexp.seq = s.seq := rfl
@[simp] theorem State.spendZexp_rxq : s.spendZexp.rxq = s.rxq := rfl
@[simp] theorem State.spendZexp_txq : s.spendZexp.txq = s.txq := rfl
@[simp] theorem State.spendZexp_uq : s.spendZexp.uq = s.uq := rfl
@[simp] theorem State.spendZexp_turns : s.spendZexp.turns = s.turns := rfl
@[simp] theorem State.spendZexp_tick : s.spendZexp.tick = s.tick + 1 := rfl

/-! `State.hashed`. -/

@[simp] theorem State.hashed_key (msg : List Byte) : (s.hashed msg).key = s.key := rfl
@[simp] theorem State.hashed_par (msg : List Byte) : (s.hashed msg).par = s.par := rfl
@[simp] theorem State.hashed_w (msg : List Byte) : (s.hashed msg).w = s.w := rfl
@[simp] theorem State.hashed_fl (msg : List Byte) : (s.hashed msg).fl = s.fl := rfl
@[simp] theorem State.hashed_err (msg : List Byte) : (s.hashed msg).err = s.err := rfl
@[simp] theorem State.hashed_halt (msg : List Byte) : (s.hashed msg).halt = s.halt := rfl
@[simp] theorem State.hashed_cause (msg : List Byte) : (s.hashed msg).cause = s.cause := rfl
@[simp] theorem State.hashed_mem (msg : List Byte) : (s.hashed msg).mem = { s.mem with hout := sha256 msg, hblk := lastBlock msg } := rfl
@[simp] theorem State.hashed_sha (msg : List Byte) : (s.hashed msg).sha = ⟨shaChain msg, shaSchedule (lastBlock msg), shaBits msg⟩ := rfl
@[simp] theorem State.hashed_ctr (msg : List Byte) : (s.hashed msg).ctr = s.ctr := rfl
@[simp] theorem State.hashed_wi (msg : List Byte) : (s.hashed msg).wi = s.wi := rfl
@[simp] theorem State.hashed_ni (msg : List Byte) : (s.hashed msg).ni = s.ni := rfl
@[simp] theorem State.hashed_first (msg : List Byte) : (s.hashed msg).first = s.first := rfl
@[simp] theorem State.hashed_seq (msg : List Byte) : (s.hashed msg).seq = s.seq := rfl
@[simp] theorem State.hashed_rxq (msg : List Byte) : (s.hashed msg).rxq = s.rxq := rfl
@[simp] theorem State.hashed_txq (msg : List Byte) : (s.hashed msg).txq = s.txq := rfl
@[simp] theorem State.hashed_uq (msg : List Byte) : (s.hashed msg).uq = s.uq := rfl
@[simp] theorem State.hashed_turns (msg : List Byte) : (s.hashed msg).turns = s.turns := rfl
@[simp] theorem State.hashed_tick (msg : List Byte) : (s.hashed msg).tick = s.tick := rfl

/-! `State.putWord`. -/

@[simp] theorem State.putWord_key (d : WDst) (v : Word) : (s.putWord d v).key = s.key := by cases d <;> rfl
@[simp] theorem State.putWord_par (d : WDst) (v : Word) : (s.putWord d v).par = s.par := by cases d <;> rfl
@[simp] theorem State.putWord_fl (d : WDst) (v : Word) : (s.putWord d v).fl = s.fl := by cases d <;> rfl
@[simp] theorem State.putWord_err (d : WDst) (v : Word) : (s.putWord d v).err = s.err := by cases d <;> rfl
@[simp] theorem State.putWord_halt (d : WDst) (v : Word) : (s.putWord d v).halt = s.halt := by cases d <;> rfl
@[simp] theorem State.putWord_cause (d : WDst) (v : Word) : (s.putWord d v).cause = s.cause := by cases d <;> rfl
@[simp] theorem State.putWord_mem (d : WDst) (v : Word) : (s.putWord d v).mem = s.mem := by cases d <;> rfl
@[simp] theorem State.putWord_sha (d : WDst) (v : Word) : (s.putWord d v).sha = s.sha := by cases d <;> rfl
@[simp] theorem State.putWord_ctr (d : WDst) (v : Word) : (s.putWord d v).ctr = s.ctr := by cases d <;> rfl
@[simp] theorem State.putWord_wi (d : WDst) (v : Word) : (s.putWord d v).wi = s.wi := by cases d <;> rfl
@[simp] theorem State.putWord_ni (d : WDst) (v : Word) : (s.putWord d v).ni = s.ni := by cases d <;> rfl
@[simp] theorem State.putWord_first (d : WDst) (v : Word) : (s.putWord d v).first = s.first := by cases d <;> rfl
@[simp] theorem State.putWord_seq (d : WDst) (v : Word) : (s.putWord d v).seq = s.seq := by cases d <;> rfl
@[simp] theorem State.putWord_rxq (d : WDst) (v : Word) : (s.putWord d v).rxq = s.rxq := by cases d <;> rfl
@[simp] theorem State.putWord_txq (d : WDst) (v : Word) : (s.putWord d v).txq = s.txq := by cases d <;> rfl
@[simp] theorem State.putWord_uq (d : WDst) (v : Word) : (s.putWord d v).uq = s.uq := by cases d <;> rfl
@[simp] theorem State.putWord_turns (d : WDst) (v : Word) : (s.putWord d v).turns = s.turns := by cases d <;> rfl
@[simp] theorem State.putWord_tick (d : WDst) (v : Word) : (s.putWord d v).tick = s.tick := by cases d <;> rfl

/-! `State.putVdst`. -/

@[simp] theorem State.putVdst_key (d : VDst) (v : List Word) : (s.putVdst d v).key = s.key := by cases d <;> rfl
@[simp] theorem State.putVdst_par (d : VDst) (v : List Word) : (s.putVdst d v).par = s.par := by cases d <;> rfl
@[simp] theorem State.putVdst_fl (d : VDst) (v : List Word) : (s.putVdst d v).fl = s.fl := by cases d <;> rfl
@[simp] theorem State.putVdst_err (d : VDst) (v : List Word) : (s.putVdst d v).err = s.err := by cases d <;> rfl
@[simp] theorem State.putVdst_halt (d : VDst) (v : List Word) : (s.putVdst d v).halt = s.halt := by cases d <;> rfl
@[simp] theorem State.putVdst_cause (d : VDst) (v : List Word) : (s.putVdst d v).cause = s.cause := by cases d <;> rfl
@[simp] theorem State.putVdst_mem (d : VDst) (v : List Word) : (s.putVdst d v).mem = s.mem := by cases d <;> rfl
@[simp] theorem State.putVdst_sha (d : VDst) (v : List Word) : (s.putVdst d v).sha = s.sha := by cases d <;> rfl
@[simp] theorem State.putVdst_ctr (d : VDst) (v : List Word) : (s.putVdst d v).ctr = s.ctr := by cases d <;> rfl
@[simp] theorem State.putVdst_wi (d : VDst) (v : List Word) : (s.putVdst d v).wi = s.wi := by cases d <;> rfl
@[simp] theorem State.putVdst_ni (d : VDst) (v : List Word) : (s.putVdst d v).ni = s.ni := by cases d <;> rfl
@[simp] theorem State.putVdst_first (d : VDst) (v : List Word) : (s.putVdst d v).first = s.first := by cases d <;> rfl
@[simp] theorem State.putVdst_seq (d : VDst) (v : List Word) : (s.putVdst d v).seq = s.seq := by cases d <;> rfl
@[simp] theorem State.putVdst_rxq (d : VDst) (v : List Word) : (s.putVdst d v).rxq = s.rxq := by cases d <;> rfl
@[simp] theorem State.putVdst_txq (d : VDst) (v : List Word) : (s.putVdst d v).txq = s.txq := by cases d <;> rfl
@[simp] theorem State.putVdst_uq (d : VDst) (v : List Word) : (s.putVdst d v).uq = s.uq := by cases d <;> rfl
@[simp] theorem State.putVdst_turns (d : VDst) (v : List Word) : (s.putVdst d v).turns = s.turns := by cases d <;> rfl
@[simp] theorem State.putVdst_tick (d : VDst) (v : List Word) : (s.putVdst d v).tick = s.tick := by cases d <;> rfl

/-! `State.forget`. -/

@[simp] theorem State.forget_key : s.forget.key = s.key := rfl
@[simp] theorem State.forget_par : s.forget.par = s.par := rfl
@[simp] theorem State.forget_err : s.forget.err = s.err := rfl
@[simp] theorem State.forget_halt : s.forget.halt = s.halt := rfl
@[simp] theorem State.forget_seq : s.forget.seq = s.seq := rfl
@[simp] theorem State.forget_rxq : s.forget.rxq = s.rxq := rfl
@[simp] theorem State.forget_txq : s.forget.txq = s.txq := rfl
@[simp] theorem State.forget_uq : s.forget.uq = s.uq := rfl
@[simp] theorem State.forget_turns : s.forget.turns = s.turns := rfl

/-! `State.spendCyOrd`. -/

@[simp] theorem State.spendCyOrd_key : s.spendCyOrd.key = s.key := rfl
@[simp] theorem State.spendCyOrd_par : s.spendCyOrd.par = s.par := rfl
@[simp] theorem State.spendCyOrd_w : s.spendCyOrd.w = s.w := rfl
@[simp] theorem State.spendCyOrd_err : s.spendCyOrd.err = s.err := rfl
@[simp] theorem State.spendCyOrd_halt : s.spendCyOrd.halt = s.halt := rfl
@[simp] theorem State.spendCyOrd_cause : s.spendCyOrd.cause = s.cause := rfl
@[simp] theorem State.spendCyOrd_mem : s.spendCyOrd.mem = s.mem := rfl
@[simp] theorem State.spendCyOrd_sha : s.spendCyOrd.sha = s.sha := rfl
@[simp] theorem State.spendCyOrd_ctr : s.spendCyOrd.ctr = s.ctr := rfl
@[simp] theorem State.spendCyOrd_wi : s.spendCyOrd.wi = s.wi := rfl
@[simp] theorem State.spendCyOrd_ni : s.spendCyOrd.ni = s.ni := rfl
@[simp] theorem State.spendCyOrd_first : s.spendCyOrd.first = s.first := rfl
@[simp] theorem State.spendCyOrd_seq : s.spendCyOrd.seq = s.seq := rfl
@[simp] theorem State.spendCyOrd_rxq : s.spendCyOrd.rxq = s.rxq := rfl
@[simp] theorem State.spendCyOrd_txq : s.spendCyOrd.txq = s.txq := rfl
@[simp] theorem State.spendCyOrd_uq : s.spendCyOrd.uq = s.uq := rfl
@[simp] theorem State.spendCyOrd_turns : s.spendCyOrd.turns = s.turns := rfl

/-! `State.spendModexp`. -/

@[simp] theorem State.spendModexp_key : s.spendModexp.key = s.key := rfl
@[simp] theorem State.spendModexp_par : s.spendModexp.par = s.par := rfl
@[simp] theorem State.spendModexp_w : s.spendModexp.w = s.w := rfl
@[simp] theorem State.spendModexp_err : s.spendModexp.err = s.err := rfl
@[simp] theorem State.spendModexp_halt : s.spendModexp.halt = s.halt := rfl
@[simp] theorem State.spendModexp_cause : s.spendModexp.cause = s.cause := rfl
@[simp] theorem State.spendModexp_mem : s.spendModexp.mem = s.mem := rfl
@[simp] theorem State.spendModexp_sha : s.spendModexp.sha = s.sha := rfl
@[simp] theorem State.spendModexp_ctr : s.spendModexp.ctr = s.ctr := rfl
@[simp] theorem State.spendModexp_wi : s.spendModexp.wi = s.wi := rfl
@[simp] theorem State.spendModexp_ni : s.spendModexp.ni = s.ni := rfl
@[simp] theorem State.spendModexp_first : s.spendModexp.first = s.first := rfl
@[simp] theorem State.spendModexp_seq : s.spendModexp.seq = s.seq := rfl
@[simp] theorem State.spendModexp_rxq : s.spendModexp.rxq = s.rxq := rfl
@[simp] theorem State.spendModexp_txq : s.spendModexp.txq = s.txq := rfl
@[simp] theorem State.spendModexp_uq : s.spendModexp.uq = s.uq := rfl
@[simp] theorem State.spendModexp_turns : s.spendModexp.turns = s.turns := rfl

/-! `State.afterMont`. -/

@[simp] theorem State.afterMont_key (st : MontState) : (s.afterMont st).key = s.key := rfl
@[simp] theorem State.afterMont_par (st : MontState) : (s.afterMont st).par = s.par := rfl
@[simp] theorem State.afterMont_err (st : MontState) : (s.afterMont st).err = s.err := rfl
@[simp] theorem State.afterMont_halt (st : MontState) : (s.afterMont st).halt = s.halt := rfl
@[simp] theorem State.afterMont_cause (st : MontState) : (s.afterMont st).cause = s.cause := rfl
@[simp] theorem State.afterMont_mem (st : MontState) : (s.afterMont st).mem = s.mem := rfl
@[simp] theorem State.afterMont_sha (st : MontState) : (s.afterMont st).sha = s.sha := rfl
@[simp] theorem State.afterMont_ctr (st : MontState) : (s.afterMont st).ctr = s.ctr := rfl
@[simp] theorem State.afterMont_wi (st : MontState) : (s.afterMont st).wi = s.wi := rfl
@[simp] theorem State.afterMont_ni (st : MontState) : (s.afterMont st).ni = s.ni := rfl
@[simp] theorem State.afterMont_first (st : MontState) : (s.afterMont st).first = s.first := rfl
@[simp] theorem State.afterMont_seq (st : MontState) : (s.afterMont st).seq = s.seq := rfl
@[simp] theorem State.afterMont_rxq (st : MontState) : (s.afterMont st).rxq = s.rxq := rfl
@[simp] theorem State.afterMont_txq (st : MontState) : (s.afterMont st).txq = s.txq := rfl
@[simp] theorem State.afterMont_uq (st : MontState) : (s.afterMont st).uq = s.uq := rfl
@[simp] theorem State.afterMont_turns (st : MontState) : (s.afterMont st).turns = s.turns := rfl

/-! `State.afterModexp`. -/

@[simp] theorem State.afterModexp_key (w : WRegs) (res : List Word) : (s.afterModexp w res).key = s.key := rfl
@[simp] theorem State.afterModexp_par (w : WRegs) (res : List Word) : (s.afterModexp w res).par = s.par := rfl
@[simp] theorem State.afterModexp_err (w : WRegs) (res : List Word) : (s.afterModexp w res).err = s.err := rfl
@[simp] theorem State.afterModexp_halt (w : WRegs) (res : List Word) : (s.afterModexp w res).halt = s.halt := rfl
@[simp] theorem State.afterModexp_cause (w : WRegs) (res : List Word) : (s.afterModexp w res).cause = s.cause := rfl
@[simp] theorem State.afterModexp_mem (w : WRegs) (res : List Word) : (s.afterModexp w res).mem = s.mem := rfl
@[simp] theorem State.afterModexp_sha (w : WRegs) (res : List Word) : (s.afterModexp w res).sha = s.sha := rfl
@[simp] theorem State.afterModexp_ctr (w : WRegs) (res : List Word) : (s.afterModexp w res).ctr = s.ctr := rfl
@[simp] theorem State.afterModexp_seq (w : WRegs) (res : List Word) : (s.afterModexp w res).seq = s.seq := rfl
@[simp] theorem State.afterModexp_rxq (w : WRegs) (res : List Word) : (s.afterModexp w res).rxq = s.rxq := rfl
@[simp] theorem State.afterModexp_txq (w : WRegs) (res : List Word) : (s.afterModexp w res).txq = s.txq := rfl
@[simp] theorem State.afterModexp_uq (w : WRegs) (res : List Word) : (s.afterModexp w res).uq = s.uq := rfl
@[simp] theorem State.afterModexp_turns (w : WRegs) (res : List Word) : (s.afterModexp w res).turns = s.turns := rfl

/-! `State.afterMgf`. -/

@[simp] theorem State.afterMgf_key (seed : List Byte) (lb : Nat) : (s.afterMgf seed lb).key = s.key := by unfold State.afterMgf; split <;> rfl
@[simp] theorem State.afterMgf_par (seed : List Byte) (lb : Nat) : (s.afterMgf seed lb).par = s.par := by unfold State.afterMgf; split <;> rfl
@[simp] theorem State.afterMgf_w (seed : List Byte) (lb : Nat) : (s.afterMgf seed lb).w = s.w := by unfold State.afterMgf; split <;> rfl
@[simp] theorem State.afterMgf_fl (seed : List Byte) (lb : Nat) : (s.afterMgf seed lb).fl = s.fl := by unfold State.afterMgf; split <;> rfl
@[simp] theorem State.afterMgf_err (seed : List Byte) (lb : Nat) : (s.afterMgf seed lb).err = s.err := by unfold State.afterMgf; split <;> rfl
@[simp] theorem State.afterMgf_halt (seed : List Byte) (lb : Nat) : (s.afterMgf seed lb).halt = s.halt := by unfold State.afterMgf; split <;> rfl
@[simp] theorem State.afterMgf_cause (seed : List Byte) (lb : Nat) : (s.afterMgf seed lb).cause = s.cause := by unfold State.afterMgf; split <;> rfl
@[simp] theorem State.afterMgf_wi (seed : List Byte) (lb : Nat) : (s.afterMgf seed lb).wi = s.wi := by unfold State.afterMgf; split <;> rfl
@[simp] theorem State.afterMgf_ni (seed : List Byte) (lb : Nat) : (s.afterMgf seed lb).ni = s.ni := by unfold State.afterMgf; split <;> rfl
@[simp] theorem State.afterMgf_first (seed : List Byte) (lb : Nat) : (s.afterMgf seed lb).first = s.first := by unfold State.afterMgf; split <;> rfl
@[simp] theorem State.afterMgf_seq (seed : List Byte) (lb : Nat) : (s.afterMgf seed lb).seq = s.seq := by unfold State.afterMgf; split <;> rfl
@[simp] theorem State.afterMgf_rxq (seed : List Byte) (lb : Nat) : (s.afterMgf seed lb).rxq = s.rxq := by unfold State.afterMgf; split <;> rfl
@[simp] theorem State.afterMgf_txq (seed : List Byte) (lb : Nat) : (s.afterMgf seed lb).txq = s.txq := by unfold State.afterMgf; split <;> rfl
@[simp] theorem State.afterMgf_uq (seed : List Byte) (lb : Nat) : (s.afterMgf seed lb).uq = s.uq := by unfold State.afterMgf; split <;> rfl
@[simp] theorem State.afterMgf_turns (seed : List Byte) (lb : Nat) : (s.afterMgf seed lb).turns = s.turns := by unfold State.afterMgf; split <;> rfl
@[simp] theorem State.afterMgf_tick (seed : List Byte) (lb : Nat) : (s.afterMgf seed lb).tick = s.tick := by unfold State.afterMgf; split <;> rfl

/-! What the free updates write. -/

@[simp] theorem State.forget_w : s.forget.w = WRegs.free s.tick := rfl
@[simp] theorem State.forget_fl : s.forget.fl = Flags.free s.tick := rfl
@[simp] theorem State.forget_mem : s.forget.mem = Memory.free s.tick := rfl
@[simp] theorem State.forget_sha : s.forget.sha = ShaRegs.free s.tick := rfl
@[simp] theorem State.forget_tick : s.forget.tick = s.tick + 1 := rfl
@[simp] theorem State.spendModexp_bw : s.spendModexp.fl.bw = s.fl.bw := rfl
@[simp] theorem State.spendModexp_valid : s.spendModexp.fl.valid = s.fl.valid := rfl
@[simp] theorem State.afterMont_w (st : MontState) :
    (s.afterMont st).w = { s.w with acc := st.acc, cw := st.cw, t := st.t } := rfl
@[simp] theorem State.afterModexp_w (w : WRegs) (res : List Word) :
    (s.afterModexp w res).w = { w with zz := res, res := res } := rfl
@[simp] theorem State.afterReset_key : s.afterReset.key = s.key := by simp only [State.afterReset, State.reset]
@[simp] theorem State.afterReset_par : s.afterReset.par = s.par := by simp only [State.afterReset, State.reset]
@[simp] theorem State.afterReset_seq : s.afterReset.seq = .idle := rfl
@[simp] theorem State.afterReset_halt : s.afterReset.halt = false := rfl
@[simp] theorem State.afterReset_err : s.afterReset.err = false := rfl
@[simp] theorem State.afterReset_rxq : s.afterReset.rxq = [] := rfl
@[simp] theorem State.afterReset_txq : s.afterReset.txq = [] := rfl
@[simp] theorem State.afterReset_uq : s.afterReset.uq = [] := rfl
@[simp] theorem State.afterReset_turns : s.afterReset.turns = s.turns := by simp only [State.afterReset, State.reset]
@[simp] theorem State.afterReset_mem : s.afterReset.mem = Memory.reset := rfl
@[simp] theorem State.afterReset_sha : s.afterReset.sha = ShaRegs.reset := rfl

/-! `State.abandon`. -/

@[simp] theorem State.abandon_key : s.abandon.key = s.key := rfl
@[simp] theorem State.abandon_par : s.abandon.par = s.par := rfl
@[simp] theorem State.abandon_w : s.abandon.w = s.forget.w := rfl
@[simp] theorem State.abandon_fl : s.abandon.fl = s.forget.fl := rfl
@[simp] theorem State.abandon_err : s.abandon.err = s.err := rfl
@[simp] theorem State.abandon_halt : s.abandon.halt = s.halt := rfl
@[simp] theorem State.abandon_cause : s.abandon.cause = s.forget.cause := rfl
@[simp] theorem State.abandon_mem :
    s.abandon.mem = { s.forget.mem with digest := s.mem.digest, sigbuf := s.abandonedSigbuf } := rfl
@[simp] theorem State.abandon_sha : s.abandon.sha = s.forget.sha := rfl
@[simp] theorem State.abandon_ctr : s.abandon.ctr = s.forget.ctr := rfl
@[simp] theorem State.abandon_wi : s.abandon.wi = s.forget.wi := rfl
@[simp] theorem State.abandon_ni : s.abandon.ni = s.forget.ni := rfl
@[simp] theorem State.abandon_first : s.abandon.first = s.forget.first := rfl
@[simp] theorem State.abandon_seq : s.abandon.seq = s.seq := rfl
@[simp] theorem State.abandon_rxq : s.abandon.rxq = s.rxq := rfl
@[simp] theorem State.abandon_txq : s.abandon.txq = s.txq := rfl
@[simp] theorem State.abandon_uq : s.abandon.uq = s.uq := rfl
@[simp] theorem State.abandon_turns : s.abandon.turns = s.turns := rfl
@[simp] theorem State.abandon_tick : s.abandon.tick = s.forget.tick := rfl

end Sys2Proof.Machine
end

