-- ==== Sys2Proof/Laws/Ops.lean ====
section
/-! SUPPORT. The shared operations: what an operand read gives, what the end of a unit operation can be, and one
lemma for each way of carrying a fact through an operation. -/

namespace Sys2Proof.Machine

/-! Operand reads. -/

theorem State.vec_some {s : State} {n : Nat} {x : VSrc} {v : List Word} (h : s.vec n x = some v) :
    1 ≤ n ∧ v.length = n := by
  unfold State.vec at h
  split at h
  · rename_i hc
    cases h
    exact hc
  · cases h

theorem withVec_some {s : State} {n : Nat} {x : VSrc} {v : List Word} (h : s.vec n x = some v)
    (k : List Word → UResult) : withVec s n x k = k v := by simp [withVec, h]

theorem withVec_none {s : State} {n : Nat} {x : VSrc} (h : s.vec n x = none) (k : List Word → UResult) :
    withVec s n x k = .refused .operandWidth := by simp [withVec, h]

theorem withWord_some {s : State} {x : WSrc} {v : Word} (h : s.word x = some v) (k : Word → UResult) :
    withWord s x k = k v := by simp [withWord, h]

theorem withReg_eq {s : State} {n : Nat} {r : VReg} (h : (s.w.get r).length = n) (k : UResult) : withReg s n r k = k := by
  simp [withReg, h]

theorem withReg_ne {s : State} {n : Nat} {r : VReg} (h : (s.w.get r).length ≠ n) (k : UResult) :
    withReg s n r k = .refused .operandWidth := by simp [withReg, h]

theorem withAcc_eq {s : State} {n : Nat} (h : s.w.acc.length = 2 * n) (k : UResult) : withAcc s n k = k := by
  simp [withAcc, h]

theorem withRegs_true {s : State} {n : Nat} (h : s.w.wf n = true) (k : UResult) : withRegs s n k = k := by
  simp [withRegs, h]

theorem withWordDst_true {s : State} {d : WDst} (h : s.hasWord d = true) (k : UResult) : withWordDst s d k = k := by
  simp [withWordDst, h]

theorem withBytes_some {s : State} {b : BSrc} {v : List Byte} (h : s.bytes b = some v) (k : List Byte → UResult) :
    withBytes s b k = k v := by simp [withBytes, h]

theorem withSlice_true {s : State} {l : Slice} (h : s.fits l = true) (k : UResult) : withSlice s l k = k := by
  simp [withSlice, h]

/-- FROMBE of the right number of bytes to a register of the right width (R132). -/
theorem frombeTo_eq {s : State} {n : Nat} {d : VReg} {bs : List Byte} (hn : 1 ≤ n) (hb : bs.length = 4 * n)
    (hd : (s.w.get d).length = n) : frombeTo n bs d s = .done (s.putReg d (fromBE bs)) := by
  unfold frombeTo
  rw [if_pos ⟨hn, hb⟩, withReg_eq hd]

theorem State.fits_iff (s : State) (l : Slice) : s.fits l = true ↔ l.len = 0 ∨ l.off + l.len ≤ (s.mem.get l.buf).length := by
  simp [State.fits]

/-! The outcomes. -/

/-- The state of an outcome, normal or abnormal, satisfies `P`. -/
def UResult.Post (P : State → Prop) : UResult → Prop
  | .done s => P s
  | .encodingError _ s => P s
  | .fatal _ s => P s
  | .refused _ => True

theorem UResult.Post.mono {P Q : State → Prop} (h : ∀ s, P s → Q s) {u : UResult} (hu : u.Post P) : u.Post Q := by
  cases u
  · exact h _ hu
  · exact h _ hu
  · exact h _ hu
  · trivial

theorem UResult.Post.bind {P Q : State → Prop} {u : UResult} {k : State → UResult} (hu : u.Post P)
    (hk : ∀ s, P s → (k s).Post Q) (hpq : ∀ s, P s → Q s) : (u.bind k).Post Q := by
  cases u
  · exact hk _ hu
  · exact hpq _ hu
  · exact hpq _ hu
  · trivial

theorem withVec_post {P : State → Prop} {s : State} {n : Nat} {x : VSrc} {k : List Word → UResult}
    (h : ∀ v, s.vec n x = some v → (k v).Post P) : (withVec s n x k).Post P := by
  unfold withVec
  split
  · exact h _ ‹_›
  · trivial

theorem withWord_post {P : State → Prop} {s : State} {x : WSrc} {k : Word → UResult}
    (h : ∀ v, s.word x = some v → (k v).Post P) : (withWord s x k).Post P := by
  unfold withWord
  split
  · exact h _ ‹_›
  · trivial

theorem withWordDst_post {P : State → Prop} {s : State} {d : WDst} {k : UResult}
    (h : s.hasWord d = true → k.Post P) : (withWordDst s d k).Post P := by
  unfold withWordDst
  split
  · exact h ‹_›
  · trivial

theorem withReg_post {P : State → Prop} {s : State} {n : Nat} {r : VReg} {k : UResult}
    (h : (s.w.get r).length = n → k.Post P) : (withReg s n r k).Post P := by
  unfold withReg
  split
  · exact h ‹_›
  · trivial

theorem withAcc_post {P : State → Prop} {s : State} {n : Nat} {k : UResult}
    (h : s.w.acc.length = 2 * n → k.Post P) : (withAcc s n k).Post P := by
  unfold withAcc
  split
  · exact h ‹_›
  · trivial

theorem withRegs_post {P : State → Prop} {s : State} {n : Nat} {k : UResult}
    (h : s.w.wf n = true → k.Post P) : (withRegs s n k).Post P := by
  unfold withRegs
  split
  · exact h ‹_›
  · trivial

theorem withBytes_post {P : State → Prop} {s : State} {b : BSrc} {k : List Byte → UResult}
    (h : ∀ v, s.bytes b = some v → (k v).Post P) : (withBytes s b k).Post P := by
  unfold withBytes
  split
  · exact h _ ‹_›
  · trivial

theorem withSlice_post {P : State → Prop} {s : State} {l : Slice} {k : UResult}
    (h : s.fits l = true → k.Post P) : (withSlice s l k).Post P := by
  unfold withSlice
  split
  · exact h ‹_›
  · trivial

/-- Everything the end of a unit operation can be, where it gives a next state. -/
theorem finishUnit_next {u : UResult} {t : State} (h : finishUnit u = .next t) :
    u = .done t ∨ (∃ c s, u = .encodingError c s ∧ t = s.raiseEncoding c)
      ∨ ∃ c s, u = .fatal c s ∧ t = s.raiseFatal c := by
  cases u <;> simp [finishUnit] at h
  · exact .inl (by rw [h])
  · exact .inr (.inl ⟨_, _, rfl, h.symm⟩)
  · exact .inr (.inr ⟨_, _, rfl, h.symm⟩)

/-- Everything the end of a command's unit operations can be, where it gives a next state. -/
theorem finishCommand_next {q : Seq} {u : UResult} {t : State} (h : finishCommand q u = .next t) :
    (∃ s, u = .done s ∧ t = s.goto q) ∨ (∃ c s, u = .encodingError c s ∧ t = (s.raiseEncoding c).goto .txe)
      ∨ ∃ c s, u = .fatal c s ∧ t = s.raiseFatal c := by
  cases u <;> simp [finishCommand] at h
  · exact .inl ⟨_, rfl, h.symm⟩
  · exact .inr (.inl ⟨_, _, rfl, h.symm⟩)
  · exact .inr (.inr ⟨_, _, rfl, h.symm⟩)

theorem finishUnit_post {P Q : State → Prop} {u : UResult} {t : State} (hu : u.Post P) (h : finishUnit u = .next t)
    (hd : ∀ s, P s → Q s) (he : ∀ s c, P s → Q (s.raiseEncoding c)) (hf : ∀ s c, P s → Q (s.raiseFatal c)) : Q t := by
  rcases finishUnit_next h with rfl | ⟨c, s, rfl, rfl⟩ | ⟨c, s, rfl, rfl⟩
  · exact hd _ hu
  · exact he _ _ hu
  · exact hf _ _ hu

/-! Writes of bytes. -/

theorem State.putBytes_outside (s : State) (b : Buf) (off : Nat) (bs : List Byte)
    (h : s.fits ⟨b, off, bs.length⟩ = true) : SameBytesOutside s (s.putBytes b off bs) ⟨b, off, bs.length⟩ := by
  rw [State.fits_iff] at h
  intro c i hi
  exact Memory.byte_write_outside s.mem b c off i bs h hi

theorem State.putBytes_inside (s : State) (b : Buf) (off i : Nat) (bs : List Byte)
    (h : s.fits ⟨b, off, bs.length⟩ = true) (hi : i < bs.length) :
    (s.putBytes b off bs).mem.byte b (off + i) = bs[i]? := by
  rw [State.fits_iff] at h
  exact Memory.byte_write_inside s.mem b off i bs (h.resolve_left (by simp only; omega)) hi

theorem State.wf_putBytes (s : State) (b : Buf) (off : Nat) (bs : List Byte) (hw : s.mem.wf = true)
    (h : s.fits ⟨b, off, bs.length⟩ = true) : (s.putBytes b off bs).mem.wf = true := by
  rw [State.fits_iff] at h
  have := (Memory.wf_iff s.mem).1 hw b
  exact Memory.wf_write s.mem b off bs hw (by simp only at h; omega)

/-- A hash leaves buffers and SHA unit of their sizes. -/
theorem State.wf_hashed (s : State) (msg : List Byte) (hw : s.mem.wf = true) :
    (s.hashed msg).mem.wf = true ∧ (s.hashed msg).sha.wf = true := by
  constructor
  · rw [Memory.wf_iff] at *
    intro b
    cases b
    · exact hw .digest
    · exact hw .salt
    · exact hw .em
    · exact hw .sigbuf
    · exact sha256_length msg
    · exact lastBlock_length msg
  · simp [State.hashed, ShaRegs.wf, shaChain_length, shaSchedule_length]

theorem State.wf_afterMgf (s : State) (seed : List Byte) (lb : Nat) (hw : s.mem.wf = true) (hs : s.sha.wf = true) :
    (s.afterMgf seed lb).mem.wf = true ∧ (s.afterMgf seed lb).sha.wf = true := by
  unfold State.afterMgf
  simp only
  split
  · exact ⟨hw, hs⟩
  · exact State.wf_hashed _ _ hw

end Sys2Proof.Machine
end

