-- ==== Sys2Proof/Laws/Mgf.lean ====
section
/-! SUPPORT. The loop of MGF1XOR (R241): what it comes to on a buffer that no hash writes, and on `HOUT` and `HBLK`,
which every hash writes. -/

namespace Sys2Proof.Machine

theorem splice_splice {α : Type} (xs a b : List α) {off n : Nat} (hn : a.length = n)
    (h : off + (n + b.length) ≤ xs.length) : splice (splice xs off a) (off + n) b = splice xs off (a ++ b) := by
  subst hn
  have e : (xs.take off).length = off := by simp; omega
  unfold splice
  have h1 : (xs.take off ++ a ++ xs.drop (off + a.length)).take (off + a.length) = xs.take off ++ a :=
    List.take_left' (by simp [e])
  have h2 : (xs.take off ++ a ++ xs.drop (off + a.length)).drop (off + a.length + b.length)
      = xs.drop (off + (a ++ b).length) := by
    rw [← List.drop_drop, List.drop_left' (by simp [e]), List.drop_drop, List.length_append, Nat.add_assoc]
  rw [h1, h2, List.append_assoc (xs.take off)]

theorem window_succ (xs : List Byte) (off n : Nat) (h : off + n < xs.length) :
    window xs off (n + 1) = window xs off n ++ [xs.getD (off + n) 0] := by
  unfold window
  rw [List.take_add_one, List.getElem?_drop, List.getElem?_eq_getElem h, List.getD_eq_getElem _ _ h]
  rfl

theorem take_succ_getD (xs : List Byte) (n : Nat) (h : n < xs.length) : xs.take (n + 1) = xs.take n ++ [xs.getD n 0] := by
  rw [List.take_add_one, List.getElem?_eq_getElem h, List.getD_eq_getElem _ _ h]
  rfl

/-- The bytes `n` steps of the inner loop write, for a buffer that is not `HOUT`. -/
def xorRun (xs hout : List Byte) (off n : Nat) : List Byte := List.zipWith (· ^^^ ·) (window xs off n) (hout.take n)

theorem xorRun_length (xs hout : List Byte) (off n : Nat) (h : off + n ≤ xs.length) (hh : n ≤ hout.length) :
    (xorRun xs hout off n).length = n := by
  unfold xorRun
  rw [List.length_zipWith, window_length _ _ _ h, List.length_take]
  omega

theorem xorRun_succ (xs hout : List Byte) (off n : Nat) (h : off + n < xs.length) (hh : n < hout.length) :
    xorRun xs hout off (n + 1) = xorRun xs hout off n ++ [xs.getD (off + n) 0 ^^^ hout.getD n 0] := by
  unfold xorRun
  rw [window_succ _ _ _ h, take_succ_getD _ _ hh, List.zipWith_append
    (by rw [window_length _ _ _ (by omega), List.length_take]; omega)]
  rfl

theorem Memory.write_put (m : Memory) (b : Buf) (xs : List Byte) (off : Nat) (bs : List Byte) :
    (m.put b xs).write b off bs = m.put b (splice xs off bs) := by
  unfold Memory.write
  rw [Memory.get_put_self]
  cases b <;> rfl

/-- The inner loop on a buffer that is not `HOUT`. -/
theorem mgfBytes_eq (b : Buf) (hb : b ≠ .hout) (off n : Nat) (m : Memory) (h : off + n ≤ (m.get b).length)
    (hn : n ≤ m.hout.length) :
    (List.range n).foldl (mgfByte b off) m = m.write b off (xorRun (m.get b) m.hout off n) := by
  induction n with
  | zero =>
    simp only [List.range_zero, List.foldl_nil, xorRun, List.take_zero, List.zipWith_nil_right, Memory.write, splice_nil]
    cases b <;> rfl
  | succ n ih =>
    have hl := xorRun_length (m.get b) m.hout off n (by omega) (by omega)
    have h0 : (m.write b off (xorRun (m.get b) m.hout off n)).hout = m.hout :=
      Memory.get_put_ne m (splice (m.get b) off (xorRun (m.get b) m.hout off n)) (b := b) (c := .hout) fun e => hb e.symm
    have h1 : ((m.write b off (xorRun (m.get b) m.hout off n)).get b).getD (off + n) 0 = (m.get b).getD (off + n) 0 := by
      have := Memory.byte_write_outside m b b off (off + n) (xorRun (m.get b) m.hout off n) (by omega) (by omega)
      simp only [Memory.byte] at this
      rw [List.getD_eq_getElem?_getD, List.getD_eq_getElem?_getD, this]
    rw [List.range_succ, List.foldl_append, ih (by omega) (by omega), List.foldl_cons, List.foldl_nil]
    unfold mgfByte
    rw [h0, h1, xorRun_succ _ _ _ _ (by omega) (by omega)]
    conv_lhs => rw [Memory.write.eq_def m b off]
    rw [Memory.write_put, splice_splice _ _ _ hl h]
    rfl

/-- What one round leaves of a state, but for the slice. -/
def State.mgfHash (s : State) (seed : List Byte) (c : Nat) : State :=
  ({ s with ctr := BitVec.ofNat 32 c }).hashed (seed ++ be4 (BitVec.ofNat 32 c))

theorem mgfRound_eq (l : Slice) (hb : l.buf ≠ .hout) (seed : List Byte) (s : State) (c : Nat)
    (h : l.off + l.len ≤ ((s.mgfHash seed c).mem.get l.buf).length) :
    mgfRound l seed s c = (s.mgfHash seed c).putBytes l.buf (l.off + 32 * c)
      (xorRun ((s.mgfHash seed c).mem.get l.buf) (mgfBlock seed c) (l.off + 32 * c) (min 32 (l.len - 32 * c))) := by
  by_cases hc : 32 * c ≤ l.len
  · have e := mgfBytes_eq l.buf hb (l.off + 32 * c) (min 32 (l.len - 32 * c)) (s.mgfHash seed c).mem (by omega)
      (by have := mgfBlock_length seed c; show _ ≤ (mgfBlock seed c).length; omega)
    exact congrArg ((s.mgfHash seed c).setMem) e
  · have e0 : l.len - 32 * c = 0 := by omega
    have e := mgfBytes_eq l.buf hb 0 0 (s.mgfHash seed c).mem (by omega) (by omega)
    have hx : ∀ xs o, xorRun xs (mgfBlock seed c) o 0 = [] := fun xs o => by simp [xorRun]
    unfold mgfRound State.putBytes
    rw [e0, Nat.min_zero, hx, Memory.write, splice_nil]
    have : ∀ m : Memory, m.put l.buf (m.get l.buf) = m := fun m => by cases l.buf <;> rfl
    rw [this]
    rfl

theorem State.mgfHash_putBytes (s : State) (seed : List Byte) (c : Nat) (b : Buf) (off : Nat) (bs : List Byte)
    (h1 : b ≠ .hout) (h2 : b ≠ .hblk) :
    (s.putBytes b off bs).mgfHash seed c = (s.mgfHash seed c).putBytes b off bs := by
  cases b <;> first | rfl | exact absurd rfl h1 | exact absurd rfl h2

theorem window_add {α : Type} (xs : List α) (off p n : Nat) :
    window xs off (p + n) = window xs off p ++ window xs (off + p) n := by
  unfold window
  rw [List.take_add, List.drop_drop]

theorem window_splice_after {α : Type} (xs a : List α) {off p n : Nat} (hp : a.length = p)
    (h : off + p ≤ xs.length) : window (splice xs off a) (off + p) n = window xs (off + p) n := by
  subst hp
  unfold window splice
  rw [List.drop_left' (by simp; omega)]

/-- The bytes of two runs join. -/
theorem xorRun_append (xs a b : List Byte) (off n : Nat) (h : off + a.length ≤ xs.length) :
    xorRun xs a off a.length ++ xorRun xs b (off + a.length) n = xorRun xs (a ++ b) off (a.length + n) := by
  unfold xorRun
  rw [← List.zipWith_append (by rw [window_length _ _ _ h, List.length_take]; omega), window_add, List.take_length,
    List.take_length_add_append]

/-- The rounds of R241 so far, for a buffer that no hash writes. -/
theorem mgfRounds_eq (l : Slice) (h1 : l.buf ≠ .hout) (h2 : l.buf ≠ .hblk) (seed : List Byte) (s : State)
    (hf : l.off + l.len ≤ (s.mem.get l.buf).length) (k : Nat) (hk : k < mgfHashes l.len) :
    (List.range (k + 1)).foldl (mgfRound l seed) { s with ctr := 0 }
      = (s.mgfHash seed k).putBytes l.buf l.off
          (xorRun (s.mem.get l.buf) ((List.range (k + 1)).flatMap (mgfBlock seed)) l.off (min l.len (32 * (k + 1)))) := by
  have hget : ∀ (t : State) c, (t.mgfHash seed c).mem.get l.buf = t.mem.get l.buf := fun t c => by
    cases hb : l.buf <;> first | rfl | exact absurd hb h1 | exact absurd hb h2
  have hlt : 32 * k < l.len := by unfold mgfHashes at hk; omega
  induction k with
  | zero =>
    rw [List.range_succ, List.foldl_append, List.range_zero, List.foldl_nil, List.foldl_cons, List.foldl_nil,
      mgfRound_eq l h1 seed _ 0 (by rw [hget]; exact hf), hget]
    simp only [List.flatMap_nil, List.flatMap_cons, List.nil_append, List.append_nil, Nat.mul_zero,
      Nat.add_zero, Nat.sub_zero, Nat.zero_add, Nat.mul_one, Nat.min_comm]
    rfl
  | succ k ih =>
    have hblk := flatMap_block_length seed (List.range (k + 1))
    rw [List.length_range] at hblk
    rw [List.range_succ, List.foldl_append, ih (by omega) (by omega), List.foldl_cons, List.foldl_nil,
      List.flatMap_append, List.flatMap_cons, List.flatMap_nil, List.append_nil]
    rw [Nat.min_eq_right (show 32 * (k + 1) ≤ l.len by omega), show min l.len (32 * (k + 1 + 1))
      = 32 * (k + 1) + min 32 (l.len - 32 * (k + 1)) by omega]
    generalize (List.range (k + 1)).flatMap (mgfBlock seed) = a at *
    rw [← hblk]
    have hl := xorRun_length (s.mem.get l.buf) a l.off a.length (by omega) (Nat.le_refl _)
    have hg : (((s.mgfHash seed k).putBytes l.buf l.off (xorRun (s.mem.get l.buf) a l.off a.length)).mem.get l.buf)
        = splice (s.mem.get l.buf) l.off (xorRun (s.mem.get l.buf) a l.off a.length) := by
      unfold State.putBytes Memory.write
      rw [Memory.get_put_self, hget]
    rw [mgfRound_eq l h1 seed _ (k + 1) (by rw [hget, hg, splice_length _ _ _ (by omega)]; exact hf), hget, hg]
    rw [State.mgfHash_putBytes _ _ _ _ _ _ h1 h2]
    have hx : ∀ n, xorRun (splice (s.mem.get l.buf) l.off (xorRun (s.mem.get l.buf) a l.off a.length))
        (mgfBlock seed (k + 1)) (l.off + a.length) n
        = xorRun (s.mem.get l.buf) (mgfBlock seed (k + 1)) (l.off + a.length) n := fun n => by
      have := window_splice_after (s.mem.get l.buf) (xorRun (s.mem.get l.buf) a l.off a.length) (off := l.off) (n := n) hl
        (by omega)
      rw [xorRun, this]
      rfl
    rw [← hblk, hx, ← xorRun_append _ a _ _ _ (by omega)]
    have hs : ∀ (t : State) (x y : List Byte), x.length = a.length → l.off + (a.length + y.length) ≤ (t.mem.get l.buf).length →
        (t.putBytes l.buf l.off x).putBytes l.buf (l.off + a.length) y = t.putBytes l.buf l.off (x ++ y) :=
      fun t x y hx hy => by
        unfold State.putBytes
        simp only
        conv_lhs => rw [Memory.write.eq_def t.mem]
        rw [Memory.write_put, splice_splice _ _ _ hx hy]
        rfl
    refine hs _ _ _ hl ?_
    have hl2 := xorRun_length (s.mem.get l.buf) (mgfBlock seed (k + 1)) (l.off + a.length) (min 32 (l.len - a.length))
      (by omega) (by rw [mgfBlock_length]; omega)
    rw [hl2, hget, hget]
    omega

theorem hashes_pos {n : Nat} (h : 0 < n) : mgfHashes n = mgfHashes n - 1 + 1 := by unfold mgfHashes; omega

/-- MGF1XOR on a buffer that no hash writes (R241): the mask, the last hash and `CTR`. -/
theorem mgfLoop_eq (l : Slice) (h1 : l.buf ≠ .hout) (h2 : l.buf ≠ .hblk) (seed : List Byte) (s : State)
    (hf : s.fits l = true) :
    mgfLoop l seed s
      = (s.afterMgf seed l.len).putBytes l.buf l.off (mgfXor (window (s.mem.get l.buf) l.off l.len) seed) := by
  unfold mgfLoop State.afterMgf
  by_cases h0 : l.len = 0
  · have e : ∀ m : Memory, m.put l.buf (m.get l.buf) = m := fun m => by cases l.buf <;> rfl
    simp [h0, mgfHashes, window, mgfXor, State.putBytes, Memory.write, splice_nil, e]
  · have hf' := ((State.fits_iff _ _).1 hf).resolve_left h0
    have hk := hashes_pos (Nat.pos_of_ne_zero h0)
    rw [hk, mgfRounds_eq l h1 h2 seed s hf' _ (by omega), ← hk, Nat.min_eq_left (by unfold mgfHashes; omega)]
    simp only
    rw [if_neg h0]
    unfold xorRun mgfXor mgfMask
    rw [window_length _ _ _ hf']
    rfl

/-! `HOUT` and `HBLK`. -/

/-- Every hash writes the whole of `HBLK`, so only the last round's bytes stay. -/
theorem mgfRounds_hblk (l : Slice) (hb : l.buf = .hblk) (seed : List Byte) (s : State)
    (hf : ∀ m, l.off + l.len ≤ (lastBlock m).length) (k : Nat) :
    (List.range (k + 1)).foldl (mgfRound l seed) { s with ctr := 0 } = mgfRound l seed s k := by
  have hn : l.buf ≠ .hout := by rw [hb]; simp
  have hg : ∀ (t : State) c, ((t.mgfHash seed c).mem.get l.buf) = lastBlock (seed ++ be4 (BitVec.ofNat 32 c)) :=
    fun t c => by rw [hb]; rfl
  have hr : ∀ (t : State) c, mgfRound l seed t c = (t.mgfHash seed c).putBytes .hblk (l.off + 32 * c)
      (xorRun (lastBlock (seed ++ be4 (BitVec.ofNat 32 c))) (mgfBlock seed c) (l.off + 32 * c)
        (min 32 (l.len - 32 * c))) := fun t c => by
    rw [mgfRound_eq l hn seed t c (by rw [hg]; exact hf _), hg, hb]
  induction k with
  | zero =>
    rw [List.range_succ, List.foldl_append, List.range_zero, List.foldl_nil, List.foldl_cons, List.foldl_nil, hr, hr]
    rfl
  | succ k ih =>
    rw [List.range_succ, List.foldl_append, ih, List.foldl_cons, List.foldl_nil, hr, hr, hr]
    rfl

/-- MGF1XOR on `HBLK` (R241): the last hash's block, with the last round's bytes masked. -/
theorem mgfLoop_hblk (off len : Nat) (h0 : 0 < len) (hf : off + len ≤ 64) (seed : List Byte) (s : State) :
    let c := mgfHashes len - 1
    let blk := lastBlock (seed ++ be4 (BitVec.ofNat 32 c))
    mgfLoop ⟨.hblk, off, len⟩ seed s
      = (s.afterMgf seed len).putBytes .hblk (off + 32 * c) (xorRun blk (mgfBlock seed c) (off + 32 * c) (len - 32 * c)) := by
  intro c blk
  have hk := hashes_pos h0
  have hl : ∀ m, off + len ≤ (lastBlock m).length := fun m => by rw [lastBlock_length]; exact hf
  unfold mgfLoop State.afterMgf
  rw [hk, mgfRounds_hblk ⟨.hblk, off, len⟩ rfl seed s hl,
    mgfRound_eq ⟨.hblk, off, len⟩ (by simp) seed s _ (by exact hl _)]
  simp only
  rw [if_neg (by omega), Nat.min_eq_right (by unfold mgfHashes; omega)]
  rfl

/-- The inner loop on `HOUT` itself: byte `q` is read when the loop comes to it, whatever it then holds. -/
theorem mgfBytes_hout (off n : Nat) (m : Memory) (h : off + n ≤ m.hout.length) :
    ∃ f : List Byte, (List.range n).foldl (mgfByte .hout off) m = { m with hout := f } ∧ f.length = m.hout.length
      ∧ (∀ i, i < off ∨ off + n ≤ i → f[i]? = m.hout[i]?)
      ∧ ∀ q, q < n → f.getD (off + q) 0 = m.hout.getD (off + q) 0 ^^^ (if off = 0 then m.hout else f).getD q 0 := by
  induction n with
  | zero => exact ⟨m.hout, rfl, rfl, fun _ _ => rfl, fun q hq => absurd hq (by omega)⟩
  | succ n ih =>
    obtain ⟨f, e, hl, ho, hi⟩ := ih (by omega)
    rw [List.range_succ, List.foldl_append, e, List.foldl_cons, List.foldl_nil]
    have hset : ∀ v, splice f (off + n) [v] = f.set (off + n) v := fun v => by
      unfold splice
      rw [List.set_eq_take_append_cons_drop, if_pos (by omega)]
      simp
    refine ⟨f.set (off + n) (f.getD (off + n) 0 ^^^ f.getD n 0), ?_, by simp [hl], fun i hi' => ?_, fun q hq => ?_⟩
    · rw [← hset]; rfl
    · rw [List.getElem?_set_ne (by omega)]; exact ho i (by omega)
    · have hn0 : f.getD (off + n) 0 = m.hout.getD (off + n) 0 := by
        rw [List.getD_eq_getElem?_getD, List.getD_eq_getElem?_getD, ho _ (by omega)]
      have hne : ∀ i v, i ≠ off + n → (f.set (off + n) v).getD i 0 = f.getD i 0 := fun i v hi => by
        rw [List.getD_eq_getElem?_getD, List.getD_eq_getElem?_getD, List.getElem?_set_ne (by omega)]
      rcases Nat.lt_succ_iff_lt_or_eq.1 hq with hq | rfl
      · rw [hne _ _ (by omega), hi q hq]
        split
        · rfl
        · rw [hne _ _ (by omega)]
      · rw [List.getD_eq_getElem?_getD, List.getElem?_set_self (by omega), Option.getD_some, hn0]
        by_cases h0 : off = 0
        · subst h0
          rw [if_pos rfl]
          simp only [Nat.zero_add] at hn0
          rw [hn0]
        · rw [if_neg h0, hne _ _ (by omega)]

/-- MGF1XOR on `HOUT` (R241, R73): the hash overwrites the slice before its bytes are read. -/
theorem mgfLoop_hout (off len : Nat) (h0 : 0 < len) (hf : off + len ≤ 32) (seed : List Byte) (s : State) :
    ∃ f : List Byte, mgfLoop ⟨.hout, off, len⟩ seed s
        = (s.afterMgf seed len).setMem { (s.afterMgf seed len).mem with hout := f }
      ∧ f.length = 32 ∧ (∀ i, i < off ∨ off + len ≤ i → f[i]? = (mgfBlock seed 0)[i]?)
      ∧ ∀ q, q < len → f.getD (off + q) 0
          = (mgfBlock seed 0).getD (off + q) 0 ^^^ (if off = 0 then mgfBlock seed 0 else f).getD q 0 := by
  have hk : mgfHashes len = 1 := by unfold mgfHashes; omega
  obtain ⟨f, e, hl, ho, hi⟩ := mgfBytes_hout off len (s.mgfHash seed 0).mem
    (by show off + len ≤ (mgfBlock seed 0).length; rw [mgfBlock_length]; exact hf)
  refine ⟨f, ?_, hl.trans (mgfBlock_length _ _), ho, hi⟩
  unfold mgfLoop State.afterMgf
  rw [hk, List.range_succ, List.range_zero, List.nil_append, List.foldl_cons, List.foldl_nil]
  simp only
  rw [if_neg (by omega)]
  unfold mgfRound
  simp only [Nat.mul_zero, Nat.add_zero, Nat.sub_zero]
  rw [Nat.min_eq_right (by omega)]
  exact congrArg ((s.mgfHash seed 0).setMem) e

end Sys2Proof.Machine
end

