-- ==== Sys2Proof/Laws/Reduce.lean ====
section
/-! SUPPORT. The reductions: REMV (R127), MONTFIX (R164), RRCALC (R165) and N0INV (R161) as integers. -/

namespace Sys2Proof.Machine

theorem reduceOnce_length (m r : List Word) (c : Bool) (h : r.length = m.length) :
    (reduceOnce m r c).length = m.length := by
  unfold reduceOnce
  split
  · rw [subv_length r m false h, h]
  · exact h

/-- One conditional subtraction brings a value below `2*M` below `M`. -/
theorem reduceOnce_val (m r : List Word) (c : Bool) (h : r.length = m.length)
    (hv : val r + c.toNat * radix m.length < 2 * val m) :
    val (reduceOnce m r c) = (val r + c.toNat * radix m.length) % val m := by
  have hs := subv_law r m false h
  have hm := val_lt_radix m
  have hr := val_lt_radix r
  have hz := val_lt_radix (subv r m false).1
  rw [subv_length r m false h] at hz
  rw [h] at hs hr hz
  unfold reduceOnce
  rw [cmpv_ne_lt r m h]
  cases c with
  | true =>
    simp only [Bool.true_or, if_true, Bool.toNat_true, Bool.toNat_false] at *
    rw [Nat.mod_eq_sub_mod (by omega), Nat.mod_eq_of_lt (by omega)]
    cases hb : (subv r m false).2 <;> simp [hb] at hs <;> omega
  | false =>
    simp only [Bool.false_or, decide_eq_true_eq, Bool.toNat_false, Nat.zero_mul, Nat.add_zero] at *
    split
    · rw [Nat.mod_eq_sub_mod (by omega), Nat.mod_eq_of_lt (by omega)]
      cases hb : (subv r m false).2 <;> simp [hb] at hs <;> omega
    · rw [Nat.mod_eq_of_lt (by omega)]

theorem addBit_length (b : Bool) (d : List Word) : (addBit b d).length = d.length := by
  cases d <;> simp [addBit]

theorem addBit_val (b : Bool) (d : List Word) (hd : d ≠ []) (he : val d % 2 = 0) :
    val (addBit b d) = val d + b.toNat := by
  cases d with
  | nil => exact absurd rfl hd
  | cons w ws =>
    have hw := w.isLt
    have : (w + if b = true then 1 else 0 : Word).toNat = w.toNat + b.toNat := by
      rw [val_cons] at he
      rw [BitVec.toNat_add]
      cases b
      · simpa using hw
      · have h1 : (1 : Word).toNat = 1 := rfl
        rw [if_pos rfl, Bool.toNat_true, h1]
        omega
    simp only [addBit, val_cons, this]
    omega

theorem even_radix {n : Nat} (h : 1 ≤ n) : radix n % 2 = 0 := by
  obtain ⟨k, rfl⟩ : ∃ k, n = k + 1 := ⟨n - 1, by omega⟩
  rw [radix_succ]
  omega

theorem double_law (m r : List Word) (h : r.length = m.length) :
    (addv r r false).1.length = m.length
      ∧ val (addv r r false).1 + (addv r r false).2.toNat * radix m.length = 2 * val r := by
  have h1 := addv_length r r false rfl
  have h2 := addv_law r r false rfl
  rw [h] at h1 h2
  refine ⟨h1, ?_⟩
  simp at h2
  omega

theorem remStep_length (m r : List Word) (b : Bool) (h : r.length = m.length) :
    (remStep m r b).length = m.length :=
  reduceOnce_length _ _ _ (by rw [addBit_length]; exact (double_law m r h).1)

/-- One step of the remainder: double, bring down a bit, reduce. -/
theorem remStep_val (m r : List Word) (b : Bool) (h : r.length = m.length) (hr : val r < val m) :
    val (remStep m r b) = (2 * val r + b.toNat) % val m := by
  have hm : 1 ≤ m.length := by
    cases m with
    | nil => simp at hr
    | cons _ _ => simp
  obtain ⟨h1, h2⟩ := double_law m r h
  have hb := Bool.toNat_le b
  have he := even_radix hm
  have hev : val (addv r r false).1 % 2 = 0 := by
    have : ((addv r r false).2.toNat * radix m.length) % 2 = 0 := by rw [Nat.mul_mod, he]; simp
    omega
  have hne : (addv r r false).1 ≠ [] := by
    intro h0; rw [h0] at h1; simp at h1; omega
  have ha := addBit_val b _ hne hev
  unfold remStep
  rw [reduceOnce_val m _ _ (by rw [addBit_length]; exact h1) (by rw [ha]; omega), ha]
  congr 1
  omega

/-- The integer a list of bits stands for, most significant first. -/
def bitsVal (l : List Bool) (a : Nat) : Nat := l.foldl (fun a b => 2 * a + b.toNat) a

theorem bitsVal_append (k l : List Bool) (a : Nat) : bitsVal (k ++ l) a = bitsVal l (bitsVal k a) :=
  List.foldl_append

theorem bitsVal_start (l : List Bool) (a : Nat) : bitsVal l a = bitsVal l 0 + a * 2 ^ l.length := by
  induction l generalizing a with
  | nil => simp [bitsVal]
  | cons b l ih =>
    have e1 : bitsVal (b :: l) a = bitsVal l (2 * a + b.toNat) := rfl
    have e2 : bitsVal (b :: l) 0 = bitsVal l (2 * 0 + b.toNat) := rfl
    rw [e1, e2, ih (2 * a + b.toNat), ih (2 * 0 + b.toNat), List.length_cons]
    ring

theorem bitsVal_prefix (w : Word) (k : Nat) (hk : k ≤ 32) :
    bitsVal ((List.range k).map fun i => w.getLsbD (31 - i)) 0 = w.toNat >>> (32 - k) := by
  induction k with
  | zero =>
    have := w.isLt
    simp [bitsVal, Nat.shiftRight_eq_div_pow]
    omega
  | succ k ih =>
    rw [List.range_succ, List.map_append, bitsVal_append, ih (by omega)]
    have e : bitsVal ([k].map fun i => w.getLsbD (31 - i)) (w.toNat >>> (32 - k))
        = 2 * (w.toNat >>> (32 - k)) + (w.getLsbD (31 - k)).toNat := rfl
    rw [e, BitVec.getLsbD, show 32 - (k + 1) = 31 - k by omega, show 32 - k = (31 - k) + 1 by omega,
      Nat.testBit, Nat.shiftRight_succ]
    have h2 : (1 &&& (w.toNat >>> (31 - k)) != 0).toNat = (w.toNat >>> (31 - k)) % 2 := by
      rw [Nat.one_and_eq_mod_two]
      rcases Nat.mod_two_eq_zero_or_one (w.toNat >>> (31 - k)) with h | h <;> rw [h] <;> rfl
    rw [h2]
    omega

theorem bitsVal_wordBits (w : Word) : bitsVal (wordBits w) 0 = w.toNat := by
  have := bitsVal_prefix w 32 (le_refl _)
  simpa [wordBits] using this

theorem wordBits_length (w : Word) : (wordBits w).length = 32 := by simp [wordBits]

theorem vecBits_cons (x : Word) (xs : List Word) : vecBits (x :: xs) = vecBits xs ++ wordBits x := by
  simp [vecBits]

theorem bitsVal_vecBits (x : List Word) : bitsVal (vecBits x) 0 = val x := by
  induction x with
  | nil => rfl
  | cons w ws ih =>
    rw [vecBits_cons, bitsVal_append, ih, bitsVal_start, bitsVal_wordBits, wordBits_length, val_cons]
    ring

theorem foldl_remStep (m : List Word) (hm : 0 < val m) (l : List Bool) (r : List Word)
    (h : r.length = m.length) (hr : val r < val m) :
    (l.foldl (remStep m) r).length = m.length ∧ val (l.foldl (remStep m) r) = bitsVal l (val r) % val m := by
  induction l generalizing r with
  | nil => exact ⟨h, (Nat.mod_eq_of_lt hr).symm⟩
  | cons b l ih =>
    have hv := remStep_val m r b h hr
    have hlt : val (remStep m r b) < val m := by rw [hv]; exact Nat.mod_lt _ hm
    obtain ⟨h1, h2⟩ := ih (remStep m r b) (remStep_length m r b h) hlt
    refine ⟨h1, ?_⟩
    have e : bitsVal (b :: l) (val r) = bitsVal l (2 * val r + b.toNat) := rfl
    rw [List.foldl_cons, h2, hv, e, bitsVal_start l ((2 * val r + b.toNat) % val m),
      bitsVal_start l (2 * val r + b.toNat)]
    exact Nat.ModEq.add_left _ (Nat.ModEq.mul_right _ (Nat.mod_modEq _ _))

theorem remv_length (x m : List Word) (hm : 0 < val m) : (remv x m).length = m.length :=
  (foldl_remStep m hm _ _ (length_zeroVec _) (by rw [val_zeroVec]; exact hm)).1

/-- REMV computes the remainder (R127). -/
theorem remv_val (x m : List Word) (hm : 0 < val m) : val (remv x m) = val x % val m := by
  have := (foldl_remStep m hm (vecBits x) (zeroVec m.length) (length_zeroVec _) (by rw [val_zeroVec]; exact hm)).2
  rw [val_zeroVec, bitsVal_vecBits] at this
  exact this

/-- MONTFIX computes the remainder (R164). -/
theorem montfix_law (z m : List Word) (h : z.length = m.length) (hm : 0 < val m) :
    ∃ r, montfix z m = some r ∧ r.length = m.length ∧ val r = val z % val m := by
  have hs := subv_law z m false h
  have hl := subv_length z m false h
  have hlt := val_lt_radix (subv z m false).1
  rw [hl, h] at hlt
  rw [h] at hl hs
  have hiz : iszerov m = false := by
    cases hc : iszerov m
    · rfl
    · rw [iszerov_iff] at hc; omega
  simp only [montfix, montfixWith]
  rw [cmpv_ne_lt z m h]
  by_cases h1 : val m ≤ val z
  · rw [decide_eq_true h1, if_pos rfl]
    have hv : val (subv z m false).1 = val z - val m := by
      cases hb : (subv z m false).2 <;> simp [hb] at hs <;> omega
    simp only [cmpv_ne_lt _ m hl]
    by_cases h2 : val m ≤ val (subv z m false).1
    · rw [decide_eq_true h2, if_pos rfl, hiz]
      refine ⟨_, rfl, remv_length _ _ hm, ?_⟩
      rw [remv_val _ _ hm, hv, ← Nat.mod_eq_sub_mod h1]
    · rw [decide_eq_false h2, if_neg (by simp)]
      exact ⟨_, rfl, hl, by rw [hv, Nat.mod_eq_sub_mod h1, Nat.mod_eq_of_lt (by omega)]⟩
  · rw [decide_eq_false h1, if_neg (by simp)]
    exact ⟨_, rfl, h, (Nat.mod_eq_of_lt (by omega)).symm⟩

theorem montfix_zero (z m : List Word) (h : z.length = m.length) (hm : val m = 0) : montfix z m = none := by
  have hl := subv_length z m false h
  simp only [montfix, montfixWith]
  rw [cmpv_ne_lt z m h, decide_eq_true (by omega), if_pos rfl]
  simp only [cmpv_ne_lt _ m (hl.trans h)]
  rw [decide_eq_true (by omega), if_pos rfl, (iszerov_iff m).2 hm]
  rfl

/-- MONTFIX of a register by itself ends in the remainder by zero: the subtraction has cleared both (R73, R164). -/
theorem montfix_self (z : List Word) : montfixWith (fun z1 => z1) z z = none := by
  have hs := subv_law z z false rfl
  have hl := subv_length z z false rfl
  have hlt := val_lt_radix (subv z z false).1
  have hz : val (subv z z false).1 = 0 := by
    rw [hl] at hlt
    cases hb : (subv z z false).2 <;> simp [hb] at hs <;> omega
  simp only [montfixWith]
  rw [cmpv_ne_lt z z rfl, decide_eq_true (Nat.le_refl _), if_pos rfl, cmpv_ne_lt _ _ rfl,
    decide_eq_true (Nat.le_refl _), if_pos rfl, (iszerov_iff _).2 hz]
  rfl

/-- MONTFIX that has a result leaves one of the operands' length. -/
theorem montfixWith_length {later : List Word → List Word} {n : Nat} {z m r : List Word} (hz : z.length = n)
    (hm : m.length = n) (hl : ∀ z1, z1.length = n → (later z1).length = n) (h : montfixWith later z m = some r) :
    r.length = n := by
  have h1 := (subv_length z m false (hz.trans hm.symm)).trans hz
  unfold montfixWith at h
  simp only at h
  split at h
  · split at h
    · split at h
      · cases h
      · rename_i hnz
        cases h
        exact (remv_length _ _ (Nat.pos_of_ne_zero fun e => hnz ((iszerov_iff _).2 e))).trans (hl _ h1)
    · cases h; exact h1
  · cases h; exact hz

theorem iterate_add {α : Type} (f : α → α) (n : Nat) (a : α) : iterate f (n + 1) a = f (iterate f n a) := by
  induction n generalizing a with
  | zero => rfl
  | succ n ih => exact ih (f a)

theorem rrStep_law (m r : List Word) (h : r.length = m.length) (hr : val r < val m) :
    (rrStep m r).length = m.length ∧ val (rrStep m r) = (2 * val r) % val m := by
  obtain ⟨h1, h2⟩ := double_law m r h
  refine ⟨reduceOnce_length _ _ _ h1, ?_⟩
  unfold rrStep
  rw [reduceOnce_val m _ _ h1 (by omega), h2]

theorem iterate_rrStep (m : List Word) (hm : 0 < val m) (k : Nat) (r : List Word)
    (h : r.length = m.length) (hr : val r < val m) :
    (iterate (rrStep m) k r).length = m.length ∧ val (iterate (rrStep m) k r) = 2 ^ k * val r % val m := by
  induction k generalizing r with
  | zero => exact ⟨h, by simp [iterate, Nat.mod_eq_of_lt hr]⟩
  | succ k ih =>
    obtain ⟨h1, h2⟩ := rrStep_law m r h hr
    obtain ⟨h3, h4⟩ := ih (rrStep m r) h1 (by rw [h2]; exact Nat.mod_lt _ hm)
    refine ⟨h3, ?_⟩
    have e : iterate (rrStep m) (k + 1) r = iterate (rrStep m) k (rrStep m r) := rfl
    rw [e, h4, h2, Nat.mul_mod_mod, pow_succ, Nat.mul_assoc]

/-- RRCALC computes `R^2 mod M` (R165). -/
theorem rrcalc_law (m : List Word) (hm : 0 < val m) :
    (rrcalc m.length m).length = m.length
      ∧ val (rrcalc m.length m) = 2 ^ (2 * m.length * 32) % val m := by
  have hn : 1 ≤ m.length := by
    cases m with
    | nil => simp at hm
    | cons _ _ => simp
  have hv := remv_val (oneVec m.length) m hm
  obtain ⟨h1, h2⟩ := iterate_rrStep m hm (2 * m.length * 32) (remv (oneVec m.length) m)
    (remv_length _ _ hm) (by rw [hv]; exact Nat.mod_lt _ hm)
  refine ⟨h1, ?_⟩
  unfold rrcalc
  rw [h2, hv, val_oneVec hn, Nat.mul_mod_mod, Nat.mul_one]

theorem n0invRound_inv (m0 : Word) (j : Nat) :
    (iterate n0invRound j (m0 - 1, 2 - m0)).1 = (m0 - 1) ^ (2 ^ j)
      ∧ (iterate n0invRound j (m0 - 1, 2 - m0)).2 * m0 = 1 - (m0 - 1) ^ (2 ^ (j + 1)) := by
  induction j with
  | zero =>
    constructor
    · simp [iterate]
    · simp only [iterate]
      ring
  | succ j ih =>
    obtain ⟨h1, h2⟩ := ih
    rw [iterate_add]
    generalize hp : iterate n0invRound j (m0 - 1, 2 - m0) = p at *
    simp only [n0invRound, h1]
    constructor
    · rw [← pow_two, ← pow_mul, pow_succ 2 j]
    · have e : p.2
            * ((m0 - 1) ^ 2 ^ j * (m0 - 1) ^ 2 ^ j + 1) * m0
          = p.2 * m0
            * ((m0 - 1) ^ 2 ^ j * (m0 - 1) ^ 2 ^ j + 1) := by ring
      have e2 : (m0 - 1 : Word) ^ 2 ^ (j + 1) = (m0 - 1) ^ 2 ^ j * (m0 - 1) ^ 2 ^ j := by
        rw [pow_succ 2 j, pow_mul, pow_two]
      have e3 : (m0 - 1 : Word) ^ 2 ^ (j + 1 + 1) = (m0 - 1) ^ 2 ^ (j + 1) * (m0 - 1) ^ 2 ^ (j + 1) := by
        rw [pow_succ 2 (j + 1), pow_mul, pow_two]
      rw [e, h2, e3, ← e2]
      ring

/-- The value law of N0INV (R161). -/
theorem n0inv_law (m0 : Word) (h : m0.getLsbD 0 = true) : n0inv m0 * m0 + 1 = 0 := by
  have h2 := (n0invRound_inv m0 5).2
  have hz : (m0 - 1 : Word) ^ (2 ^ (5 + 1)) = 0 := by
    have hodd : m0.toNat % 2 = 1 := by
      have := BitVec.getLsbD_eq_getElem (x := m0) (i := 0) (by omega)
      simpa [BitVec.getLsbD, Nat.testBit_zero] using h
    have hlt := m0.isLt
    obtain ⟨e, he⟩ : ∃ e, m0.toNat = 2 * e + 1 := ⟨m0.toNat / 2, by omega⟩
    have hm : m0 - 1 = BitVec.ofNat 32 (2 * e) := by
      apply BitVec.eq_of_toNat_eq
      have h1 : (1 : Word).toNat = 1 := rfl
      rw [BitVec.toNat_sub, BitVec.toNat_ofNat, h1]
      omega
    rw [hm]
    apply BitVec.eq_of_toNat_eq
    rw [BitVec.toNat_pow, BitVec.toNat_ofNat, ← Nat.pow_mod, mul_pow,
      show (2 : Nat) ^ 2 ^ (5 + 1) = 2 ^ 32 * 2 ^ 32 by norm_num, Nat.mul_assoc]
    simp
  rw [hz] at h2
  unfold n0inv
  have : (0 - (iterate n0invRound 5 (m0 - 1, 2 - m0)).2) * m0
      = -((iterate n0invRound 5 (m0 - 1, 2 - m0)).2 * m0) := by ring
  rw [this, h2]
  ring

end Sys2Proof.Machine
end

