-- ==== Sys2Proof/Laws/Mont.lean ====
section
/-! SUPPORT. MONTMUL (`41_montgomery.md` R162, R163): the value its rounds leave in `ACC` and `C`, and its result. -/

namespace Sys2Proof.Machine

theorem splice_append {α : Type} (lo w hi v : List α) (h : v.length = w.length) :
    splice (lo ++ w ++ hi) lo.length v = lo ++ v ++ hi := by
  have h1 : (lo ++ w ++ hi).take lo.length = lo := by rw [List.append_assoc]; exact List.take_left
  have h2 : (lo ++ w ++ hi).drop (lo.length + v.length) = hi := by
    rw [h, ← List.length_append]; exact List.drop_left
  unfold splice
  rw [h1, h2]

theorem window_append {α : Type} (lo w hi : List α) :
    window (lo ++ w ++ hi) lo.length w.length = w := by
  unfold window
  rw [List.append_assoc, List.drop_left, List.take_left]

theorem set_append (lo : List Word) (z v : Word) (zs : List Word) :
    (lo ++ z :: zs).set lo.length v = lo ++ v :: zs := by
  rw [List.set_append_right _ _ (le_refl _), Nat.sub_self, List.set_cons_zero]

theorem carry_law (c : Bool) (p q : Word) :
    let cx := bitWord c + p
    let cy := cx + q
    c.toNat + p.toNat + q.toNat = cy.toNat + (decide (cx < p) || decide (cy < q)).toNat * 2 ^ 32 := by
  have hp := p.isLt
  have hq := q.isLt
  have hb : (bitWord c).toNat = c.toNat := by cases c <;> rfl
  have hc := Bool.toNat_le c
  have h1 : (bitWord c + p).toNat = (c.toNat + p.toNat) % 2 ^ 32 := by rw [BitVec.toNat_add, hb]
  have h2 : (bitWord c + p + q).toNat = ((c.toNat + p.toNat) % 2 ^ 32 + q.toNat) % 2 ^ 32 := by
    rw [BitVec.toNat_add, h1]
  simp only
  by_cases g1 : (bitWord c + p) < p
  · rw [decide_eq_true g1, Bool.true_or, Bool.toNat_true, h2]
    rw [BitVec.lt_def, h1] at g1
    omega
  · rw [decide_eq_false g1, Bool.false_or]
    rw [BitVec.lt_def, h1] at g1
    by_cases g2 : (bitWord c + p + q) < q
    · rw [decide_eq_true g2, Bool.toNat_true, h2]
      rw [BitVec.lt_def, h2] at g2
      omega
    · rw [decide_eq_false g2, Bool.toNat_false, h2]
      rw [BitVec.lt_def, h2] at g2
      omega

/-- One round: the low words stay, the window becomes `w'`, the word above it takes the carries, and the value grows
by `X*d + M*T`, counted at word `i`. -/
theorem montRound_law (n : Nat) (x m lo w zs : List Word) (z k0 d : Word) (c : Bool) (cw t : Word)
    (hn : 1 ≤ n) (hx : x.length = n) (hm : m.length = n) (hw : w.length = n) (hz : z = 0) :
    ∃ w' cy c' cw' t', montRound n x m k0 lo.length d ⟨lo ++ w ++ z :: zs, c, cw, t⟩
        = ⟨lo ++ w' ++ cy :: zs, c', cw', t'⟩
      ∧ w'.length = n
      ∧ val w' + (cy.toNat + c'.toNat * 2 ^ 32) * radix n
          = val w + val x * d.toNat + val m * t'.toNat + c.toNat * radix n
      ∧ (k0 * m.getD 0 0 + 1 = 0 → w'.getD 0 0 = 0) := by
  subst hz
  have l1 := macv_length w x d 0 (hw.trans hx.symm)
  have v1 := macv_law w x d 0 (hw.trans hx.symm)
  have e1 : splice (lo ++ w ++ (0 : Word) :: zs) lo.length (macv w x d 0).1
      = lo ++ (macv w x d 0).1 ++ 0 :: zs := splice_append lo w _ _ l1
  have ew : window (lo ++ w ++ (0 : Word) :: zs) lo.length n = w := by
    rw [← hw]; exact window_append lo w _
  generalize hp : macv w x d 0 = p at *
  have hpl : p.1.length = n := l1.trans hw
  have ep : window (lo ++ p.1 ++ (0 : Word) :: zs) lo.length n = p.1 := by
    rw [← hpl]; exact window_append lo p.1 _
  obtain ⟨p0, ps, hps⟩ : ∃ p0 ps, p.1 = p0 :: ps := by
    cases h : p.1 with
    | nil => rw [h] at hpl; simp at hpl; omega
    | cons a b => exact ⟨a, b, rfl⟩
  obtain ⟨m0, ms, hms⟩ : ∃ m0 ms, m = m0 :: ms := by
    cases h : m with
    | nil => rw [h] at hm; simp at hm; omega
    | cons a b => exact ⟨a, b, rfl⟩
  have et : (lo ++ p.1 ++ (0 : Word) :: zs).getD lo.length 0 = p0 := by
    rw [hps, List.append_assoc, List.getD_append_right _ _ _ _ (le_refl _), Nat.sub_self]
    rfl
  have l2 := macv_length p.1 m (p0 * k0) 0 (hpl.trans hm.symm)
  have v2 := macv_law p.1 m (p0 * k0) 0 (hpl.trans hm.symm)
  have e2 : splice (lo ++ p.1 ++ (0 : Word) :: zs) lo.length (macv p.1 m (p0 * k0) 0).1
      = lo ++ (macv p.1 m (p0 * k0) 0).1 ++ 0 :: zs := splice_append lo p.1 _ _ l2
  have hzero : k0 * m.getD 0 0 + 1 = 0 → (macv p.1 m (p0 * k0) 0).1.getD 0 0 = 0 := by
    intro hk
    rw [hms] at hk ⊢
    rw [hps]
    simp only [macv, List.getD_cons_zero] at hk ⊢
    have hmac : (macw m0 (p0 * k0) p0 0).1 = p0 * (k0 * m0 + 1) := by
      have e0 : (macw m0 (p0 * k0) p0 0).1 = m0 * (p0 * k0) + p0 + 0 := by
        apply BitVec.eq_of_toNat_eq
        have h0 : (0 : Word).toNat = 0 := rfl
        simp only [macw, BitVec.toNat_ofNat, BitVec.toNat_add, BitVec.toNat_mul, h0]
        omega
      rw [e0]; ring
    rw [hmac, hk]
    simp
  generalize hq : macv p.1 m (p0 * k0) 0 = q at *
  have hql : q.1.length = n := l2.trans hpl
  have es : (lo ++ q.1 ++ (0 : Word) :: zs).set (n + lo.length) (bitWord c + p.2 + q.2)
      = lo ++ q.1 ++ (bitWord c + p.2 + q.2) :: zs := by
    have : n + lo.length = (lo ++ q.1).length := by rw [List.length_append, hql]; omega
    rw [this]
    exact set_append (lo ++ q.1) 0 _ zs
  refine ⟨q.1, bitWord c + p.2 + q.2, decide (bitWord c + p.2 < p.2) || decide (bitWord c + p.2 + q.2 < q.2),
    q.2, p0 * k0, ?_, hql, ?_, hzero⟩
  · unfold montRound
    simp only
    rw [ew, hp, e1, ep, et, hq, e2, es]
  · have hc := carry_law c p.2 q.2
    simp only at hc
    rw [← hc]
    rw [hw] at v1
    rw [hpl] at v2
    have h0 : (0 : Word).toNat = 0 := rfl
    rw [h0] at v1 v2
    have : (c.toNat + p.2.toNat + q.2.toNat) * radix n
        = c.toNat * radix n + p.2.toNat * radix n + q.2.toNat * radix n := by ring
    rw [this]
    omega

theorem montLoop_length (n : Nat) (x m : List Word) (k0 : Word) (hn : 1 ≤ n) (hx : x.length = n)
    (hm : m.length = n) (ds : List Word) (lo w : List Word) (c : Bool) (cw t : Word) (hw : w.length = n) :
    ∃ lo' w' c' cw' t', montLoop n x m k0 lo.length ds ⟨lo ++ w ++ zeroVec ds.length, c, cw, t⟩
        = ⟨lo' ++ w', c', cw', t'⟩
      ∧ lo'.length = lo.length + ds.length ∧ w'.length = n
      ∧ (k0 * m.getD 0 0 + 1 = 0 → lo = zeroVec lo.length → lo' = zeroVec lo'.length)
      ∧ ∃ q, q < radix ds.length
        ∧ val (lo' ++ w') + c'.toNat * radix (n + lo.length + ds.length)
          = val (lo ++ w) + c.toNat * radix (n + lo.length) + radix lo.length * (val x * val ds + q * val m) := by
  induction ds generalizing lo w c cw t with
  | nil =>
    refine ⟨lo, w, c, cw, t, ?_, rfl, hw, fun _ h => h, 0, by simp, by simp⟩
    simp [montLoop, zeroVec]
  | cons d ds ih =>
    obtain ⟨w1, cy, c1, cw1, t1, he, hl1, hv1, hz1⟩ :=
      montRound_law n x m lo w (zeroVec ds.length) 0 k0 d c cw t hn hx hm hw rfl
    obtain ⟨a, as, ha⟩ : ∃ a as, w1 = a :: as := by
      cases h : w1 with
      | nil => rw [h] at hl1; simp at hl1; omega
      | cons a b => exact ⟨a, b, rfl⟩
    have hl2 : (lo ++ [a]).length = lo.length + 1 := by simp
    have has : (as ++ [cy]).length = n := by rw [ha] at hl1; simpa using hl1
    obtain ⟨lo', w', c', cw', t', hm', hlo', hw', hz', q, hq, hv'⟩ :=
      ih (lo ++ [a]) (as ++ [cy]) c1 cw1 t1 has
    rw [hl2] at hm' hlo' hv'
    refine ⟨lo', w', c', cw', t', ?_, ?_, hw', ?_, t1.toNat + 2 ^ 32 * q, ?_, ?_⟩
    · have e0 : zeroVec (d :: ds).length = 0 :: zeroVec ds.length := rfl
      rw [e0]
      have e1 : montLoop n x m k0 lo.length (d :: ds) ⟨lo ++ w ++ 0 :: zeroVec ds.length, c, cw, t⟩
          = montLoop n x m k0 (lo.length + 1) ds
              (montRound n x m k0 lo.length d ⟨lo ++ w ++ 0 :: zeroVec ds.length, c, cw, t⟩) := rfl
      rw [e1, he, ← hm']
      congr 2
      rw [ha]
      simp
    · rw [hlo', List.length_cons]; omega
    · intro hk hlo
      refine hz' hk ?_
      have := hz1 hk
      rw [ha, List.getD_cons_zero] at this
      rw [hl2, this]
      conv_lhs => rw [hlo]
      simp only [zeroVec]
      rw [← List.replicate_succ']
    · have := t1.isLt
      rw [List.length_cons, radix_succ]
      have := Nat.mul_le_mul_left (2 ^ 32) (show q + 1 ≤ radix ds.length from hq)
      omega
    · have e1 : n + lo.length + (d :: ds).length = n + (lo.length + 1) + ds.length := by
        rw [List.length_cons]; omega
      rw [e1, hv']
      have e2 : lo ++ [a] ++ (as ++ [cy]) = lo ++ (w1 ++ [cy]) := by rw [ha]; simp
      rw [e2, val_append, val_append, val_append lo w, hl1, ← Nat.add_assoc n, radix_succ, radix_succ,
        radix_add n lo.length, val_cons, val_cons, val_nil]
      have := congrArg (radix lo.length * ·) hv1
      beta_reduce at this
      generalize radix lo.length = L at *
      generalize radix n = N at *
      have e3 : L * (val w1 + (cy.toNat + c1.toNat * 2 ^ 32) * N)
          = L * (val w1 + N * (cy.toNat + 2 ^ 32 * 0)) + c1.toNat * (2 ^ 32 * (N * L)) := by ring
      have e4 : val lo + L * (val w1 + N * (cy.toNat + 2 ^ 32 * 0)) + c1.toNat * (2 ^ 32 * (N * L))
          = val lo + L * (val w1 + (cy.toNat + c1.toNat * 2 ^ 32) * N) := by rw [e3]; ring
      rw [e4, this]
      ring

/-- The value law of the rounds (R163). -/
theorem montRun_law (n : Nat) (x y m : List Word) (k0 : Word) (hn : 1 ≤ n) (hx : x.length = n)
    (hy : y.length = n) (hm : m.length = n) :
    (montRun n x y m k0).acc.length = 2 * n
      ∧ (k0 * m.getD 0 0 + 1 = 0 →
        val ((montRun n x y m k0).acc.take n) = 0
        ∧ ∃ q, q < radix n
          ∧ ((montRun n x y m k0).c.toNat * radix n + val ((montRun n x y m k0).acc.drop n)) * radix n
              = val x * val y + q * val m) := by
  obtain ⟨lo', w', c', cw', t', he, hlo, hw, hz, q, hq, hv⟩ :=
    montLoop_length n x m k0 hn hx hm y [] (zeroVec n) false 0 0 (length_zeroVec n)
  have e : montRun n x y m k0 = ⟨lo' ++ w', c', cw', t'⟩ := by
    rw [← he]
    unfold montRun
    congr 2
    rw [hy, List.nil_append]
    simp only [zeroVec]
    rw [List.replicate_append_replicate]
    congr 1
    omega
  have hlo2 : lo'.length = n := by rw [hlo]; simpa using hy
  rw [e]
  refine ⟨by simp only [List.length_append]; omega, fun hk => ?_⟩
  have hzz : lo' = zeroVec n := by
    have := hz hk rfl
    rw [hlo2] at this
    exact this
  have et : (lo' ++ w').take n = lo' := by rw [← hlo2]; exact List.take_left
  have ed : (lo' ++ w').drop n = w' := by rw [← hlo2]; exact List.drop_left
  refine ⟨by show val ((lo' ++ w').take n) = 0; rw [et, hzz, val_zeroVec], q, by rw [← hy]; exact hq, ?_⟩
  simp only [ed]
  have h1 : val (lo' ++ w') = radix n * val w' := by
    rw [val_append, hlo2]
    conv_lhs => rw [hzz, val_zeroVec]
    omega
  rw [h1, hy] at hv
  simp only [List.length_nil, List.nil_append, val_zeroVec, Bool.toNat_false, Nat.add_zero, radix_zero,
    Nat.one_mul, Nat.zero_mul, Nat.zero_add] at hv
  rw [radix_add] at hv
  rw [← hv]
  ring

theorem montResult_length (n : Nat) (x y m : List Word) (k0 : Word) (hn : 1 ≤ n) (hx : x.length = n)
    (hy : y.length = n) (hm : m.length = n) : (montmul n x y m k0).length = n := by
  have h := (montRun_law n x y m k0 hn hx hy hm).1
  have hd : ((montRun n x y m k0).acc.drop n).length = n := by rw [List.length_drop, h]; omega
  unfold montmul montResult
  split
  · rw [subv_length _ _ _ (hd.trans hm.symm), hd]
  · exact hd

/-- The value law of MONTMUL (R163): the result is congruent to `X*Y/R` and is what one subtraction leaves. -/
theorem montmul_law (n : Nat) (x y m : List Word) (k0 : Word) (hn : 1 ≤ n) (hx : x.length = n)
    (hy : y.length = n) (hm : m.length = n) (hk : k0 * m.getD 0 0 + 1 = 0) :
    (montmul n x y m k0).length = n
      ∧ val (montmul n x y m k0) * radix n ≡ val x * val y [MOD val m]
      ∧ ∃ q, q < radix n
        ∧ (val (montmul n x y m k0) + (montRun n x y m k0).c.toNat * val m) * radix n = val x * val y + q * val m := by
  obtain ⟨hl, h⟩ := montRun_law n x y m k0 hn hx hy hm
  obtain ⟨-, q, hq, hv⟩ := h hk
  have hd : ((montRun n x y m k0).acc.drop n).length = n := by rw [List.length_drop, hl]; omega
  have hres : val (montmul n x y m k0) + (montRun n x y m k0).c.toNat * val m
      = (montRun n x y m k0).c.toNat * radix n + val ((montRun n x y m k0).acc.drop n) := by
    unfold montmul montResult
    have hs := subv_law ((montRun n x y m k0).acc.drop n) m false (hd.trans hm.symm)
    have hlt := val_lt_radix (subv ((montRun n x y m k0).acc.drop n) m false).1
    rw [subv_length _ _ _ (hd.trans hm.symm), hd] at hlt
    rw [hd] at hs
    generalize hst : montRun n x y m k0 = st at *
    cases hc : st.c
    · simp
    · rw [hc] at hv
      have hx1 := val_lt_radix x
      have hy1 := val_lt_radix y
      have hm1 := val_lt_radix m
      rw [hx] at hx1
      rw [hy] at hy1
      rw [hm] at hm1
      have hR := radix_pos n
      have hV : 1 * radix n + val (st.acc.drop n) < radix n + val m := by
        by_contra hge
        have hge := Nat.mul_le_mul_right (radix n) (Nat.le_of_not_lt hge)
        have h1 : val x * val y ≤ (radix n - 1) * (radix n - 1) := Nat.mul_le_mul (by omega) (by omega)
        have h2 : q * val m ≤ (radix n - 1) * val m := Nat.mul_le_mul_right _ (by omega)
        rw [Bool.toNat_true] at hv
        rw [hv] at hge
        obtain ⟨r, hr⟩ : ∃ r, radix n = r + 1 := ⟨radix n - 1, by omega⟩
        rw [hr] at hge h1 h2
        simp only [Nat.add_sub_cancel] at h1 h2
        have e1 : (r + 1 + val m) * (r + 1) = r * r + r * val m + (2 * r + 1 + val m) := by ring
        omega
      simp only [if_true, Bool.toNat_true, Nat.one_mul, Bool.toNat_false, Nat.add_zero] at *
      cases hb : (subv (st.acc.drop n) m false).2 <;> simp [hb] at hs <;> omega
  refine ⟨montResult_length n x y m k0 hn hx hy hm, ?_, q, hq, by rw [hres, hv]⟩
  have h2 := hres ▸ hv
  rw [← hres] at hv
  have e : (val (montmul n x y m k0) + (montRun n x y m k0).c.toNat * val m) * radix n
      = val (montmul n x y m k0) * radix n + val m * ((montRun n x y m k0).c.toNat * radix n) := by ring
  rw [e, Nat.mul_comm q] at hv
  unfold Nat.ModEq
  have h3 := congrArg (· % val m) hv
  simp only [Nat.add_mul_mod_self_left] at h3
  exact h3

end Sys2Proof.Machine
end

