-- ==== Sys2Proof/Laws/ModExp.lean ====
section
/-! SUPPORT. MODEXP (`42_modexp.md` R193 to R199): what its table and its accumulator hold, in the Montgomery domain,
and its result. -/

namespace Sys2Proof.Machine

/-- The integer a list of nibbles stands for, most significant first. -/
def nibblesVal (l : List (Fin 16)) (a : Nat) : Nat := l.foldl (fun a d => 16 * a + d.val) a

theorem nibblesVal_append (k l : List (Fin 16)) (a : Nat) :
    nibblesVal (k ++ l) a = nibblesVal l (nibblesVal k a) := List.foldl_append

theorem nibblesVal_start (l : List (Fin 16)) (a : Nat) :
    nibblesVal l a = nibblesVal l 0 + a * 16 ^ l.length := by
  induction l generalizing a with
  | nil => simp [nibblesVal]
  | cons b l ih =>
    have e1 : nibblesVal (b :: l) a = nibblesVal l (16 * a + b.val) := rfl
    have e2 : nibblesVal (b :: l) 0 = nibblesVal l (16 * 0 + b.val) := rfl
    rw [e1, e2, ih (16 * a + b.val), ih (16 * 0 + b.val), List.length_cons]
    ring

/-- The nibbles of one word. -/
def wordNibbles (e : Word) : List (Fin 16) := (List.range 8).map (nibble e)

theorem nibble_val (e : Word) (ni : Nat) : (nibble e ni).val = e.toNat / 2 ^ (28 - 4 * ni) % 16 := by
  simp [nibble, BitVec.extractLsb', Nat.shiftRight_eq_div_pow]

theorem nibblesVal_word (e : Word) : nibblesVal (wordNibbles e) 0 = e.toNat := by
  have h := e.isLt
  have e0 : wordNibbles e = [nibble e 0, nibble e 1, nibble e 2, nibble e 3, nibble e 4, nibble e 5, nibble e 6,
      nibble e 7] := rfl
  rw [e0]
  simp only [nibblesVal, List.foldl_cons, List.foldl_nil, nibble_val]
  norm_num
  omega

theorem nibbles_cons (x : Word) (xs : List Word) : nibbles (x :: xs) = nibbles xs ++ wordNibbles x := by
  simp [nibbles, wordNibbles]

theorem nibbles_length (xs : List Word) : (nibbles xs).length = 8 * xs.length := by
  induction xs with
  | nil => rfl
  | cons x xs ih => rw [nibbles_cons, List.length_append, ih, List.length_cons]; simp [wordNibbles]; omega

theorem nibblesVal_nibbles (x : List Word) : nibblesVal (nibbles x) 0 = val x := by
  induction x with
  | nil => rfl
  | cons w ws ih =>
    rw [nibbles_cons, nibblesVal_append, ih, nibblesVal_start, nibblesVal_word, val_cons]
    have : (wordNibbles w).length = 8 := by simp [wordNibbles]
    rw [this]
    ring

/-! The multiplication count (R199). -/

theorem mulCount_append (k l : List ModexpStep) : mulCount (k ++ l) = mulCount k + mulCount l := by
  simp [mulCount]

theorem mulCount_table : mulCount tableSteps = 16 := by decide +kernel

theorem mulCount_nibble (first : Bool) (nib : Fin 16) :
    mulCount (nibbleSteps first nib) = if first then 1 else 5 := by
  cases first <;> rfl

theorem mulCount_window (l : List (Fin 16)) : mulCount (windowSteps false l) = 5 * l.length := by
  induction l with
  | nil => rfl
  | cons a l ih =>
    rw [windowSteps, mulCount_append, mulCount_nibble, ih, List.length_cons]
    simp
    omega

theorem mulCount_modexp (e : List Word) (h : 1 ≤ e.length) : mulCount (modexpSteps e) = 40 * e.length + 13 := by
  have hl := nibbles_length e
  cases hn : nibbles e with
  | nil => rw [hn, List.length_nil] at hl; omega
  | cons a l =>
    rw [hn, List.length_cons] at hl
    have e1 : modexpSteps e = tableSteps ++ ([.copy .z (tblReg 0)] ++ ((nibbleSteps true a ++ windowSteps false l)
        ++ [.mul .zz (.reg .z) (.reg .one)])) := by
      unfold modexpSteps
      rw [hn]
      rfl
    have e2 : mulCount [.copy .z (tblReg 0)] = 0 := rfl
    have e3 : mulCount [.mul .zz (.reg .z) (.reg .one)] = 1 := rfl
    rw [e1, mulCount_append, mulCount_append, mulCount_append, mulCount_append, e2, e3, mulCount_table,
      mulCount_nibble, mulCount_window, if_pos rfl]
    omega

/-! The Montgomery domain. -/

/-- `a` is `v*R` modulo `M`. -/
structure InDomain (n : Nat) (m a : List Word) (v : Nat) : Prop where
  length : a.length = n
  cong : val a ≡ v * radix n [MOD val m]

theorem val_mod_two (m : List Word) : val m % 2 = (m.getD 0 0).toNat % 2 := by
  cases m with
  | nil => rfl
  | cons w ws => simp only [val_cons, List.getD_cons_zero]; omega

theorem odd_of_bit (m : List Word) (h : (m.getD 0 0).getLsbD 0 = true) : val m % 2 = 1 := by
  rw [val_mod_two]
  simpa [BitVec.getLsbD, Nat.testBit_zero] using h

theorem bit_of_odd (m : List Word) (h : val m % 2 = 1) : (m.getD 0 0).getLsbD 0 = true := by
  rw [val_mod_two] at h
  simpa [BitVec.getLsbD, Nat.testBit_zero] using h

theorem coprime_radix (n : Nat) (m : Nat) (h : m % 2 = 1) : Nat.gcd m (radix n) = 1 := by
  unfold radix
  exact Nat.Coprime.pow_right _ (Nat.coprime_two_right.2 (Nat.odd_iff.2 h))

/-- One MONTMUL of MODEXP: its result register, and everything it leaves. -/
theorem step_mul (n : Nat) (base m : List Word) (w : WRegs) (d : VReg) (x y : Factor) (hn : 1 ≤ n)
    (hm : m.length = n) (hk : w.k0 * m.getD 0 0 + 1 = 0) (hx : (factorVal base w x).length = n)
    (hy : (factorVal base w y).length = n) :
    ((modexpStep n base m w (.mul d x y)).get d).length = n
      ∧ val ((modexpStep n base m w (.mul d x y)).get d) * radix n
          ≡ val (factorVal base w x) * val (factorVal base w y) [MOD val m]
      ∧ (∀ r, r ≠ d → (modexpStep n base m w (.mul d x y)).get r = w.get r)
      ∧ (modexpStep n base m w (.mul d x y)).k0 = w.k0 := by
  obtain ⟨h1, h2, -⟩ := montmul_law n (factorVal base w x) (factorVal base w y) m w.k0 hn hx hy hm hk
  have e : (modexpStep n base m w (.mul d x y)).get d
      = montmul n (factorVal base w x) (factorVal base w y) m w.k0 := by
    simp only [modexpStep, WRegs.get_put_self, montmul]
  rw [e]
  refine ⟨h1, h2, fun r hr => ?_, by simp [modexpStep]⟩
  simp only [modexpStep]
  rw [WRegs.get_put_ne _ _ hr]
  cases r <;> rfl

/-- A MONTMUL of two values in the domain is their product in the domain (R167). -/
theorem step_mul_domain (n : Nat) (base m : List Word) (w : WRegs) (d a b : VReg) (u v : Nat) (hn : 1 ≤ n)
    (hm : m.length = n) (hodd : val m % 2 = 1) (hk : w.k0 * m.getD 0 0 + 1 = 0)
    (hx : InDomain n m (w.get a) u) (hy : InDomain n m (w.get b) v) :
    InDomain n m ((modexpStep n base m w (.mul d (.reg a) (.reg b))).get d) (u * v)
      ∧ (∀ r, r ≠ d → (modexpStep n base m w (.mul d (.reg a) (.reg b))).get r = w.get r)
      ∧ (modexpStep n base m w (.mul d (.reg a) (.reg b))).k0 = w.k0 := by
  obtain ⟨h1, h2, h3, h4⟩ := step_mul n base m w d (.reg a) (.reg b) hn hm hk hx.length hy.length
  refine ⟨⟨h1, ?_⟩, h3, h4⟩
  refine Nat.ModEq.cancel_right_of_coprime (coprime_radix n _ hodd) (h2.trans ?_)
  have := Nat.ModEq.mul hx.cong hy.cong
  refine this.trans ?_
  rw [show u * radix n * (v * radix n) = u * v * radix n * radix n by ring]

theorem step_copy (n : Nat) (base m : List Word) (w : WRegs) (d r : VReg) :
    (modexpStep n base m w (.copy d r)).get d = w.get r
      ∧ (∀ q, q ≠ d → (modexpStep n base m w (.copy d r)).get q = w.get q)
      ∧ (modexpStep n base m w (.copy d r)).k0 = w.k0 := by
  refine ⟨by simp [modexpStep], fun q hq => ?_, by simp [modexpStep]⟩
  simp only [modexpStep]
  exact WRegs.get_put_ne _ _ hq

/-- What holds once the table is built: `K0`, `ONE` and all sixteen powers of the base (R194). -/
structure TableBuilt (n : Nat) (base m : List Word) (w : WRegs) : Prop where
  k0 : w.k0 * m.getD 0 0 + 1 = 0
  one : w.get .one = oneVec n
  table : ∀ k : Fin 16, InDomain n m (w.get (.tbl k)) (val base ^ k.val)

theorem tblReg_ne {j k : Nat} (hj : j < 16) (hk : k < 16) (h : j ≠ k) : tblReg j ≠ tblReg k := by
  unfold tblReg
  intro e
  injection e with e
  have := congrArg Fin.val e
  simp [Fin.ofNat] at this
  omega

theorem tblReg_val (k : Fin 16) : tblReg k.val = .tbl k := by
  unfold tblReg
  congr 1
  exact Fin.ofNat_val_eq_self k

theorem table_rest (n : Nat) (base m : List Word) (hn : 1 ≤ n) (hm : m.length = n) (hodd : val m % 2 = 1)
    (w : WRegs) (hk0 : w.k0 * m.getD 0 0 + 1 = 0) (h0 : InDomain n m (w.get (tblReg 0)) 1)
    (h1 : InDomain n m (w.get (tblReg 1)) (val base)) (j : Nat) (hj : j ≤ 14) :
    let v := ((List.range j).map fun j => ModexpStep.mul (tblReg (j + 2)) (.reg (tblReg (j + 1))) (.reg (tblReg 1))).foldl
      (modexpStep n base m) w
    v.k0 = w.k0 ∧ (∀ r, (∀ k, r ≠ tblReg k) → v.get r = w.get r)
      ∧ ∀ k, k < j + 2 → InDomain n m (v.get (tblReg k)) (val base ^ k) := by
  induction j with
  | zero =>
    refine ⟨rfl, fun _ _ => rfl, fun k hk => ?_⟩
    have : k = 0 ∨ k = 1 := by omega
    rcases this with rfl | rfl
    · simpa using h0
    · simpa using h1
  | succ j ih =>
    obtain ⟨a, b, c⟩ := ih (by omega)
    simp only [List.range_succ, List.map_append, List.foldl_append, List.map_cons, List.map_nil,
      List.foldl_cons, List.foldl_nil]
    generalize (((List.range j).map fun j =>
      ModexpStep.mul (tblReg (j + 2)) (.reg (tblReg (j + 1))) (.reg (tblReg 1))).foldl (modexpStep n base m) w) = v at *
    obtain ⟨d, e, f⟩ := step_mul_domain n base m v (tblReg (j + 2)) (tblReg (j + 1)) (tblReg 1) (val base ^ (j + 1))
      (val base ^ 1) hn hm hodd (by rw [a]; exact hk0) (c (j + 1) (by omega)) (c 1 (by omega))
    refine ⟨f.trans a, fun r hr => (e r (hr (j + 2))).trans (b r hr), fun k hk => ?_⟩
    by_cases hkj : k = j + 2
    · subst hkj
      rw [show val base ^ (j + 2) = val base ^ (j + 1) * val base ^ 1 by ring]
      exact d
    · rw [e _ (tblReg_ne (by omega) (by omega) hkj)]
      exact c k (by omega)

theorem modexpInit_law (n : Nat) (m : List Word) (w : WRegs) (hm : m.length = n)
    (hodd : val m % 2 = 1) :
    (modexpInit n m w).k0 * m.getD 0 0 + 1 = 0 ∧ (modexpInit n m w).get .one = oneVec n
      ∧ InDomain n m ((modexpInit n m w).get .rr) (radix n) := by
  refine ⟨n0inv_law _ (bit_of_odd m hodd), rfl, ?_⟩
  have h := rrcalc_law m (by omega)
  rw [hm] at h
  refine ⟨h.1, ?_⟩
  have e : (modexpInit n m w).get .rr = rrcalc n m := rfl
  rw [e, h.2]
  refine (Nat.mod_modEq _ _).trans ?_
  unfold radix
  rw [← pow_add, show 2 * n * 32 = 32 * n + 32 * n by ring]

/-- The MONTMULs of lines 9 and 10 of R193. -/
def restSteps : List ModexpStep :=
  (List.range 14).map fun j => .mul (tblReg (j + 2)) (.reg (tblReg (j + 1))) (.reg (tblReg 1))

theorem tableSteps_eq : tableSteps = .mul (tblReg 0) (.reg .one) (.reg .rr) :: .mul (tblReg 1) .base (.reg .rr) ::
    restSteps := rfl

theorem ne_tblReg (r : VReg) (h : ∀ k, r ≠ .tbl k) (k : Nat) : r ≠ tblReg k := h _

theorem table_built_from (n : Nat) (base m : List Word) (v0 : WRegs) (hn : 1 ≤ n) (hb : base.length = n)
    (hm : m.length = n) (hodd : val m % 2 = 1) (hk : v0.k0 * m.getD 0 0 + 1 = 0) (ho : v0.get .one = oneVec n)
    (hr : InDomain n m (v0.get .rr) (radix n)) :
    TableBuilt n base m (tableSteps.foldl (modexpStep n base m) v0) := by
  rw [tableSteps_eq, List.foldl_cons, List.foldl_cons]
  have hol : (factorVal base v0 (.reg .one)).length = n := by simp only [factorVal, ho]; exact length_oneVec n
  obtain ⟨a1, a2, a3, a4⟩ := step_mul n base m v0 (tblReg 0) (.reg .one) (.reg .rr) hn hm hk hol hr.length
  have d0 : InDomain n m ((modexpStep n base m v0 (.mul (tblReg 0) (.reg .one) (.reg .rr))).get (tblReg 0)) 1 := by
    refine ⟨a1, ?_⟩
    refine Nat.ModEq.cancel_right_of_coprime (coprime_radix n _ hodd) (a2.trans ?_)
    simp only [factorVal, ho, val_oneVec hn, Nat.one_mul]
    exact hr.cong
  generalize modexpStep n base m v0 (.mul (tblReg 0) (.reg .one) (.reg .rr)) = v1 at a3 a4 d0 ⊢
  have hrr : v1.get .rr = v0.get .rr := a3 _ (ne_tblReg _ (by simp) _)
  have hone1 : v1.get .one = v0.get .one := a3 _ (ne_tblReg _ (by simp) _)
  have hrl : (factorVal base v1 (.reg .rr)).length = n := by simp only [factorVal, hrr]; exact hr.length
  obtain ⟨b1, b2, b3, b4⟩ := step_mul n base m v1 (tblReg 1) .base (.reg .rr) hn hm (by rw [a4]; exact hk) hb hrl
  have d1 : InDomain n m ((modexpStep n base m v1 (.mul (tblReg 1) .base (.reg .rr))).get (tblReg 1)) (val base) := by
    refine ⟨b1, ?_⟩
    refine Nat.ModEq.cancel_right_of_coprime (coprime_radix n _ hodd) (b2.trans ?_)
    simp only [factorVal, hrr]
    have := Nat.ModEq.mul_left (val base) hr.cong
    refine this.trans ?_
    rw [Nat.mul_assoc]
  have k2 := b3 _ (tblReg_ne (j := 0) (k := 1) (by omega) (by omega) (by omega))
  have hone2 := b3 .one (ne_tblReg _ (by simp) _)
  generalize modexpStep n base m v1 (.mul (tblReg 1) .base (.reg .rr)) = v2 at b4 d1 k2 hone2 ⊢
  obtain ⟨c1, c2, c3⟩ := table_rest n base m hn hm hodd v2 (by rw [b4, a4]; exact hk) (by rw [k2]; exact d0) d1 14
    (le_refl _)
  refine ⟨?_, ?_, fun k => ?_⟩
  · have e : (restSteps.foldl (modexpStep n base m) v2).k0 = v2.k0 := c1
    rw [e, b4, a4]
    exact hk
  · have e : (restSteps.foldl (modexpStep n base m) v2).get .one = v2.get .one := c2 _ (ne_tblReg _ (by simp))
    rw [e, hone2, hone1, ho]
  · rw [← tblReg_val]
    exact c3 k.val k.isLt

/-- The table of R194, from the registers of lines 4 to 6. -/
theorem table_built (n : Nat) (base m : List Word) (w : WRegs) (hn : 1 ≤ n) (hb : base.length = n)
    (hm : m.length = n) (hodd : val m % 2 = 1) :
    TableBuilt n base m (tableSteps.foldl (modexpStep n base m) (modexpInit n m w)) := by
  have hv : 0 < val m := by omega
  obtain ⟨hk, ho, hr⟩ := modexpInit_law n m w hm hodd
  exact table_built_from n base m _ hn hb hm hodd hk ho hr

theorem TableBuilt.of_eq {n : Nat} {base m : List Word} {w v : WRegs} (h : TableBuilt n base m w)
    (hk : v.k0 = w.k0) (h1 : v.get .one = w.get .one) (ht : ∀ k, v.get (.tbl k) = w.get (.tbl k)) :
    TableBuilt n base m v :=
  ⟨by rw [hk]; exact h.k0, by rw [h1]; exact h.one, fun k => by rw [ht]; exact h.table k⟩

/-- One MONTMUL between the two accumulators keeps the table. -/
theorem acc_mul (n : Nat) (base m : List Word) (w : WRegs) (d a b : VReg) (u v : Nat) (hn : 1 ≤ n)
    (hm : m.length = n) (hodd : val m % 2 = 1) (ht : TableBuilt n base m w) (hd : d = .z ∨ d = .zz)
    (hx : InDomain n m (w.get a) u) (hy : InDomain n m (w.get b) v) :
    TableBuilt n base m (modexpStep n base m w (.mul d (.reg a) (.reg b)))
      ∧ InDomain n m ((modexpStep n base m w (.mul d (.reg a) (.reg b))).get d) (u * v)
      ∧ ∀ r, r ≠ d → (modexpStep n base m w (.mul d (.reg a) (.reg b))).get r = w.get r := by
  obtain ⟨h1, h2, h3⟩ := step_mul_domain n base m w d a b u v hn hm hodd ht.k0 hx hy
  refine ⟨ht.of_eq h3 (h2 _ ?_) (fun k => h2 _ ?_), h1, h2⟩ <;> rcases hd with rfl | rfl <;> simp

/-- The four squarings raise the accumulator to the sixteenth power. -/
theorem squares_law (n : Nat) (base m : List Word) (w : WRegs) (u : Nat) (hn : 1 ≤ n)
    (hm : m.length = n) (hodd : val m % 2 = 1) (ht : TableBuilt n base m w) (hz : InDomain n m (w.get .z) u) :
    TableBuilt n base m (squareSteps.foldl (modexpStep n base m) w)
      ∧ InDomain n m ((squareSteps.foldl (modexpStep n base m) w).get .z) (u ^ 16) := by
  obtain ⟨t1, d1, -⟩ := acc_mul n base m w .zz .z .z u u hn hm hodd ht (.inr rfl) hz hz
  unfold squareSteps
  rw [List.foldl_cons]
  generalize modexpStep n base m w (.mul .zz (.reg .z) (.reg .z)) = w1 at *
  obtain ⟨t2, d2, -⟩ := acc_mul n base m w1 .z .zz .zz _ _ hn hm hodd t1 (.inl rfl) d1 d1
  rw [List.foldl_cons]
  generalize modexpStep n base m w1 (.mul .z (.reg .zz) (.reg .zz)) = w2 at *
  obtain ⟨t3, d3, -⟩ := acc_mul n base m w2 .zz .z .z _ _ hn hm hodd t2 (.inr rfl) d2 d2
  rw [List.foldl_cons]
  generalize modexpStep n base m w2 (.mul .zz (.reg .z) (.reg .z)) = w3 at *
  obtain ⟨t4, d4, -⟩ := acc_mul n base m w3 .z .zz .zz _ _ hn hm hodd t3 (.inl rfl) d3 d3
  rw [List.foldl_cons, List.foldl_nil]
  refine ⟨t4, ?_⟩
  rw [show u ^ 16 = u * u * (u * u) * (u * u * (u * u)) * (u * u * (u * u) * (u * u * (u * u))) by ring]
  exact d4

theorem times_law (n : Nat) (base m : List Word) (w : WRegs) (u : Nat) (nib : Fin 16) (hn : 1 ≤ n)
    (hm : m.length = n) (hodd : val m % 2 = 1) (ht : TableBuilt n base m w) (hz : InDomain n m (w.get .z) u) :
    let w' := [ModexpStep.mul .zz (.reg .z) (.reg (.tbl nib)), .copy .z .zz].foldl (modexpStep n base m) w
    TableBuilt n base m w' ∧ InDomain n m (w'.get .z) (u * val base ^ nib.val) := by
  simp only [List.foldl_cons, List.foldl_nil]
  obtain ⟨t1, d1, -⟩ := acc_mul n base m w .zz .z (.tbl nib) u _ hn hm hodd ht (.inr rfl) hz (ht.table nib)
  generalize modexpStep n base m w (.mul .zz (.reg .z) (.reg (.tbl nib))) = w1 at *
  obtain ⟨c1, c2, c3⟩ := step_copy n base m w1 .z .zz
  exact ⟨t1.of_eq c3 (c2 _ (by simp)) (fun k => c2 _ (by simp)), by rw [c1]; exact d1⟩

/-- The nibbles processed make the exponent (R198's induction). -/
theorem window_law (n : Nat) (base m : List Word) (hn : 1 ≤ n) (hm : m.length = n) (hodd : val m % 2 = 1)
    (l : List (Fin 16)) (w : WRegs) (e : Nat) (ht : TableBuilt n base m w)
    (hz : InDomain n m (w.get .z) (val base ^ e)) :
    TableBuilt n base m ((windowSteps false l).foldl (modexpStep n base m) w)
      ∧ InDomain n m (((windowSteps false l).foldl (modexpStep n base m) w).get .z) (val base ^ nibblesVal l e) := by
  induction l generalizing w e with
  | nil => exact ⟨ht, hz⟩
  | cons a l ih =>
    rw [windowSteps, List.foldl_append]
    obtain ⟨t1, d1⟩ := squares_law n base m w _ hn hm hodd ht hz
    obtain ⟨t2, d2⟩ := times_law n base m _ _ a hn hm hodd t1 d1
    have e1 : (nibbleSteps false a).foldl (modexpStep n base m) w
        = [ModexpStep.mul .zz (.reg .z) (.reg (.tbl a)), .copy .z .zz].foldl (modexpStep n base m)
            (squareSteps.foldl (modexpStep n base m) w) := by
      have : nibbleSteps false a
          = squareSteps ++ [ModexpStep.mul .zz (.reg .z) (.reg (.tbl a)), .copy .z .zz] := rfl
      rw [this, List.foldl_append]
    rw [e1]
    refine ih _ (16 * e + a.val) t2 ?_
    rw [show val base ^ (16 * e + a.val) = (val base ^ e) ^ 16 * val base ^ a.val by
      rw [pow_add, ← pow_mul, Nat.mul_comm e 16]]
    exact d2

/-- The accumulator `ZZ` before the final reduction, and the table (R193 lines 4 to 24). -/
theorem modexpRun_law (n : Nat) (base exp m : List Word) (w : WRegs) (hn : 1 ≤ n) (hb : base.length = n)
    (he : exp.length = n) (hm : m.length = n) (hodd : val m % 2 = 1) :
    TableBuilt n base m (modexpRun n base exp m w)
      ∧ ((modexpRun n base exp m w).get .zz).length = n
      ∧ val ((modexpRun n base exp m w).get .zz) ≡ val base ^ val exp [MOD val m] := by
  have ht := table_built n base m w hn hb hm hodd
  have hl := nibbles_length exp
  have hv := nibblesVal_nibbles exp
  unfold modexpRun modexpSteps
  rw [List.foldl_append, List.foldl_cons, List.foldl_append]
  generalize tableSteps.foldl (modexpStep n base m) (modexpInit n m w) = w0 at *
  obtain ⟨c1, c2, c3⟩ := step_copy n base m w0 .z (tblReg 0)
  have t1 := ht.of_eq c3 (c2 _ (by simp)) (fun k => c2 _ (by simp))
  have d1 : InDomain n m ((modexpStep n base m w0 (.copy .z (tblReg 0))).get .z) (val base ^ 0) := by
    rw [c1]
    exact ht.table 0
  generalize modexpStep n base m w0 (.copy .z (tblReg 0)) = w1 at *
  cases hnib : nibbles exp with
  | nil => rw [hnib, List.length_nil] at hl; omega
  | cons a l =>
    rw [hnib] at hv
    obtain ⟨t2, d2⟩ := times_law n base m w1 _ a hn hm hodd t1 d1
    have e1 : windowSteps true (a :: l)
        = [ModexpStep.mul .zz (.reg .z) (.reg (.tbl a)), .copy .z .zz] ++ windowSteps false l := rfl
    rw [e1, List.foldl_append]
    generalize [ModexpStep.mul .zz (.reg .z) (.reg (.tbl a)), .copy .z .zz].foldl (modexpStep n base m) w1 = w2 at *
    obtain ⟨t3, d3⟩ := window_law n base m hn hm hodd l w2 a.val t2 (by simpa using d2)
    have e2 : nibblesVal l a.val = val exp := by
      rw [← hv]
      simp [nibblesVal]
    rw [e2] at d3
    generalize (windowSteps false l).foldl (modexpStep n base m) w2 = w3 at *
    have hone : (factorVal base w3 (.reg .one)).length = n := by
      simp only [factorVal, t3.one]; exact length_oneVec n
    obtain ⟨a1, a2, a3, a4⟩ := step_mul n base m w3 .zz (.reg .z) (.reg .one) hn hm t3.k0 d3.length hone
    rw [List.foldl_cons, List.foldl_nil]
    refine ⟨t3.of_eq a4 (a3 _ (by simp)) (fun k => a3 _ (by simp)), a1, ?_⟩
    refine Nat.ModEq.cancel_right_of_coprime (coprime_radix n _ hodd) (a2.trans ?_)
    simp only [factorVal, t3.one, val_oneVec hn, Nat.mul_one]
    exact d3.cong

/-- The result of MODEXP on values (R198). -/
theorem modexp_result (n : Nat) (base exp m : List Word) (w : WRegs) (hn : 1 ≤ n) (hb : base.length = n)
    (he : exp.length = n) (hm : m.length = n) (hodd : val m % 2 = 1) :
    ∃ res, montfix ((modexpRun n base exp m w).zz) m = some res ∧ res.length = n
      ∧ val res = val base ^ val exp % val m := by
  obtain ⟨-, h2, h3⟩ := modexpRun_law n base exp m w hn hb he hm hodd
  obtain ⟨r, h4, h5, h6⟩ := montfix_law ((modexpRun n base exp m w).get .zz) m (h2.trans hm.symm) (by omega)
  exact ⟨r, h4, h5.trans hm, h6.trans h3⟩

/-! Register widths: MODEXP resizes nothing. -/

theorem modexpStep_wf {n : Nat} {base m : List Word} {w : WRegs} (a : ModexpStep) (hn : 1 ≤ n)
    (hb : base.length = n) (hm : m.length = n) (hw : w.wf n = true) : (modexpStep n base m w a).wf n = true := by
  have hw' := (WRegs.wf_iff n w).1 hw
  have hf : ∀ x, (factorVal base w x).length = n := fun x => by
    cases x with
    | reg r => exact hw'.1 r
    | base => exact hb
  cases a with
  | mul d x y =>
    refine WRegs.wf_put d ?_ (montResult_length n _ _ m w.k0 hn (hf x) (hf y) hm)
    rw [WRegs.wf_iff]
    exact ⟨fun r => (congrArg List.length (WRegs.get_scratch w _ w.k0 _ _ r)).trans (hw'.1 r),
      (montRun_law n _ _ m w.k0 hn (hf x) (hf y) hm).1⟩
  | copy d r => exact WRegs.wf_put d hw (hw'.1 r)

theorem modexpRun_wf {n : Nat} {base exp m : List Word} {w : WRegs} (hn : 1 ≤ n) (hb : base.length = n)
    (hm : m.length = n) (hodd : val m % 2 = 1) (hw : w.wf n = true) : (modexpRun n base exp m w).wf n = true := by
  have hi : (modexpInit n m w).wf n = true := by
    have hr := (rrcalc_law m (by omega)).1
    rw [hm] at hr
    have e : modexpInit n m w = ({ w with k0 := n0inv (m.getD 0 0) }.put .rr (rrcalc n m)).put .one (oneVec n) := rfl
    rw [e]
    exact WRegs.wf_put .one (WRegs.wf_put .rr hw hr) (length_oneVec n)
  unfold modexpRun
  generalize modexpSteps exp = l
  generalize modexpInit n m w = v at hi
  induction l generalizing v with
  | nil => exact hi
  | cons a l ih => exact ih _ (modexpStep_wf a hn hb hm hi)

end Sys2Proof.Machine
end

