-- ==== Sys2Proof/Laws/Pss.lean ====
section
/-! SUPPORT. PSS on values: what the checker accepts is exactly what the encoder makes (`45_pss.md` R253, R262). -/

namespace Sys2Proof.Machine

/-- What PSSVFY answers for the encoding `em` (R262 steps 1 to 12). -/
def pssAccepts (mHash em : List Byte) (emBits sLen : Nat) : Bool :=
  pssShapeOk mHash em emBits sLen
    && (pssPaddingOk (pssUnmask em emBits) emBits sLen
      && sha256 (pssMessage mHash ((pssUnmask em emBits).drop (emLen emBits - 32 - sLen - 1)))
          == window em (emLen emBits - 32 - 1) 32)

theorem byte_unmask (b k t : Byte) (h : b &&& ~~~t = 0) : ((b ^^^ k) &&& t ^^^ k) &&& t = b := by
  apply BitVec.eq_of_getLsbD_eq
  intro i hi
  have hb := congrArg (fun v : Byte => v.getLsbD i) h
  simp only [BitVec.getLsbD_and, BitVec.getLsbD_not, hi, decide_true, Bool.true_and] at hb
  simp only [BitVec.getLsbD_and, BitVec.getLsbD_xor]
  cases h1 : b.getLsbD i <;> cases h2 : t.getLsbD i <;> cases h3 : k.getLsbD i <;>
    simp [h1, h2] at hb ⊢

theorem zip_twice (a k : List Byte) (h : a.length = k.length) :
    List.zipWith (· ^^^ ·) (List.zipWith (· ^^^ ·) a k) k = a := by
  induction a generalizing k with
  | nil => simp
  | cons x a ih => cases k with
    | nil => simp at h
    | cons y k =>
      rw [List.zipWith_cons_cons, List.zipWith_cons_cons, ih k (by simpa using h), BitVec.xor_assoc, BitVec.xor_self,
        BitVec.xor_zero]

/-- Masking and clearing twice restores a data block whose top bits are clear. -/
theorem unmask_twice (l seed : List Byte) (emBits : Nat) (h : l.getD 0 0 &&& ~~~topMask emBits = 0) :
    clearTop emBits (mgfXor (clearTop emBits (mgfXor l seed)) seed) = l := by
  cases l with
  | nil => rfl
  | cons b bs =>
    have hl := mgfMask_length seed (b :: bs).length
    unfold mgfXor
    cases hk : mgfMask seed (b :: bs).length with
    | nil => rw [hk] at hl; simp at hl
    | cons k ks =>
      rw [hk] at hl
      have hl' : bs.length = ks.length := by simpa using hl.symm
      rw [List.zipWith_cons_cons]
      simp only [clearTop, List.length_cons, List.length_zipWith]
      rw [show min bs.length ks.length + 1 = (b :: bs).length by simp [hl'], hk, List.zipWith_cons_cons,
        zip_twice bs ks hl']
      simp only [List.getD_cons_zero] at h
      simp only [byte_unmask b k _ h]

theorem topMask_bit (emBits : Nat) : (1 : Byte) &&& ~~~topMask emBits = 0 := by
  unfold topMask
  have h : 8 * emLen emBits - emBits ≤ 7 := by unfold emLen; omega
  generalize 8 * emLen emBits - emBits = k at h
  interval_cases k <;> decide

theorem pssDb_head (salt : List Byte) (emBits : Nat) : (pssDb salt emBits).getD 0 0 &&& ~~~topMask emBits = 0 := by
  unfold pssDb
  cases emLen emBits - salt.length - 32 - 2 with
  | zero => exact topMask_bit emBits
  | succ k => simp [zeros, List.replicate_succ]

theorem clearTop_head (emBits : Nat) (l : List Byte) : (clearTop emBits l).getD 0 0 &&& ~~~topMask emBits = 0 := by
  cases l with
  | nil => simp [clearTop]
  | cons b bs =>
    apply BitVec.eq_of_getLsbD_eq
    intro i hi
    simp [clearTop, hi]

theorem all_zero {l : List Byte} (h : l.all (· == 0) = true) : l = zeros l.length := by
  rw [zeros, List.eq_replicate_iff]
  refine ⟨rfl, fun b hb => ?_⟩
  have := List.all_eq_true.1 h b hb
  simpa using this

theorem encode_parts (mHash salt : List Byte) (emBits : Nat) (hs : salt.length + 32 + 2 ≤ emLen emBits) :
    (pssEncode mHash salt emBits).take (emLen emBits - 32 - 1)
        = clearTop emBits (mgfXor (pssDb salt emBits) (sha256 (pssMessage mHash salt)))
      ∧ window (pssEncode mHash salt emBits) (emLen emBits - 32 - 1) 32 = sha256 (pssMessage mHash salt)
      ∧ (pssEncode mHash salt emBits)[emLen emBits - 1]? = some 0xBC := by
  have hd := pssDb_length salt emBits hs
  unfold pssEncode
  simp only
  generalize hH : sha256 (pssMessage mHash salt) = H
  have hHl : H.length = 32 := by rw [← hH]; exact sha256_length _
  have hD : (clearTop emBits (mgfXor (pssDb salt emBits) H)).length = emLen emBits - 32 - 1 := by
    rw [clearTop_length, mgfXor_length, hd]
  generalize clearTop emBits (mgfXor (pssDb salt emBits) H) = D at *
  refine ⟨?_, ?_, ?_⟩
  · rw [List.append_assoc, List.take_left' hD]
  · unfold window
    rw [List.append_assoc, List.drop_left' hD, List.take_left' hHl]
  · rw [List.getElem?_append_right (by rw [List.length_append]; omega), List.length_append, hD, hHl]
    have : emLen emBits - 1 - (emLen emBits - 32 - 1 + 32) = 0 := by omega
    rw [this]
    rfl

theorem getD_take (l : List Byte) (n : Nat) (h : 0 < n) : (l.take n).getD 0 0 = l.getD 0 0 := by
  cases l with
  | nil => simp
  | cons a l => cases n with
    | zero => omega
    | succ n => rfl

/-- The checker accepts exactly the encodings of `mHash` with a salt of `sLen` bytes. -/
theorem pssAccepts_iff (mHash em : List Byte) (emBits sLen : Nat) (hh : mHash.length = 32)
    (hs : 32 + sLen + 2 ≤ emLen emBits) (hl : em.length = emLen emBits) :
    pssAccepts mHash em emBits sLen = true
      ↔ ∃ salt : List Byte, salt.length = sLen ∧ em = pssEncode mHash salt emBits := by
  unfold pssAccepts pssShapeOk pssSizesOk pssPaddingOk
  simp only [Bool.and_eq_true, beq_iff_eq, decide_eq_true_eq]
  constructor
  · rintro ⟨⟨⟨⟨-, -⟩, hbc⟩, htop⟩, ⟨hpad, hsep⟩, hhash⟩
    have hdl : (pssUnmask em emBits).length = emLen emBits - 32 - 1 := by
      unfold pssUnmask
      rw [clearTop_length, mgfXor_length, List.length_take]
      omega
    have hdb : clearTop emBits (mgfXor (pssUnmask em emBits) (window em (emLen emBits - 32 - 1) 32))
        = em.take (emLen emBits - 32 - 1) := by
      unfold pssUnmask
      exact unmask_twice _ _ _ (by rw [getD_take _ _ (by omega)]; exact htop)
    generalize pssUnmask em emBits = db at *
    refine ⟨db.drop (emLen emBits - 32 - sLen - 1), by rw [List.length_drop]; omega, ?_⟩
    have hsalt : (db.drop (emLen emBits - 32 - sLen - 1)).length = sLen := by rw [List.length_drop]; omega
    have hpss : pssDb (db.drop (emLen emBits - 32 - sLen - 1)) emBits = db := by
      unfold pssDb
      rw [hsalt]
      have hz := all_zero hpad
      rw [List.length_take] at hz
      have e1 : emLen emBits - sLen - 32 - 2 = emLen emBits - 32 - sLen - 2 := by omega
      have e2 : min (emLen emBits - 32 - sLen - 2) db.length = emLen emBits - 32 - sLen - 2 := by omega
      have e3 : emLen emBits - 32 - sLen - 1 = emLen emBits - 32 - sLen - 2 + 1 := by omega
      rw [e2] at hz
      obtain ⟨hlt, hget⟩ := List.getElem?_eq_some_iff.1 hsep
      rw [e1, ← hz, e3, ← hget, ← List.drop_eq_getElem_cons hlt, List.take_append_drop]
    unfold pssEncode
    simp only
    rw [hhash, hpss, hdb]
    have e : em = em.take (emLen emBits - 32 - 1) ++ window em (emLen emBits - 32 - 1) 32
        ++ em.drop (emLen emBits - 1) := by
      have e1 : em.drop (emLen emBits - 1) = (em.drop (emLen emBits - 32 - 1)).drop 32 := by
        rw [List.drop_drop]
        congr 1
        omega
      rw [e1, List.append_assoc, window, List.take_append_drop, List.take_append_drop]
    have e2 : em.drop (emLen emBits - 1) = [0xBC] := by
      obtain ⟨hlt, hget⟩ := List.getElem?_eq_some_iff.1 hbc
      rw [List.drop_eq_getElem_cons hlt, hget, List.drop_of_length_le (by omega)]
    rw [e2] at e
    exact e
  · rintro ⟨salt, hsl, rfl⟩
    subst hsl
    have hs' : salt.length + 32 + 2 ≤ emLen emBits := by omega
    obtain ⟨p1, p2, p3⟩ := encode_parts mHash salt emBits hs'
    have hdl := pssDb_length salt emBits hs'
    have hun : pssUnmask (pssEncode mHash salt emBits) emBits = pssDb salt emBits := by
      unfold pssUnmask
      rw [p1, p2]
      exact unmask_twice _ _ _ (pssDb_head _ _)
    have htop : (pssEncode mHash salt emBits).getD 0 0 &&& ~~~topMask emBits = 0 := by
      rw [← getD_take _ (emLen emBits - 32 - 1) (by omega), p1]
      exact clearTop_head _ _
    have e1 : emLen emBits - 32 - salt.length - 2 = emLen emBits - salt.length - 32 - 2 := by omega
    have e3 : emLen emBits - 32 - salt.length - 1 = (zeros (emLen emBits - salt.length - 32 - 2) ++ [(1 : Byte)]).length := by
      simp; omega
    refine ⟨⟨⟨⟨hh, by omega⟩, p3⟩, htop⟩, ⟨?_, ?_⟩, ?_⟩
    · rw [hun, e1]
      unfold pssDb
      rw [List.take_left' (by simp)]
      simp [zeros]
    · rw [hun, e1]
      unfold pssDb
      rw [List.getElem?_append_right (by simp)]
      simp
    · rw [hun, p2]
      congr 2
      rw [e3]
      unfold pssDb
      rw [show zeros (emLen emBits - salt.length - 32 - 2) ++ (1 : Byte) :: salt
        = (zeros (emLen emBits - salt.length - 32 - 2) ++ [1]) ++ salt by simp]
      exact List.drop_left

end Sys2Proof.Machine
end

