-- ==== Sys2Proof/Laws/Service.lean ====
section
/-! SUPPORT. The signing service: what MODEXP, PSSVFY, SIGNOP and VERIFYOP do on a state whose buffers have their
sizes. -/

namespace Sys2Proof.Machine

/-- A hash writes no buffer but `HOUT` and `HBLK`. -/
theorem State.hashed_get (s : State) (msg : List Byte) (b : Buf) (h1 : b ≠ .hout) (h2 : b ≠ .hblk) :
    (s.hashed msg).mem.get b = s.mem.get b := by
  cases b <;> first | rfl | exact absurd rfl h1 | exact absurd rfl h2

/-- MGF1XOR writes no buffer but its slice, `HOUT` and `HBLK`. -/
theorem State.afterMgf_get (s : State) (sd : List Byte) (n : Nat) (b : Buf) (h1 : b ≠ .hout) (h2 : b ≠ .hblk) :
    (s.afterMgf sd n).mem.get b = s.mem.get b := by
  unfold State.afterMgf
  simp only
  split
  · rfl
  · exact State.hashed_get _ _ b h1 h2

theorem SameControl.trans {s t u : State} (a : SameControl s t) (b : SameControl t u) : SameControl s u :=
  ⟨b.1.trans a.1, b.2.trans a.2, b.3.trans a.3, b.4.trans a.4, b.5.trans a.5, b.6.trans a.6,
    b.7.trans a.7, b.8.trans a.8, b.9.trans a.9, b.10.trans a.10⟩

theorem SameControl.putBytes (s : State) (b : Buf) (off : Nat) (bs : List Byte) :
    SameControl s (s.putBytes b off bs) := ⟨rfl, rfl, rfl, rfl, rfl, rfl, rfl, rfl, rfl, rfl⟩

theorem SameControl.hashed (s : State) (m) : SameControl s (s.hashed m) :=
  ⟨rfl, rfl, rfl, rfl, rfl, rfl, rfl, rfl, rfl, rfl⟩

theorem SameControl.setValid (s : State) (m) : SameControl s (s.setValid m) :=
  ⟨rfl, rfl, rfl, rfl, rfl, rfl, rfl, rfl, rfl, rfl⟩

theorem SameControl.afterMgf (s : State) (sd n) : SameControl s (s.afterMgf sd n) := by
  unfold State.afterMgf
  simp only
  split <;> exact ⟨rfl, rfl, rfl, rfl, rfl, rfl, rfl, rfl, rfl, rfl⟩

/-- What PSSVFY does where its encoding fits `EM`, or its sizes are turned away before `EM` is read (R262). -/
theorem pssvfy_law (h : List Byte) (emBits sLen : Nat) (s : State)
    (hf : pssSizesOk h emBits sLen = true → s.fits ⟨.em, 0, emLen emBits⟩ = true) :
    ∃ t, pssvfy h emBits sLen s = .done t
      ∧ t.fl.valid = pssAccepts h (s.mem.em.take (emLen emBits)) emBits sLen ∧ SameControl s t
      ∧ t = { s with mem := t.mem, fl := { s.fl with valid := t.fl.valid }, sha := t.sha, ctr := t.ctr }
      ∧ SameBytesOutsideHash s t ⟨.em, 0, emLen emBits⟩ ∧ (s.mem.wf = true → t.mem.wf = true)
      ∧ (s.mem.wf = true → s.sha.wf = true → t.sha.wf = true)
      ∧ (∀ b, b ≠ .em → b ≠ .hout → b ≠ .hblk → t.mem.get b = s.mem.get b) := by
  unfold pssvfy
  cases hsz : pssSizesOk h emBits sLen with
  | false =>
    exact ⟨_, rfl, by simp [pssAccepts, pssShapeOk, hsz], SameControl.setValid _ _, rfl, fun _ _ _ _ _ => rfl,
      fun h => h, fun _ h => h, fun _ _ _ _ => rfl⟩
  | true =>
  replace hf := hf hsz
  rw [Bool.not_true, if_neg Bool.false_ne_true, withSlice_true hf]
  have hf' := (State.fits_iff _ _).1 hf
  have hsz' : 32 + sLen + 2 ≤ emLen emBits := by
    simp only [pssSizesOk, Bool.and_eq_true, decide_eq_true_eq] at hsz
    exact hsz.2
  simp only at hf'
  replace hf' := hf'.resolve_left (by omega)
  have hlen : (s.mem.em.take (emLen emBits)).length = emLen emBits := by
    rw [List.length_take]
    have : s.mem.em = s.mem.get .em := rfl
    rw [this]; omega
  simp only
  generalize hem : s.mem.em.take (emLen emBits) = em at *
  cases hs : pssShapeOk h em emBits sLen with
  | false =>
    refine ⟨_, rfl, by simp [pssAccepts, hs], SameControl.setValid _ _, rfl, fun _ _ _ _ _ => rfl,
      fun h => h, fun _ h => h, fun _ _ _ _ => rfl⟩
  | true =>
    simp only [if_true]
    have hge := hsz'
    have hdl : (pssUnmask em emBits).length = emLen emBits - 32 - 1 := by
      unfold pssUnmask
      rw [clearTop_length, mgfXor_length, List.length_take]
      omega
    set s1 := (s.afterMgf (window em (emLen emBits - 32 - 1) 32) (emLen emBits - 32 - 1)) with hs1
    have hem1 : s1.mem.get .em = s.mem.get .em := State.afterMgf_get _ _ _ _ (by simp) (by simp)
    have hfit : s1.fits ⟨.em, 0, (pssUnmask em emBits).length⟩ = true := by
      rw [State.fits_iff]; simp only; rw [hem1]; omega
    have hout : SameBytesOutsideHash s (s1.putBytes .em 0 (pssUnmask em emBits)) ⟨.em, 0, emLen emBits⟩ := by
      intro b i h1 h2 hi
      have := State.putBytes_outside s1 .em 0 (pssUnmask em emBits) hfit b i (by
        rintro ⟨a, b', c⟩; exact hi ⟨a, b', by simp only at c ⊢; omega⟩)
      rw [this]
      unfold Memory.byte
      rw [State.afterMgf_get _ _ _ b h1 h2]
    have hget : ∀ b, b ≠ .em → b ≠ .hout → b ≠ .hblk →
        (s1.putBytes .em 0 (pssUnmask em emBits)).mem.get b = s.mem.get b := by
      intro b h1 h2 h3
      simp only [State.putBytes, Memory.write]
      rw [Memory.get_put_ne _ _ h1, State.afterMgf_get _ _ _ b h2 h3]
    have hwf : s.mem.wf = true → (s1.putBytes .em 0 (pssUnmask em emBits)).mem.wf = true := by
      intro hw
      refine State.wf_putBytes _ _ _ _ ?_ hfit
      rw [hs1]; unfold State.afterMgf; simp only; split
      · exact hw
      · exact (State.wf_hashed _ _ hw).1
    have hsha : s.mem.wf = true → s.sha.wf = true →
        (s1.putBytes .em 0 (pssUnmask em emBits)).sha.wf = true := fun a b => (State.wf_afterMgf _ _ _ a b).2
    have heq : s1.putBytes .em 0 (pssUnmask em emBits)
        = { s with
          mem := (s1.putBytes .em 0 (pssUnmask em emBits)).mem
          sha := (s1.putBytes .em 0 (pssUnmask em emBits)).sha
          ctr := (s1.putBytes .em 0 (pssUnmask em emBits)).ctr } := by
      rw [hs1]
      unfold State.afterMgf
      simp only
      split <;> rfl
    have hct : SameControl s (s1.putBytes .em 0 (pssUnmask em emBits)) :=
      SameControl.trans (SameControl.afterMgf _ _ _) (SameControl.putBytes _ _ _ _)
    cases hp : pssPaddingOk (pssUnmask em emBits) emBits sLen with
    | false =>
      refine ⟨_, rfl, by simp [pssAccepts, hp], SameControl.trans hct (SameControl.setValid _ _), ?_,
        hout, hwf, hsha, hget⟩
      exact congrArg (fun x : State => x.setValid false) heq
    | true =>
      refine ⟨_, rfl, by simp [pssAccepts, hp, hs],
        SameControl.trans hct (SameControl.trans (SameControl.hashed _ _) (SameControl.setValid _ _)), ?_, ?_, ?_, ?_, ?_⟩
      · generalize hv : (sha256 _ == _) = v
        exact congrArg (fun x : State => (x.hashed _).setValid v) heq
      · intro b i h1 h2 hi
        rw [← hout b i h1 h2 hi]
        unfold Memory.byte
        simp only [State.setValid]
        rw [State.hashed_get _ _ b h1 h2]
      · intro hw; exact (State.wf_hashed _ _ (hwf hw)).1
      · intro hw _; exact (State.wf_hashed _ _ (hwf hw)).2
      · intro b h1 h2 h3
        rw [← hget b h1 h2 h3]
        simp only [State.setValid]
        exact State.hashed_get _ _ b h2 h3

/-- A key constant has 128 words. -/
theorem keyVec_length (k : Keys) (r : KeyReg) : (keyVec k r).length = 128 := by cases r <;> simp [keyVec]

theorem emLen_emBits : emLen 4095 = 512 := rfl

/-- The zero test of a value that is not zero. -/
theorem iszerov_of_ne {es : List Word} (h : val es ≠ 0) : iszerov es = false := by
  cases hc : iszerov es
  · rfl
  · exact absurd ((iszerov_iff es).1 hc) h

/-- What MODEXP does on 128 words and an odd modulus, or a zero exponent (R192, R193, R198). -/
theorem modexp_law (base exp m : List Word) (s : State) (hb : base.length = 128) (he : exp.length = 128)
    (hm : m.length = 128) (hodd : val exp ≠ 0 → val m % 2 = 1) (hr : s.w.wf 128 = true) :
    ∃ t, modexp 128 base exp m s = .done t ∧ t.w.wf 128 = true
      ∧ (val exp ≠ 0 → val t.w.res = val base ^ val exp % val m) ∧ (val exp = 0 → val t.w.res = 1)
      ∧ SameControl s t ∧ t.mem = s.mem ∧ t.sha = s.sha ∧ t.fl.bw = s.fl.bw ∧ t.fl.valid = s.fl.valid := by
  by_cases hz : val exp = 0
  · have e : modexp 128 base exp m s = .done ((s.putReg .res (oneVec 128)).spendZexp) := by
      simp [modexp, withRegs_true hr, (iszerov_iff exp).2 hz]
    have l1 := length_oneVec 128
    have l2 : val (oneVec 128) = 1 := val_oneVec (by omega)
    generalize oneVec 128 = v at e l1 l2
    exact ⟨_, e, WRegs.wf_put .res hr l1, fun h => absurd hz h, fun _ => l2, ⟨rfl, rfl, rfl, rfl, rfl, rfl, rfl, rfl, rfl, rfl⟩, rfl, rfl, rfl, rfl⟩
  · replace hodd := hodd hz
    obtain ⟨res, h1, h2, h3⟩ := modexp_result 128 base exp m s.w (by omega) hb he hm hodd
    have hwf := modexpRun_wf (exp := exp) (w := s.w) (by omega) hb hm hodd hr
    have hb0 := bit_of_odd m hodd
    have e : modexp 128 base exp m s = .done (s.afterModexp (modexpRun 128 base exp m s.w) res) := by
      simp only [modexp, withRegs_true hr, iszerov_of_ne hz, oddModulus, hb0]
      simp [h1]
    generalize modexpRun 128 base exp m s.w = w at e hwf
    exact ⟨s.afterModexp w res, e, WRegs.wf_put .res (WRegs.wf_put .zz hwf h2) h2, fun _ => h3, fun h => absurd h hz,
      ⟨rfl, rfl, rfl, rfl, rfl, rfl, rfl, rfl, rfl, rfl⟩, rfl, rfl, rfl, rfl⟩

/-- A slice inside the fixed size of its buffer fits. -/
theorem State.fits_of_wf (s : State) (hw : s.mem.wf = true) (b : Buf) (off len : Nat) (h : off + len ≤ b.size) :
    s.fits ⟨b, off, len⟩ = true := by
  rw [State.fits_iff]
  have := (Memory.wf_iff _).1 hw b
  exact .inr (by simp only; omega)

/-- Writing a whole buffer. -/
theorem Memory.get_write_all (m : Memory) (b : Buf) (bs : List Byte) (h : bs.length = (m.get b).length) :
    (m.write b 0 bs).get b = bs := by
  simp only [Memory.write, Memory.get_put_self, splice, List.take_zero, List.nil_append, Nat.zero_add]
  rw [List.drop_of_length_le (by omega)]; simp

/-- What SIGNOP does on registers and buffers of their sizes and an odd modulus or a zero exponent (R281). -/
theorem signop_law (s : State) (hw : s.mem.wf = true) (hr : s.w.wf 128 = true)
    (hodd : val s.key.d.toList ≠ 0 → val s.key.n.toList % 2 = 1) :
    ∃ t, signop s = .done t ∧ t.w.wf 128 = true ∧ t.mem.sigbuf.length = 512
      ∧ (val s.key.d.toList ≠ 0 →
        be t.mem.sigbuf = be (pssEncode s.mem.digest s.mem.salt 4095) ^ val s.key.d.toList % val s.key.n.toList)
      ∧ (val s.key.d.toList = 0 → be t.mem.sigbuf = 1) ∧ SameControl s t
      ∧ t.mem.digest = s.mem.digest ∧ t.mem.salt = s.mem.salt ∧ t.fl.bw = s.fl.bw ∧ t.fl.valid = s.fl.valid ∧ t.mem.wf = true ∧ t.sha.wf = true := by
  have hw' := (Memory.wf_iff _).1 hw
  have hd : s.mem.digest.length = 32 := hw' .digest
  have hs : s.mem.salt.length = 32 := hw' .salt
  have hle : s.mem.salt.length + 32 + 2 ≤ emLen 4095 := by rw [hs, emLen_emBits]; omega
  have hc : pssCheck s.mem.digest s.mem.salt 4095 = none := by simp [pssCheck, hd, hs, emLen_emBits]
  have hf : s.fits ⟨.em, 0, emLen 4095⟩ = true := State.fits_of_wf s hw .em 0 512 (by decide)
  have hpe := pssEncode_length s.mem.digest s.mem.salt 4095 hle
  rw [emLen_emBits] at hpe
  set sa := ((s.hashed (pssMessage s.mem.digest s.mem.salt)).afterMgf
    (sha256 (pssMessage s.mem.digest s.mem.salt)) (emLen 4095 - 32 - 1)) with hsa
  have hwa : sa.mem.wf = true ∧ sa.sha.wf = true := by
    have := State.wf_hashed s (pssMessage s.mem.digest s.mem.salt) hw
    exact State.wf_afterMgf _ _ _ this.1 this.2
  set s1 := sa.putBytes .em 0 (pssEncode s.mem.digest s.mem.salt 4095) with hs1
  have hp : pssenc s.mem.digest s.mem.salt Config.emBits s = .done s1 := by
    simp only [pssenc, hc, withSlice_true hf]; rfl
  have hem : s1.mem.em = pssEncode s.mem.digest s.mem.salt 4095 := by
    have : sa.mem.get .em = s.mem.get .em := by
      rw [hsa, State.afterMgf_get _ _ _ _ (by simp) (by simp), State.hashed_get _ _ _ (by simp) (by simp)]
    exact Memory.get_write_all _ .em _ (by rw [this, hw' .em]; exact hpe)
  have hw1 : s1.mem.wf = true := State.wf_putBytes _ _ _ _ hwa.1 (State.fits_of_wf _ hwa.1 .em 0 _ (by rw [hpe]; decide))
  have hdg : s1.mem.digest = s.mem.digest := by
    have : s1.mem.digest = sa.mem.get .digest := rfl
    rw [this, hsa, State.afterMgf_get _ _ _ _ (by simp) (by simp), State.hashed_get _ _ _ (by simp) (by simp)]; rfl
  have hst : s1.mem.salt = s.mem.salt := by
    have : s1.mem.salt = sa.mem.get .salt := rfl
    rw [this, hsa, State.afterMgf_get _ _ _ _ (by simp) (by simp), State.hashed_get _ _ _ (by simp) (by simp)]; rfl
  have hk1 : s1.key = s.key := by simp [hs1, hsa]
  have hfl1 : s1.fl = s.fl := by simp [hs1, hsa]
  have hct : SameControl s s1 :=
    SameControl.trans (SameControl.hashed _ _) (SameControl.trans (SameControl.afterMgf _ _ _) (SameControl.putBytes _ _ _ _))
  have hfb := fromBE_law 128 s1.mem.em (by rw [hem, hpe])
  have hr1 : s1.w = s.w := by simp [hs1, hsa]
  obtain ⟨t, m1, m2, m3, m4, m5, m6, m7, m8, m9⟩ :=
    modexp_law (fromBE s1.mem.em) (keyVec s1.key .d) (keyVec s1.key .n) (s1.putReg .base (fromBE s1.mem.em))
    hfb.1 (keyVec_length _ _) (keyVec_length _ _) (by rw [hk1]; exact hodd)
    (WRegs.wf_put .base (hr1 ▸ hr) hfb.1)
  have htl := toBE_law t.w.res
  rw [show t.w.res.length = 128 from ((WRegs.wf_iff _ _).1 m2).1 .res] at htl
  have hwt : t.mem.wf = true := by rw [m6]; exact hw1
  refine ⟨t.putBytes .sigbuf 0 (toBE t.w.res), ?_, ?_⟩
  · have hfr : frombeTo Config.numWords s1.mem.em .base s1 = .done (s1.putReg .base (fromBE s1.mem.em)) :=
      frombeTo_eq (by decide) (by rw [hem, hpe]; rfl) (by rw [hr1]; exact ((WRegs.wf_iff _ _).1 hr).1 .base)
    have hfs : t.fits ⟨.sigbuf, 0, Config.modBytes⟩ = true := State.fits_of_wf t hwt .sigbuf 0 512 (by decide)
    unfold signop
    rw [hp]
    simp only [UResult.bind]
    rw [hfr]
    simp only
    rw [show modexp Config.numWords (s1.putReg .base (fromBE s1.mem.em)).w.base
      (keyVec (s1.putReg .base (fromBE s1.mem.em)).key .d) (keyVec (s1.putReg .base (fromBE s1.mem.em)).key .n)
      (s1.putReg .base (fromBE s1.mem.em)) = .done t from m1]
    simp only [leftpadTo]
    rw [if_neg (by rw [htl.1]; decide), withSlice_true hfs]
    have : leftpad (toBE t.w.res) Config.modBytes = toBE t.w.res := by
      unfold leftpad; rw [htl.1]; rfl
    rw [this]
  · have hsig : (t.putBytes .sigbuf 0 (toBE t.w.res)).mem.sigbuf = toBE t.w.res := by
      exact Memory.get_write_all _ .sigbuf _ (by rw [htl.1, (Memory.wf_iff _).1 hwt .sigbuf]; rfl)
    rw [hsig]
    refine ⟨m2, htl.1, fun h => ?_, fun h => ?_, ?_, ?_, ?_, ?_, ?_, ?_, ?_⟩
    · rw [htl.2, m3 (by rw [hk1]; exact h), hfb.2, hem, hk1]; rfl
    · rw [htl.2, m4 (by rw [hk1]; exact h)]
    · have hq : SameControl s1 (s1.putReg .base (fromBE s1.mem.em)) := ⟨rfl, rfl, rfl, rfl, rfl, rfl, rfl, rfl, rfl, rfl⟩
      exact SameControl.trans hct (SameControl.trans (SameControl.trans hq m5) (SameControl.putBytes _ _ _ _))
    · have : (t.putBytes .sigbuf 0 (toBE t.w.res)).mem.digest = t.mem.digest := rfl
      rw [this, m6]; exact hdg
    · have : (t.putBytes .sigbuf 0 (toBE t.w.res)).mem.salt = t.mem.salt := rfl
      rw [this, m6]; exact hst
    · exact m8.trans (by rw [← hfl1]; rfl)
    · exact m9.trans (by rw [← hfl1]; rfl)
    · exact State.wf_putBytes _ _ _ _ hwt (State.fits_of_wf _ hwt .sigbuf 0 _ (by rw [htl.1]; decide))
    · show t.sha.wf = true
      rw [m7]; exact hwa.2

/-- The trailer of an encoding (R253 step 7). -/
theorem pssEncode_mod (h salt : List Byte) (e : Nat) : be (pssEncode h salt e) % 256 = 0xBC := by
  unfold pssEncode
  simp only
  rw [be_append]
  simp [be_cons]

/-- What VERIFYOP does on registers and buffers of their sizes and an odd modulus or a zero exponent (R286). -/
theorem verifyop_law (s : State) (hw : s.mem.wf = true) (hr : s.w.wf 128 = true)
    (hodd : val s.key.e.toList ≠ 0 → val s.key.n.toList % 2 = 1) :
   ∃ t, verifyop s = .done t ∧ t.w.wf 128 = true ∧ (t.fl.valid = true ↔
        be s.mem.sigbuf < val s.key.n.toList
          ∧ ∃ salt : List Byte, salt.length = 32
            ∧ be (pssEncode s.mem.digest salt 4095)
              = be s.mem.sigbuf ^ val s.key.e.toList % val s.key.n.toList)
      ∧ SameControl s t ∧ t.mem.digest = s.mem.digest ∧ t.mem.salt = s.mem.salt ∧ t.mem.sigbuf = s.mem.sigbuf
      ∧ t.fl.bw = s.fl.bw ∧ t.mem.wf = true ∧ (s.sha.wf = true → t.sha.wf = true) := by
  have hw' := (Memory.wf_iff _).1 hw
  have hsl : s.mem.sigbuf.length = 512 := hw' .sigbuf
  have hfb := fromBE_law 128 s.mem.sigbuf (by omega)
  set s1 := (s.putReg .base (fromBE s.mem.sigbuf)).spendOrd with hs1
  have hmem1 : s1.mem = s.mem := rfl
  have hr1 : s1.w.wf 128 = true := WRegs.wf_put .base hr hfb.1
  have e1 : verifyop s = if cmpv (fromBE s.mem.sigbuf) (keyVec s.key .n) != .lt then .done (s1.setValid false)
    else (modexp 128 (fromBE s.mem.sigbuf) (keyVec s.key .e) (keyVec s.key .n) s1).bind fun s3 =>
      pssvfy (s3.putBytes .em 0 (toBE s3.w.res)).mem.digest 4095 32 (s3.putBytes .em 0 (toBE s3.w.res)) := by
    unfold verifyop
    rw [frombeTo_eq (by decide) (by rw [hsl]) (((WRegs.wf_iff _ _).1 hr).1 .base)]
    rfl
  rw [e1, cmpv_ne_lt _ _ (hfb.1.trans (keyVec_length _ _).symm), hfb.2]
  have hkn : val (keyVec s.key .n) = val s.key.n.toList := rfl
  rw [hkn]
  by_cases hr : val s.key.n.toList ≤ be s.mem.sigbuf
  · rw [decide_eq_true hr, if_pos rfl]
    refine ⟨_, rfl, hr1, ?_, ⟨rfl, rfl, rfl, rfl, rfl, rfl, rfl, rfl, rfl, rfl⟩, rfl, rfl, rfl, rfl, hw, fun h => h⟩
    constructor
    · intro h; cases h
    · rintro ⟨h, -⟩; omega
  · rw [decide_eq_false hr, if_neg (by simp)]
    obtain ⟨t, m1, m2, m3, m4, m5, m6, m7, m8, m9⟩ :=
      modexp_law (fromBE s.mem.sigbuf) (keyVec s.key .e) (keyVec s.key .n) s1
      hfb.1 (keyVec_length _ _) (keyVec_length _ _) hodd hr1
    rw [m1]
    simp only [UResult.bind]
    have htl := toBE_law t.w.res
    rw [show t.w.res.length = 128 from ((WRegs.wf_iff _ _).1 m2).1 .res] at htl
    have hwt : t.mem.wf = true := by rw [m6]; exact hw
    set s4 := t.putBytes .em 0 (toBE t.w.res) with hs4
    have hw4 : s4.mem.wf = true := State.wf_putBytes _ _ _ _ hwt (State.fits_of_wf _ hwt .em 0 _ (by rw [htl.1]; decide))
    have hem : s4.mem.em = toBE t.w.res := Memory.get_write_all _ .em _ (by rw [htl.1, (Memory.wf_iff _).1 hwt .em]; rfl)
    have hdg : s4.mem.digest = s.mem.digest := by
      have : s4.mem.digest = t.mem.digest := rfl
      rw [this, m6, hmem1]
    obtain ⟨u, v1, v2, v3, v5, v6, v7, v8, v9⟩ :=
      pssvfy_law s4.mem.digest 4095 32 s4 fun _ => State.fits_of_wf s4 hw4 .em 0 512 (by decide)
    refine ⟨u, v1, by rw [v5]; exact m2, ?_, ?_, ?_, ?_, ?_, ?_, v7 hw4, ?_⟩
    · rw [v2, hem, hdg]
      have htk : (toBE t.w.res).take (emLen 4095) = toBE t.w.res := List.take_of_length_le (by rw [htl.1, emLen_emBits])
      have hd32 : s.mem.digest.length = 32 := hw' .digest
      rw [htk, pssAccepts_iff _ _ _ _ hd32 (by decide) (by rw [htl.1, emLen_emBits])]
      constructor
      · rintro ⟨salt, hs, he⟩
        refine ⟨by omega, salt, hs, ?_⟩
        rw [← he, htl.2]
        by_cases hz : val (keyVec s.key .e) = 0
        · exfalso
          have h1 := pssEncode_mod s.mem.digest salt 4095
          rw [← he, htl.2, m4 hz] at h1
          omega
        · rw [m3 hz, hfb.2]; rfl
      · rintro ⟨-, salt, hs, he⟩
        refine ⟨salt, hs, ?_⟩
        have hlen := pssEncode_length s.mem.digest salt 4095 (by rw [hs, emLen_emBits]; omega)
        apply be_inj (by rw [htl.1, hlen, emLen_emBits])
        rw [htl.2]
        by_cases hz : val (keyVec s.key .e) = 0
        · exfalso
          have hz' : val s.key.e.toList = 0 := hz
          have h1 := pssEncode_mod s.mem.digest salt 4095
          rw [he, hz', pow_zero] at h1
          have : 1 % val s.key.n.toList ≤ 1 := Nat.mod_le _ _
          omega
        · rw [m3 hz, hfb.2, he]; rfl
    · have hq : SameControl s s1 := ⟨rfl, rfl, rfl, rfl, rfl, rfl, rfl, rfl, rfl, rfl⟩
      exact SameControl.trans (SameControl.trans (SameControl.trans hq m5) (SameControl.putBytes _ _ _ _)) v3
    · have := v9 .digest (by simp) (by simp) (by simp)
      exact (show u.mem.digest = s4.mem.digest from this).trans hdg
    · have := v9 .salt (by simp) (by simp) (by simp)
      refine (show u.mem.salt = s4.mem.salt from this).trans ?_
      have : s4.mem.salt = t.mem.salt := rfl
      rw [this, m6, hmem1]
    · have := v9 .sigbuf (by simp) (by simp) (by simp)
      refine (show u.mem.sigbuf = s4.mem.sigbuf from this).trans ?_
      have : s4.mem.sigbuf = t.mem.sigbuf := rfl
      rw [this, m6, hmem1]
    · have : u.fl.bw = s4.fl.bw := by rw [v5]
      exact this.trans m8
    · intro hsh
      refine v8 hw4 ?_
      show t.sha.wf = true
      rw [m7]; exact hsh

/-- The top bit of an encoding of 4095 bits is clear (R253 step 6). -/
theorem pssEncode_lt (h salt : List Byte) (hs : salt.length = 32) : be (pssEncode h salt 4095) < 2 ^ 4095 := by
  have hlen := pssEncode_length h salt 4095 (by rw [hs, emLen_emBits]; omega)
  rw [emLen_emBits] at hlen
  have hhd : (pssEncode h salt 4095).getD 0 0 &&& ~~~topMask 4095 = 0 := by
    have q := (encode_parts h salt 4095 (by rw [hs, emLen_emBits]; omega)).1
    rw [← getD_take _ (emLen 4095 - 32 - 1) (by decide), q]
    exact clearTop_head _ _
  cases hp : pssEncode h salt 4095 with
  | nil => rw [hp] at hlen; simp at hlen
  | cons b bs =>
    rw [hp] at hlen hhd
    simp only [List.length_cons] at hlen
    rw [be_cons]
    have hb := be_lt bs
    have hl : bs.length = 511 := by omega
    rw [hl] at hb ⊢
    have hb7 : b.toNat < 128 := by
      simp only [List.getD_cons_zero] at hhd
      have h1 : ∀ b : Byte, b &&& ~~~topMask 4095 = 0 → b.toNat < 128 := by decide
      exact h1 b hhd
    have : (256 : Nat) ^ 511 * 128 = 2 ^ 4095 := by
      rw [show (256 : Nat) = 2 ^ 8 by norm_num, ← pow_mul, show (128 : Nat) = 2 ^ 7 by norm_num, ← pow_add]
    have h3 : (b.toNat + 1) * 256 ^ 511 ≤ 128 * 256 ^ 511 := Nat.mul_le_mul_right _ hb7
    have h4 : b.toNat * 256 ^ 511 + be bs < 128 * 256 ^ 511 := by
      refine lt_of_lt_of_le ?_ h3
      rw [Nat.add_mul, Nat.one_mul]
      exact Nat.add_lt_add_left hb _
    refine lt_of_lt_of_le h4 ?_
    rw [Nat.mul_comm, this]

end Sys2Proof.Machine
end

