-- ==== Sys2Proof/Laws/Kept.lean ====
section
/-! SUPPORT. What every instruction keeps: keys, parameters, the sequencer, `ERR` and `HALT` but for an exception,
the widths of the word registers and the sizes of the buffers. -/

namespace Sys2Proof.Machine

/-- What a unit operation keeps, whatever it computes. -/
structure Kept (s t : State) : Prop where
  key : t.key = s.key
  par : t.par = s.par
  err : t.err = s.err
  halt : t.halt = s.halt
  seq : t.seq = s.seq
  turns : t.turns = s.turns
  rxq : t.rxq = s.rxq
  txq : t.txq = s.txq
  widths : SameWidths s t
  mem : s.mem.wf = true → t.mem.wf = true
  sha : s.mem.wf = true → s.sha.wf = true → t.sha.wf = true

theorem SameWidths.refl (s : State) : SameWidths s s := ⟨fun _ => rfl, rfl⟩

theorem SameWidths.of_w {s t : State} (h : t.w = s.w) : SameWidths s t := ⟨fun _ => by rw [h], by rw [h]⟩

theorem SameWidths.wf {s t : State} (h : SameWidths s t) {n : Nat} (hw : s.w.wf n = true) : t.w.wf n = true := by
  rw [WRegs.wf_iff] at *
  exact ⟨fun r => (h.1 r).trans (hw.1 r), h.2.trans hw.2⟩

theorem SameWidths.of_wf {s t : State} {n : Nat} (hs : s.w.wf n = true) (ht : t.w.wf n = true) : SameWidths s t := by
  rw [WRegs.wf_iff] at *
  exact ⟨fun r => (ht.1 r).trans (hs.1 r).symm, ht.2.trans hs.2.symm⟩

theorem SameWidths.put {s t : State} (d : VReg) (v : List Word) (h : t.w = s.w.put d v)
    (hl : v.length = (s.w.get d).length) : SameWidths s t := by
  refine ⟨fun r => ?_, ?_⟩
  · rw [h]; exact WRegs.length_get_put _ _ _ _ hl
  · rw [h]; simp

theorem Kept.refl (s : State) : Kept s s :=
  ⟨rfl, rfl, rfl, rfl, rfl, rfl, rfl, rfl, .refl s, id, fun _ h => h⟩

theorem Kept.trans {s t u : State} (a : Kept s t) (b : Kept t u) : Kept s u where
  key := b.key.trans a.key
  par := b.par.trans a.par
  err := b.err.trans a.err
  halt := b.halt.trans a.halt
  seq := b.seq.trans a.seq
  turns := b.turns.trans a.turns
  rxq := b.rxq.trans a.rxq
  txq := b.txq.trans a.txq
  widths := ⟨fun r => (b.widths.1 r).trans (a.widths.1 r), b.widths.2.trans a.widths.2⟩
  mem := fun h => b.mem (a.mem h)
  sha := fun h k => b.sha (a.mem h) (a.sha h k)

/-- An operation that writes no buffer, no queue and not the SHA unit. -/
theorem Kept.of_regs {s t : State}
    (h : t = { s with w := t.w, fl := t.fl, ctr := t.ctr, wi := t.wi, ni := t.ni, first := t.first, uq := t.uq,
                      tick := t.tick }) (hw : SameWidths s t) : Kept s t := by
  rw [h] at hw ⊢
  exact ⟨rfl, rfl, rfl, rfl, rfl, rfl, rfl, rfl, hw, id, fun _ h => h⟩

/-- An operation that writes flags, counters and one vector register, with a vector of that register's width. -/
theorem Kept.of_put {s t : State} (d : VReg) (v : List Word)
    (h : t = { s with w := t.w, fl := t.fl, ctr := t.ctr, wi := t.wi, ni := t.ni, first := t.first, uq := t.uq,
                      tick := t.tick }) (hw : t.w = s.w.put d v) (hl : v.length = (s.w.get d).length) : Kept s t :=
  .of_regs h (.put d v hw hl)

/-- An operation that writes flags and counters only. -/
theorem Kept.of_flags {s t : State}
    (h : t = { s with w := t.w, fl := t.fl, ctr := t.ctr, wi := t.wi, ni := t.ni, first := t.first, uq := t.uq,
                      tick := t.tick }) (hw : t.w = s.w) : Kept s t := .of_regs h (.of_w hw)

theorem Kept.putBytes (s : State) (b : Buf) (off : Nat) (bs : List Byte) (h : s.fits ⟨b, off, bs.length⟩ = true) :
    Kept s (s.putBytes b off bs) :=
  ⟨rfl, rfl, rfl, rfl, rfl, rfl, rfl, rfl, .of_w rfl, fun hw => State.wf_putBytes s b off bs hw h,
    fun _ h => h⟩

theorem Kept.hashed (s : State) (msg : List Byte) : Kept s (s.hashed msg) :=
  ⟨rfl, rfl, rfl, rfl, rfl, rfl, rfl, rfl, .of_w rfl, fun hw => (State.wf_hashed s msg hw).1,
    fun hw _ => (State.wf_hashed s msg hw).2⟩

theorem Kept.afterMgf (s : State) (seed : List Byte) (lb : Nat) : Kept s (s.afterMgf seed lb) := by
  unfold State.afterMgf
  simp only
  split
  · exact .of_flags rfl rfl
  · exact Kept.trans (t := { s with ctr := BitVec.ofNat 32 (mgfHashes lb - 1) }) (.of_flags rfl rfl) (.hashed _ _)

theorem Kept.setCw (s : State) (v : Word) : Kept s (s.setCw v) :=
  .of_regs rfl ⟨fun r => congrArg List.length (WRegs.get_scratch s.w s.w.acc s.w.k0 v s.w.t r), rfl⟩

theorem Kept.putWord (s : State) (d : WDst) (v : Word) : Kept s (s.putWord d v) := by
  cases d with
  | reg r i => exact .of_put r _ rfl rfl (by simp)
  | acc i => exact .of_regs rfl ⟨fun r => congrArg List.length (WRegs.get_scratch s.w _ _ _ _ r), by simp [State.putWord]⟩

/-- MACV's accumulator window written with as many words as it has. -/
theorem Kept.putVdst (s : State) (n : Nat) (d : VDst) (z v : List Word) (hz : s.vec n (vdstSrc d) = some z)
    (hv : v.length = n) : Kept s (s.putVdst d v) := by
  obtain ⟨h1, h2⟩ := State.vec_some hz
  unfold State.vec at hz
  split at hz
  · rename_i hc
    cases hz
    cases d with
    | reg r => exact .of_put r _ rfl rfl (hv.trans hc.2.symm)
    | acc off =>
      refine .of_regs rfl ⟨fun r => congrArg List.length (WRegs.get_scratch s.w _ _ _ _ r), ?_⟩
      have hl : (window s.w.acc off n).length = n := hc.2
      simp only [window, List.length_take, List.length_drop] at hl
      exact splice_length _ _ _ (by omega)
  · cases hz

/-! The shared operations. -/

theorem leftpadTo_post (bs : List Byte) (d : Slice) (s : State) : (leftpadTo bs d s).Post (Kept s) := by
  unfold leftpadTo
  split
  · exact .refl s
  · refine withSlice_post fun h => ?_
    refine Kept.putBytes s _ _ _ ?_
    rw [State.fits_iff] at *
    simp only [leftpad, zeros, List.length_append, List.length_replicate] at *
    omega

theorem modexp_post (n : Nat) (b e m : List Word) (s : State) (hn : 1 ≤ n) (hb : b.length = n) (he : e.length = n)
    (hm : m.length = n) : (modexp n b e m s).Post (Kept s) := by
  unfold modexp
  refine withRegs_post fun hr => ?_
  split
  · exact .of_put .res (oneVec n) rfl rfl ((length_oneVec n).trans (((WRegs.wf_iff _ _).1 hr).1 .res).symm)
  · split
    · exact .refl s
    · rename_i hbit
      have hodd := odd_of_bit m (by simpa [oddModulus] using hbit)
      have hwf := modexpRun_wf (exp := e) (w := s.w) hn hb hm hodd hr
      obtain ⟨res, h1, h2, -⟩ := modexp_result n b e m s.w hn hb he hm hodd
      simp only [h1]
      generalize modexpRun n b e m s.w = w at hwf
      exact .of_regs rfl (.of_wf hr (WRegs.wf_put .res (WRegs.wf_put .zz hwf h2) h2))

theorem frombeTo_post (n : Nat) (bs : List Byte) (d : VReg) (s : State) : (frombeTo n bs d s).Post (Kept s) := by
  unfold frombeTo
  split
  · rename_i h
    exact withReg_post fun hd => .of_put d _ rfl rfl ((fromBE_law n bs h.2).1.trans hd.symm)
  · trivial

/-- One step of MGF1XOR inside its slice keeps every size. -/
theorem mgfBytes_wf (b : Buf) (off n : Nat) (m : Memory) (hw : m.wf = true) (h : off + n ≤ b.size) :
    ((List.range n).foldl (mgfByte b off) m).wf = true := by
  induction n with
  | zero => exact hw
  | succ n ih =>
    rw [List.range_succ, List.foldl_append]
    exact Memory.wf_write _ _ _ _ (ih (by omega)) (.inr (by simp; omega))

/-- Rounds of MGF1XOR write nothing but buffers, the SHA unit and `CTR`. -/
theorem mgfRounds_frame (l : Slice) (seed : List Byte) (cs : List Nat) (s : State) :
    ∃ m h c, cs.foldl (mgfRound l seed) s = { s with mem := m, sha := h, ctr := c } := by
  induction cs generalizing s with
  | nil => exact ⟨_, _, _, rfl⟩
  | cons a cs ih =>
    obtain ⟨m, h, c, e⟩ := ih (mgfRound l seed s a)
    exact ⟨m, h, c, e.trans rfl⟩

theorem mgfRounds_wf (l : Slice) (seed : List Byte) (hf : l.len = 0 ∨ l.off + l.len ≤ l.buf.size) (cs : List Nat)
    (s : State) (hw : s.mem.wf = true) :
    (cs.foldl (mgfRound l seed) s).mem.wf = true
      ∧ (s.sha.wf = true → (cs.foldl (mgfRound l seed) s).sha.wf = true) := by
  induction cs generalizing s with
  | nil => exact ⟨hw, id⟩
  | cons c cs ih =>
    have h1 := State.wf_hashed { s with ctr := BitVec.ofNat 32 c } (seed ++ be4 (BitVec.ofNat 32 c)) hw
    refine (fun q => ⟨(ih _ q).1, fun _ => (ih _ q).2 h1.2⟩) ?_
    by_cases hz : min 32 (l.len - 32 * c) = 0
    · unfold mgfRound
      rw [hz]
      exact h1.1
    · exact mgfBytes_wf _ _ _ _ h1.1 (by omega)

theorem mgf1xor_post (l : Slice) (seed : List Byte) (s : State) (h : s.mem.wf = true → s.fits l = true) :
    (mgf1xor l seed s).Post (Kept s) := by
  unfold mgf1xor
  split
  · exact .refl s
  · have hwf : s.mem.wf = true → _ := fun hw => by
      have hf := (State.fits_iff _ _).1 (h hw)
      rw [(Memory.wf_iff _).1 hw l.buf] at hf
      exact mgfRounds_wf l seed hf (List.range (mgfHashes l.len)) { s with ctr := 0 } hw
    obtain ⟨m, sh, c, e⟩ := mgfRounds_frame l seed (List.range (mgfHashes l.len)) { s with ctr := 0 }
    rw [e] at hwf
    exact (show mgfLoop l seed s = _ from e) ▸ ⟨rfl, rfl, rfl, rfl, rfl, rfl, rfl, rfl, .of_w rfl, fun hw => (hwf hw).1,
      fun hw => (hwf hw).2⟩

theorem pssenc_post (h salt : List Byte) (emBits : Nat) (s : State) : (pssenc h salt emBits s).Post (Kept s) := by
  unfold pssenc
  split
  · exact .refl s
  · rename_i hc
    refine withSlice_post fun hf => ?_
    refine Kept.trans (Kept.hashed _ _) (Kept.trans (Kept.afterMgf _ _ _) (Kept.putBytes _ _ _ _ ?_))
    have hlen := pssEncode_length h salt emBits (by
      unfold pssCheck at hc
      split at hc
      · cases hc
      · split at hc
        · cases hc
        · omega)
    rw [State.fits_iff] at *
    rw [hlen, State.afterMgf_get _ _ _ _ (by simp) (by simp), State.hashed_get _ _ _ (by simp) (by simp)]
    exact hf

theorem pssvfy_post (h : List Byte) (emBits sLen : Nat) (s : State) : (pssvfy h emBits sLen s).Post (Kept s) := by
  by_cases hf : pssSizesOk h emBits sLen = true → s.fits ⟨.em, 0, emLen emBits⟩ = true
  · obtain ⟨t, h1, -, h3, h4, -, h7, h8, -⟩ := pssvfy_law h emBits sLen s hf
    rw [h1]
    exact ⟨h3.key, h3.par, h3.err, h3.halt, h3.seq, h3.turns, h3.rxq, h3.txq, .of_w (by rw [h4]), h7, h8⟩
  · obtain ⟨h1, h2⟩ := Classical.not_imp.1 hf
    simp [pssvfy, withSlice, h1, h2, UResult.Post]

/-- A MODEXP that completes leaves a result of as many words as its operands. -/
theorem modexp_res_length {n : Nat} {b e m : List Word} {s t : State} (hn : 1 ≤ n) (hb : b.length = n)
    (he : e.length = n) (hm : m.length = n) (h : modexp n b e m s = .done t) : t.w.res.length = n := by
  have hp := modexp_post n b e m s hn hb he hm
  rw [h] at hp
  by_cases hr : s.w.wf n = true
  · exact ((WRegs.wf_iff _ _).1 (hp.widths.wf hr)).1 .res
  · simp [modexp, withRegs, hr] at h

/-- The FROMBE of the signing service, and what follows it on a base of 128 words. -/
theorem frombe_bind_post {bs : List Byte} {s : State} {k : State → UResult}
    (hk : ∀ u, Kept s u → u.w.base.length = 128 → (k u).Post (Kept s)) :
    ((frombeTo Config.numWords bs .base s).bind k).Post (Kept s) := by
  unfold frombeTo
  split
  · rename_i hc
    have hb := (fromBE_law 128 bs hc.2).1
    unfold withReg
    split
    · rename_i hd
      exact hk _ (.of_put .base _ rfl rfl (hb.trans hd.symm)) hb
    · trivial
  · trivial

/-- The MODEXP of the signing service, and what follows it on a result of 128 words. -/
theorem modexp_bind_post {s u : State} {e : KeyReg} {k : State → UResult} (hu : Kept s u) (hb : u.w.base.length = 128)
    (hk : ∀ t, Kept s t → t.w.res.length = 128 → (k t).Post (Kept s)) :
    ((modexp Config.numWords u.w.base (keyVec u.key e) (keyVec u.key .n) u).bind k).Post (Kept s) := by
  have hq := modexp_post Config.numWords u.w.base (keyVec u.key e) (keyVec u.key .n) u (by decide) hb
    (keyVec_length _ _) (keyVec_length _ _)
  cases hm : modexp Config.numWords u.w.base (keyVec u.key e) (keyVec u.key .n) u with
  | done t =>
    rw [hm] at hq
    exact hk t (hu.trans hq) (modexp_res_length (by decide) hb (keyVec_length _ _) (keyVec_length _ _) hm)
  | encodingError c t => rw [hm] at hq; exact hu.trans hq
  | fatal c t => rw [hm] at hq; exact hu.trans hq
  | refused r => trivial

theorem signop_post (s : State) : (signop s).Post (Kept s) := by
  refine UResult.Post.bind (pssenc_post _ _ _ s) (fun s1 h1 => ?_) fun _ h => h
  refine UResult.Post.mono (fun _ h => h1.trans h) (frombe_bind_post fun u hu hb => modexp_bind_post hu hb fun t ht _ =>
    UResult.Post.mono (fun _ h => ht.trans h) (leftpadTo_post _ _ _))

theorem verifyop_post (s : State) : (verifyop s).Post (Kept s) := by
  refine frombe_bind_post fun u hu hb => ?_
  have hu2 : Kept s u.spendOrd := hu.trans (.of_flags rfl rfl)
  simp only
  split
  · exact hu2.trans (.of_flags rfl rfl)
  · refine modexp_bind_post hu2 hb fun t ht hres => UResult.Post.mono (fun _ h => Kept.trans ?_ h) (pssvfy_post _ _ _ _)
    refine ⟨ht.key, ht.par, ht.err, ht.halt, ht.seq, ht.turns, ht.rxq, ht.txq, ht.widths, fun hw => ?_, ht.sha⟩
    have hl := (toBE_law t.w.res).1
    rw [hres] at hl
    exact State.wf_putBytes _ _ _ _ (ht.mem hw) (State.fits_of_wf _ (ht.mem hw) .em 0 _ (by rw [hl]; decide))

/-! The instructions. -/

/-- What a next state of a unit operation can be: what it computed, with the bytes it took from `RXQ` and sent, or that
with an exception taken. -/
def UnitNext (s t : State) : Prop :=
  ∃ rx bs u, Kept { s with rxq := rx, txq := s.txq ++ bs } u
    ∧ (t = u ∨ (∃ c, t = u.raiseEncoding c) ∨ ∃ c, t = u.raiseFatal c)

theorem unitNext_of_postIO {s t : State} {u : UResult}
    (hu : u.Post fun v => ∃ rx bs, Kept { s with rxq := rx, txq := s.txq ++ bs } v) (h : finishUnit u = .next t) :
    UnitNext s t := by
  rcases finishUnit_next h with rfl | ⟨c, v, rfl, rfl⟩ | ⟨c, v, rfl, rfl⟩
  · obtain ⟨rx, bs, hk⟩ := hu
    exact ⟨rx, bs, _, hk, .inl rfl⟩
  · obtain ⟨rx, bs, hk⟩ := hu
    exact ⟨rx, bs, _, hk, .inr (.inl ⟨c, rfl⟩)⟩
  · obtain ⟨rx, bs, hk⟩ := hu
    exact ⟨rx, bs, _, hk, .inr (.inr ⟨c, rfl⟩)⟩

theorem unitNext_of_post {s t : State} {u : UResult} (hu : u.Post (Kept s)) (h : finishUnit u = .next t) :
    UnitNext s t := by
  refine unitNext_of_postIO (UResult.Post.mono (fun v hk => ⟨s.rxq, [], ?_⟩) hu) h
  simpa using hk

/-- The instruction is a unit operation: it is issued, not sent on the byte stream. -/
def Instr.isUnit (i : Instr) : Prop := ∃ c, hasSelect i c

theorem State.nextSalt_length (s : State) : s.nextSalt.length = 32 := by
  unfold State.nextSalt
  split
  · simp
  · simp [State.drawn]

theorem saltgen_kept (s : State) : Kept s (saltgen s) :=
  ⟨rfl, rfl, rfl, rfl, rfl, rfl, rfl, rfl, .of_w rfl,
    fun hw => Memory.wf_put s.mem .salt s.nextSalt hw s.nextSalt_length, fun _ h => h⟩

theorem execRdbyte_next {buf : Buf} {i : Nat} {s t : State} (h : execRdbyte buf i s = .next t) : UnitNext s t := by
  refine unitNext_of_postIO (withSlice_post fun hf => ?_) h
  split
  · exact ⟨s.rxq, [], by rw [List.append_nil]; exact .of_flags rfl rfl⟩
  · rename_i b rest _
    exact ⟨rest, [], by rw [List.append_nil]; exact Kept.putBytes { s with rxq := rest } _ _ _ hf⟩

theorem execRdbuf_next {d : Slice} {s t : State} (h : execRdbuf d s = .next t) : UnitNext s t := by
  refine unitNext_of_postIO (withSlice_post fun hf => ?_) h
  have hk : Kept { s with rxq := s.rxq.drop d.len, txq := s.txq ++ [] }
      (({ s with rxq := s.rxq.drop d.len }).putBytes d.buf d.off (s.rxq.take d.len)) := by
    rw [List.append_nil]
    refine Kept.putBytes { s with rxq := s.rxq.drop d.len } _ _ _ ?_
    rw [State.fits_iff] at *
    simp only [List.length_take]
    omega
  simp only
  split
  · exact ⟨_, _, hk⟩
  · exact ⟨_, _, hk.trans (.of_flags rfl rfl)⟩

theorem exec_unit_next (i : Instr) (s t : State) (hi : Instr.isUnit i) (h : exec i s = .next t) : UnitNext s t := by
  cases i with
  | sign _ => obtain ⟨_, _, h⟩ := hi; cases h
  | verify _ _ => obtain ⟨_, _, h⟩ := hi; cases h
  | getowner => obtain ⟨_, _, h⟩ := hi; cases h
  | getaddress => obtain ⟨_, _, h⟩ := hi; cases h
  | ignored_04_07 _ => obtain ⟨_, _, h⟩ := hi; cases h
  | ignored_08_0f _ => obtain ⟨_, _, h⟩ := hi; cases h
  | ignored_10_1f _ => obtain ⟨_, _, h⟩ := hi; cases h
  | ignored_20_3f _ => obtain ⟨_, _, h⟩ := hi; cases h
  | ignored_40_7f _ => obtain ⟨_, _, h⟩ := hi; cases h
  | ignored_80_ff _ => obtain ⟨_, _, h⟩ := hi; cases h
  | addw a b cin d =>
    refine unitNext_of_post (withWord_post fun _ _ => withWord_post fun _ _ => withWordDst_post fun _ => ?_) h
    exact Kept.trans (Kept.putWord _ _ _) (.of_flags rfl rfl)
  | subw a b bin d =>
    refine unitNext_of_post (withWord_post fun _ _ => withWord_post fun _ _ => withWordDst_post fun _ => ?_) h
    exact Kept.trans (Kept.putWord _ _ _) (.of_flags rfl rfl)
  | macw a b z cin d =>
    refine unitNext_of_post (withWord_post fun _ _ => withWord_post fun _ _ => withWord_post fun _ _ =>
      withWord_post fun _ _ => withWordDst_post fun _ => ?_) h
    exact Kept.trans (Kept.putWord _ _ _) (Kept.setCw _ _)
  | addv nW x y d =>
    refine unitNext_of_post (withVec_post fun xs hx => withVec_post fun ys hy => withReg_post fun hd => ?_) h
    have hx := (State.vec_some hx).2
    exact Kept.of_put d _ rfl rfl (by rw [addv_length xs ys false (hx.trans (State.vec_some hy).2.symm), hx, hd])
  | subv nW x y d =>
    refine unitNext_of_post (withVec_post fun xs hx => withVec_post fun ys hy => withReg_post fun hd => ?_) h
    have hx := (State.vec_some hx).2
    exact Kept.of_put d _ rfl rfl (by rw [subv_length xs ys false (hx.trans (State.vec_some hy).2.symm), hx, hd])
  | macv nW zv x y =>
    refine unitNext_of_post (withVec_post fun zs hz => withVec_post fun xs hx => withWord_post fun yw _ => ?_) h
    split
    · trivial
    · have hl := (macv_length zs xs yw 0 ((State.vec_some hz).2.trans (State.vec_some hx).2.symm)).trans (State.vec_some hz).2
      exact Kept.trans (Kept.putVdst _ _ _ _ _ hz hl) (Kept.setCw _ _)
  | cmpv nW x y =>
    refine unitNext_of_post (withVec_post fun _ _ => withVec_post fun _ _ => ?_) h
    exact Kept.of_flags rfl rfl
  | remv nW x m d =>
    refine unitNext_of_post (withVec_post fun _ _ => withVec_post fun ms hm => withReg_post fun hd => ?_) h
    split
    · exact Kept.refl s
    · rename_i hz
      have hz : 0 < val ms := Nat.pos_of_ne_zero fun e => hz ((iszerov_iff ms).2 e)
      exact Kept.of_put d _ rfl rfl (by rw [remv_length _ _ hz, (State.vec_some hm).2, hd])
  | iszerov nW x =>
    refine unitNext_of_post (withVec_post fun _ _ => ?_) h
    exact Kept.of_flags rfl rfl
  | frombe nW b d =>
    exact unitNext_of_post (withBytes_post fun _ _ => frombeTo_post _ _ _ _) h
  | tobe nW x buf off =>
    refine unitNext_of_post (withVec_post fun v hv => withSlice_post fun hf => ?_) h
    refine Kept.putBytes _ _ _ _ ?_
    rw [(toBE_law v).1, (State.vec_some hv).2]
    exact hf
  | leftpad b d => exact unitNext_of_post (withBytes_post fun _ _ => leftpadTo_post _ _ _) h
  | n0inv m0 =>
    refine unitNext_of_post (withWord_post fun _ _ => ?_) h
    split
    · exact Kept.of_regs rfl ⟨fun r => congrArg List.length (WRegs.get_scratch s.w _ _ _ _ r), rfl⟩
    · trivial
  | montmul nW x y m k d =>
    refine unitNext_of_post (withVec_post fun xs hx => withVec_post fun ys hy => withVec_post fun ms hm =>
      withWord_post fun k _ => withReg_post fun hd => withAcc_post fun ha => ?_) h
    split
    · trivial
    split
    · trivial
    split
    · trivial
    · obtain ⟨hn, hx⟩ := State.vec_some hx
      have hl := montResult_length nW xs ys ms k hn hx (State.vec_some hy).2 (State.vec_some hm).2
      have hacc := (montRun_law nW xs ys ms k hn hx (State.vec_some hy).2 (State.vec_some hm).2).1
      have h1 : Kept s (s.afterMont (montRun nW xs ys ms k)) :=
        .of_regs rfl ⟨fun r => congrArg List.length (WRegs.get_scratch s.w _ s.w.k0 _ _ r), hacc.trans ha.symm⟩
      exact h1.trans (.of_put d _ rfl rfl (hl.trans (hd.symm.trans (h1.widths.1 d).symm)))
  | montfix nW zv m =>
    refine unitNext_of_post (withVec_post fun zs hz => withVec_post fun ms hm => ?_) h
    split
    · trivial
    split
    · rename_i r hr
      refine Kept.of_put zv r rfl rfl ?_
      have hzl := (State.vec_some hz).2
      have hzz : zs = s.w.get zv := by
        unfold State.vec at hz
        split at hz
        · cases hz; rfl
        · cases hz
      rw [← hzz, hzl]
      exact montfixWith_length hzl (State.vec_some hm).2 (fun z1 h1 => by split <;> [exact h1; exact (State.vec_some hm).2]) hr
    · exact Kept.refl s
  | rrcalc nW m =>
    refine unitNext_of_post (withVec_post fun ms hm => withReg_post fun hd => ?_) h
    split
    · exact Kept.refl s
    · rename_i hz
      have hz : 0 < val ms := Nat.pos_of_ne_zero fun e => hz ((iszerov_iff ms).2 e)
      have hl := (rrcalc_law ms hz).1
      rw [(State.vec_some hm).2] at hl
      exact Kept.of_put .rr _ rfl rfl (hl.trans hd.symm)
  | modexp nW b e m =>
    refine unitNext_of_post (withVec_post fun _ hb => withVec_post fun _ he => withVec_post fun _ hm => ?_) h
    split
    · trivial
    · exact modexp_post _ _ _ _ _ (State.vec_some hb).1 (State.vec_some hb).2 (State.vec_some he).2 (State.vec_some hm).2
  | sha256 msg =>
    refine unitNext_of_post (withBytes_post fun _ _ => ?_) h
    exact Kept.hashed _ _
  | mgf1xor buf seed =>
    exact unitNext_of_post (withSlice_post fun hf => withBytes_post fun _ _ => mgf1xor_post _ _ _ fun _ => hf) h
  | pssenc mh salt e =>
    exact unitNext_of_post (withBytes_post fun _ _ => withBytes_post fun _ _ => pssenc_post _ _ _ _) h
  | pssvfy mh e l => exact unitNext_of_post (withBytes_post fun _ _ => pssvfy_post _ _ _ _) h
  | saltgen => exact unitNext_of_post (u := .done (saltgen s)) (saltgen_kept s) h
  | signop => exact unitNext_of_post (signop_post s) h
  | verifyop => exact unitNext_of_post (verifyop_post s) h
  | rdbyte buf i => exact execRdbyte_next h
  | rdbuf d => exact execRdbuf_next h
  | wrbyte b =>
    refine unitNext_of_postIO (withBytes_post fun _ _ => ?_) h
    split
    · rename_i x _
      exact ⟨s.rxq, [x], Kept.refl _⟩
    · trivial

end Sys2Proof.Machine
end

