-- ==== Sys2Proof/Laws/PerInstr.lean ====
section
/-! SUPPORT. Per instruction: its encoding falls in its own row of `spec/opcode_table.json` (R92, R99). -/

namespace Sys2Proof.Laws.TableRow

/-- The 8-bit word a row of the table describes: the opcode byte, or the select code. -/
def word : Image → Option Byte
  | .stream bytes => bytes.head?
  | .issue u => some u.sel

/-- The mask and the match of the row an instruction stands for. -/
def row : Instr → Byte × Byte
  | .sign _ => (0xFF, 0x00)
  | .verify _ _ => (0xFF, 0x01)
  | .getowner => (0xFF, 0x02)
  | .getaddress => (0xFF, 0x03)
  | .ignored_04_07 _ => (0xFC, 0x04)
  | .ignored_08_0f _ => (0xF8, 0x08)
  | .ignored_10_1f _ => (0xF0, 0x10)
  | .ignored_20_3f _ => (0xE0, 0x20)
  | .ignored_40_7f _ => (0xC0, 0x40)
  | .ignored_80_ff _ => (0x80, 0x80)
  | .addw _ _ _ _ => (0xFF, 0x00)
  | .subw _ _ _ _ => (0xFF, 0x01)
  | .macw _ _ _ _ _ => (0xFF, 0x02)
  | .addv _ _ _ _ => (0xFF, 0x03)
  | .subv _ _ _ _ => (0xFF, 0x04)
  | .macv _ _ _ _ => (0xFF, 0x05)
  | .cmpv _ _ _ => (0xFF, 0x06)
  | .remv _ _ _ _ => (0xFF, 0x07)
  | .iszerov _ _ => (0xFF, 0x08)
  | .frombe _ _ _ => (0xFF, 0x09)
  | .tobe _ _ _ _ => (0xFF, 0x0A)
  | .leftpad _ _ => (0xFF, 0x0B)
  | .n0inv _ => (0xFF, 0x10)
  | .montmul _ _ _ _ _ _ => (0xFF, 0x11)
  | .montfix _ _ _ => (0xFF, 0x12)
  | .rrcalc _ _ => (0xFF, 0x13)
  | .modexp _ _ _ _ => (0xFF, 0x20)
  | .sha256 _ => (0xFF, 0x30)
  | .mgf1xor _ _ => (0xFF, 0x40)
  | .pssenc _ _ _ => (0xFF, 0x50)
  | .pssvfy _ _ _ => (0xFF, 0x51)
  | .saltgen => (0xFF, 0x60)
  | .signop => (0xFF, 0x61)
  | .verifyop => (0xFF, 0x62)
  | .rdbyte _ _ => (0xFF, 0x70)
  | .rdbuf _ => (0xFF, 0x71)
  | .wrbyte _ => (0xFF, 0x72)

/-- The word of the instruction's encoding, masked as its row says, is the row's match. -/
def Statement (i : Instr) : Prop := (word (encode i)).map (· &&& (row i).1) = some (row i).2

theorem sign (digest : List Byte) : Statement (.sign digest) := by simp [Statement, word, encode, row]
theorem verify (digest signature : List Byte) : Statement (.verify digest signature) := by simp [Statement, word, encode, row]
theorem getowner : Statement (.getowner) := by simp [Statement, word, encode, row]
theorem getaddress : Statement (.getaddress) := by simp [Statement, word, encode, row]
theorem ignored_04_07 (x : BitVec 2) : Statement (.ignored_04_07 x) := by revert x; unfold Statement; decide
theorem ignored_08_0f (x : BitVec 3) : Statement (.ignored_08_0f x) := by revert x; unfold Statement; decide
theorem ignored_10_1f (x : BitVec 4) : Statement (.ignored_10_1f x) := by revert x; unfold Statement; decide
theorem ignored_20_3f (x : BitVec 5) : Statement (.ignored_20_3f x) := by revert x; unfold Statement; decide
theorem ignored_40_7f (x : BitVec 6) : Statement (.ignored_40_7f x) := by revert x; unfold Statement; decide
theorem ignored_80_ff (x : BitVec 7) : Statement (.ignored_80_ff x) := by revert x; unfold Statement; decide
theorem addw (a b : WSrc) (cin : CSrc) (d : WDst) : Statement (.addw a b cin d) := by simp [Statement, word, encode, row]
theorem subw (a b : WSrc) (bin : CSrc) (d : WDst) : Statement (.subw a b bin d) := by simp [Statement, word, encode, row]
theorem macw (a b z cin : WSrc) (d : WDst) : Statement (.macw a b z cin d) := by simp [Statement, word, encode, row]
theorem addv (nW : Nat) (x y : VSrc) (d : VReg) : Statement (.addv nW x y d) := by simp [Statement, word, encode, row]
theorem subv (nW : Nat) (x y : VSrc) (d : VReg) : Statement (.subv nW x y d) := by simp [Statement, word, encode, row]
theorem macv (nW : Nat) (zv : VDst) (x : VSrc) (y : WSrc) : Statement (.macv nW zv x y) := by simp [Statement, word, encode, row]
theorem cmpv (nW : Nat) (x y : VSrc) : Statement (.cmpv nW x y) := by simp [Statement, word, encode, row]
theorem remv (nW : Nat) (x m : VSrc) (d : VReg) : Statement (.remv nW x m d) := by simp [Statement, word, encode, row]
theorem iszerov (nW : Nat) (x : VSrc) : Statement (.iszerov nW x) := by simp [Statement, word, encode, row]
theorem frombe (nW : Nat) (b : BSrc) (d : VReg) : Statement (.frombe nW b d) := by simp [Statement, word, encode, row]
theorem tobe (nW : Nat) (x : VSrc) (buf : Buf) (off : Nat) : Statement (.tobe nW x buf off) := by simp [Statement, word, encode, row]
theorem leftpad (b : BSrc) (d : Slice) : Statement (.leftpad b d) := by simp [Statement, word, encode, row]
theorem n0inv (m0 : WSrc) : Statement (.n0inv m0) := by simp [Statement, word, encode, row]
theorem montmul (nW : Nat) (x y m : VSrc) (k : WSrc) (d : VReg) : Statement (.montmul nW x y m k d) := by simp [Statement, word, encode, row]
theorem montfix (nW : Nat) (zv : VReg) (m : VSrc) : Statement (.montfix nW zv m) := by simp [Statement, word, encode, row]
theorem rrcalc (nW : Nat) (m : VSrc) : Statement (.rrcalc nW m) := by simp [Statement, word, encode, row]
theorem modexp (nW : Nat) (base exp m : VSrc) : Statement (.modexp nW base exp m) := by simp [Statement, word, encode, row]
theorem sha256 (msg : BSrc) : Statement (.sha256 msg) := by simp [Statement, word, encode, row]
theorem mgf1xor (buf : Slice) (seed : BSrc) : Statement (.mgf1xor buf seed) := by simp [Statement, word, encode, row]
theorem pssenc (mHash salt : BSrc) (emBits : Nat) : Statement (.pssenc mHash salt emBits) := by simp [Statement, word, encode, row]
theorem pssvfy (mHash : BSrc) (emBits sLen : Nat) : Statement (.pssvfy mHash emBits sLen) := by simp [Statement, word, encode, row]
theorem saltgen : Statement (.saltgen) := by simp [Statement, word, encode, row]
theorem signop : Statement (.signop) := by simp [Statement, word, encode, row]
theorem verifyop : Statement (.verifyop) := by simp [Statement, word, encode, row]
theorem rdbyte (buf : Buf) (i : Nat) : Statement (.rdbyte buf i) := by simp [Statement, word, encode, row]
theorem rdbuf (d : Slice) : Statement (.rdbuf d) := by simp [Statement, word, encode, row]
theorem wrbyte (b : BSrc) : Statement (.wrbyte b) := by simp [Statement, word, encode, row]

end Sys2Proof.Laws.TableRow
end

