-- ==== Sys2Proof/Laws/Step.lean ====
section
/-! SUPPORT. The step: what ENGINE's turn runs, and the small facts of the dispatcher. -/

namespace Sys2Proof.Machine

/-- A step on ENGINE's turn is what the sequencer fetches. -/
theorem step_engine {s s0 : State} (h : s.engineTurn s0) :
    step s = (match engineFetch s0 with
      | .run i s' => exec i s'
      | .move o => o) := by
  rcases h with ⟨h, rfl⟩ | ⟨ts, h, rfl⟩
  · simp only [step, fetch, h] <;> cases engineFetch s0 <;> rfl
  · simp only [step, fetch, h] <;> cases engineFetch { s with turns := ts } <;> rfl

/-- The dispatcher names a command by its opcode (R305). -/
theorem commandOf_some {b : Byte} {op : Cmd} (h : commandOf b = some op) : b = op.opcode := by
  have : ∀ (op : Cmd) (b : Byte), commandOf b = some op → b = op.opcode := by
    intro op
    cases op <;> decide
  exact this op b h

theorem commandOf_opcode (op : Cmd) : commandOf op.opcode = some op := by cases op <;> rfl

theorem commandOf_none_iff (b : Byte) : commandOf b = none ↔ 4 ≤ b.toNat := by
  have : ∀ b : Byte, commandOf b = none ↔ 4 ≤ b.toNat := by decide
  exact this b

theorem encode_ignoredOf {b : Byte} (h : commandOf b = none) : encode (ignoredOf b) = .stream [b] := by
  have : ∀ b : Byte, commandOf b = none → encode (ignoredOf b) = .stream [b] := by decide
  exact this b h

/-- An opcode that names no command runs without effect (R311). -/
theorem exec_ignoredOf (b : Byte) (s : State) : exec (ignoredOf b) s = .next s := by
  unfold ignoredOf
  split
  · rfl
  split
  · rfl
  split
  · rfl
  split
  · rfl
  split
  · rfl
  · rfl

/-- A decoded issue is a unit operation. -/
theorem isUnit_of_decodeIssue {u : Issue} {i : Instr} (h : decodeIssue u = .ok i) :
    encode i = .issue u ∧ Instr.isUnit i := by
  have he : encode i = .issue u := by
    obtain ⟨sel, args⟩ := u
    unfold decodeIssue at h
    simp only at h
    split at h
    all_goals first
      | cases h
      | rename_i hsel
        split at h
        · cases h
          have : sel = BitVec.ofNat 8 sel.toNat := by simp
          rw [this, hsel]
          rfl
        · cases h
  exact ⟨he, u.sel, u.args, he⟩

/-- The step of IDLE with nothing issued, on an opcode byte (R305). -/
theorem dispatchByte_eq (b : Byte) (s : State) :
    dispatchByte b s = (match commandOf b with
      | some op => .move (.next (s.goto (rxFrom op 0)))
      | none => .run (ignoredOf b) s) := by
  unfold dispatchByte decodeStream
  cases h : commandOf b <;> simp only [h]

/-- The command in EXEC, on payload buffers of their sizes (R90, R94, R95). -/
theorem runCommand_eq (op : Cmd) (s : State) (hw : s.mem.wf = true) :
    runCommand op s = .run (match op with
      | .sign => .sign s.mem.digest
      | .verify => .verify s.mem.digest s.mem.sigbuf
      | .getowner => .getowner
      | .getaddress => .getaddress) s := by
  have hd : s.mem.digest.length = 32 := (Memory.wf_iff _).1 hw .digest
  have hs : s.mem.sigbuf.length = 512 := (Memory.wf_iff _).1 hw .sigbuf
  cases op
  · have e : s.mem.digest.take 32 = s.mem.digest := List.take_of_length_le (by omega)
    simp only [runCommand, decodeStream, commandOf_opcode, State.payload, hd, e]
    rfl
  · have hl : (s.mem.digest ++ s.mem.sigbuf).length = 544 := by simp [hd, hs]
    have e1 : (s.mem.digest ++ s.mem.sigbuf).take 32 = s.mem.digest := List.take_left' hd
    have e2 : ((s.mem.digest ++ s.mem.sigbuf).drop 32).take 512 = s.mem.sigbuf := by
      rw [List.drop_left' hd, List.take_of_length_le (by omega)]
    simp only [runCommand, decodeStream, commandOf_opcode, State.payload, hl, e1, e2]
    rfl
  · rfl
  · rfl

theorem Memory.wf_payload (s : State) (k : Nat) (b : Byte) (hw : s.mem.wf = true) (hk : k < 544) :
    (s.storePayload k b).mem.wf = true := by
  unfold State.storePayload
  split
  · exact State.wf_putBytes _ _ _ _ hw (State.fits_of_wf _ hw .digest _ _ (by simp [Buf.size]; omega))
  · exact State.wf_putBytes _ _ _ _ hw (State.fits_of_wf _ hw .sigbuf _ _ (by simp [Buf.size]; omega))

theorem State.wf_forget_regs (s : State) : s.forget.w.wf 128 = true := by
  rw [State.forget_w]
  exact WRegs.wf_free _

theorem State.wf_forget (s : State) : s.forget.mem.wf = true ∧ s.forget.sha.wf = true :=
  ⟨Memory.wf_free _, ShaRegs.wf_free _⟩

theorem State.wf_abandon (s : State) (hw : s.mem.wf = true) :
    s.abandon.w.wf 128 = true ∧ s.abandon.mem.wf = true ∧ s.abandon.sha.wf = true := by
  refine ⟨?_, ?_, s.wf_forget.2⟩
  · rw [State.abandon_w]
    exact s.wf_forget_regs
  · have hf := s.wf_forget.1
    rw [State.abandon_mem, State.abandonedSigbuf]
    generalize s.forget.mem = m at *
    rw [Memory.wf_iff] at *
    have hg : (if s.seq = .exec .verify then s.mem.sigbuf else m.sigbuf).length = Buf.sigbuf.size := by
      split
      exacts [hw .sigbuf, hf .sigbuf]
    intro b
    cases b
    exacts [hw .digest, hf .salt, hf .em, hg, hf .hout, hf .hblk]

/-- Everything a platform report inside ENGINE's step can lead to (R333, R339). -/
theorem platformFatalInside_cases (c : PlatformCause) (s : State) :
    (s.halt = true ∧ platformFatalInside c s = .next s)
      ∨ (s.halt = false ∧ platformFatalInside c s = .next (s.abandon.raiseFatal c.toFatal))
      ∨ (s.halt = false ∧ platformFatalInside c s = .next (s.raiseFatal c.toFatal)) := by
  unfold platformFatalInside
  cases s.halt
  · right
    simp only [Bool.false_eq_true, if_false, true_and]
    split <;> simp
  · exact .inl ⟨rfl, rfl⟩

/-! What a command can lead to. -/

theorem exec_sign_next {d : List Byte} {s t : State} (h : exec (.sign d) s = .next t) :
    d.length = 32
      ∧ finishCommand (.txp .sign 0) (signop (saltgen { s with mem := { s.mem with digest := d } })) = .next t := by
  simp only [exec, execSign] at h
  split at h
  · rename_i hd
    exact ⟨hd, h⟩
  · cases h

theorem exec_verify_next {d g : List Byte} {s t : State} (h : exec (.verify d g) s = .next t) :
    d.length = 32 ∧ g.length = 512
      ∧ finishCommand (.txp .verify 0) (verifyop { s with mem := { s.mem with digest := d, sigbuf := g } })
        = .next t := by
  simp only [exec, execVerify] at h
  split at h
  · rename_i hd
    exact ⟨hd.1, hd.2, h⟩
  · cases h

theorem finishCommand_kept {q : Seq} {s t : State} {u : UResult} (hu : u.Post (Kept s))
    (h : finishCommand q u = .next t) :
    ∃ v, Kept s v ∧ (t = v.goto q ∨ (∃ c, t = (v.raiseEncoding c).goto .txe) ∨ ∃ c, t = v.raiseFatal c) := by
  rcases finishCommand_next h with ⟨v, rfl, rfl⟩ | ⟨c, v, rfl, rfl⟩ | ⟨c, v, rfl, rfl⟩
  · exact ⟨_, hu, .inl rfl⟩
  · exact ⟨_, hu, .inr (.inl ⟨c, rfl⟩)⟩
  · exact ⟨_, hu, .inr (.inr ⟨c, rfl⟩)⟩

/-- Everything the step of EXEC can lead to, where it gives a next state: the response, TXE or DIAG; what it keeps. -/
theorem exec_command_next {op : Cmd} {s s' t : State} {i : Instr} (hr : runCommand op s = .run i s')
    (h : exec i s' = .next t) :
    ∃ v : State, v.key = s.key ∧ v.par = s.par ∧ v.err = s.err ∧ v.halt = s.halt
      ∧ (v.turns = s.turns ∧ v.rxq = s.rxq ∧ v.txq = s.txq) ∧ SameWidths s v
      ∧ (s.mem.wf = true → v.mem.wf = true ∧ (s.sha.wf = true → v.sha.wf = true))
      ∧ (t = v.goto (v.sendFrom op 0) ∨ (t = v.goto (.txp op 0) ∧ (op = .sign ∨ op = .verify))
        ∨ (∃ c, t = (v.raiseEncoding c).goto .txe) ∨ ∃ c, t = v.raiseFatal c) := by
  have hs' : s' = s ∧ ∃ r, decodeStream (op.opcode :: s.payload op) = .ok (i, r) := by
    unfold runCommand at hr
    split at hr
    · rename_i heq
      cases hr
      exact ⟨rfl, _, heq⟩
    · cases hr
  obtain ⟨rfl, r, hd⟩ := hs'
  unfold decodeStream at hd
  simp only [commandOf_opcode] at hd
  cases op
  · simp only at hd
    split at hd
    · cases hd
    · cases hd
      obtain ⟨hl, hf⟩ := exec_sign_next h
      obtain ⟨v, hk, hv⟩ := finishCommand_kept (signop_post _) hf
      have hk' := (saltgen_kept { s' with mem := { s'.mem with digest := (s'.payload .sign).take 32 } }).trans hk
      refine ⟨v, hk'.key, hk'.par, hk'.err, hk'.halt, ⟨hk'.turns, hk'.rxq, hk'.txq⟩, hk'.widths, fun hw => ?_, ?_⟩
      · have := Memory.wf_put s'.mem .digest _ hw hl
        exact ⟨hk'.mem this, hk'.sha this⟩
      · rcases hv with hv | hv | hv
        · exact .inr (.inl ⟨hv, .inl rfl⟩)
        · exact .inr (.inr (.inl hv))
        · exact .inr (.inr (.inr hv))
  · simp only at hd
    split at hd
    · cases hd
    · cases hd
      obtain ⟨hl, hg, hf⟩ := exec_verify_next h
      obtain ⟨v, hk, hv⟩ := finishCommand_kept (verifyop_post _) hf
      refine ⟨v, hk.key, hk.par, hk.err, hk.halt, ⟨hk.turns, hk.rxq, hk.txq⟩, hk.widths, fun hw => ?_, ?_⟩
      · have := Memory.wf_put _ .sigbuf _ (Memory.wf_put s'.mem .digest _ hw hl) hg
        exact ⟨hk.mem this, hk.sha this⟩
      · rcases hv with hv | hv | hv
        · exact .inr (.inl ⟨hv, .inr rfl⟩)
        · exact .inr (.inr (.inl hv))
        · exact .inr (.inr (.inr hv))
  · cases hd
    cases h
    exact ⟨s', rfl, rfl, rfl, rfl, ⟨rfl, rfl, rfl⟩, .refl s', fun h => ⟨h, id⟩, .inl rfl⟩
  · cases hd
    cases h
    exact ⟨s', rfl, rfl, rfl, rfl, ⟨rfl, rfl, rfl⟩, .refl s', fun h => ⟨h, id⟩, .inl rfl⟩

theorem seqLegal_sendFrom (s : State) (op : Cmd) (k : Nat) : (s.goto (s.sendFrom op k)).seqLegal := by
  unfold State.seqLegal State.sendFrom State.goto
  split
  · rename_i h
    split at h <;> cases h
  · rename_i h
    split at h
    · cases h
      assumption
    · cases h
  · trivial

/-! Runs. -/

theorem Steps.trans {a b : Nat} {s t u : State} (h : Steps a s t) (k : Steps b t u) : Steps (a + b) s u := by
  induction h with
  | refl s => simpa using k
  | @tail n _ _ _ h _ ih =>
    have := Steps.tail h (ih k)
    rwa [show n + 1 + b = n + b + 1 by omega]

end Sys2Proof.Machine
end

