-- ==== Sys2Proof/Tests/Slice0.lean ====
section
/-! SUPPORT. Tests: the static checks, the decoder on words written out from the tables, one small step per
instruction with values from `95_test_vectors.md` or worked out by hand from the rule, the opcode-table words, and for
every obligation a state and operands that meet its hypotheses. -/

namespace Sys2Proof.Tests

set_option Elab.async false

open Sys2Proof.Machine

/-! Helpers. -/

/-- A field of the next state, if there is one. -/
def after {α : Type} (o : Out) (f : State → α) : Option α :=
  match o with
  | .next t => some (f t)
  | _ => none

/-- The refusal, if there is one. -/
def refusal (o : Out) : Option Refusal :=
  match o with
  | .refused r => some r
  | _ => none

/-- 128 words with word 0 given. -/
def small (w : Word) : Vector Word 128 := (Vector.replicate 128 0).set 0 w

/-- The reset state with the small odd modulus 13, a zero `KEY_D`, `KEY_E = 1`, a fixed zero salt, a one-byte
diagnostic and a two-byte stub response. -/
def st : State := { State.reset with
  key := ⟨small 13, small 0, small 1⟩
  par := ⟨some (Vector.replicate 32 0), [0xEE], [0x53, 0x54], none⟩ }

/-- `st` with word registers of the widths of `nW = n`. -/
def narrow (n : Nat) : State := { st with
  w := { st.w with
    base := zeroVec n, rr := zeroVec n, one := zeroVec n, tbl := Vector.replicate 16 (zeroVec n)
    z := zeroVec n, zz := zeroVec n, res := zeroVec n, acc := zeroVec (2 * n) } }

/-- `st` with another modulus and exponents. -/
def withKey (n d e : Word) : State := { st with key := ⟨small n, small d, small e⟩ }

/-- `st` with an empty stub response. -/
def stNoStub : State := { st with par := ⟨none, [], [], none⟩ }

/-! The static checks (WellFormed.lean). -/

theorem test_wf_sign_payload : (Instr.sign (zeros 31)).wf = false := by decide
theorem test_wf_verify_digest : (Instr.verify (zeros 33) (zeros 512)).wf = false := by decide +kernel
theorem test_wf_verify_signature : (Instr.verify (zeros 32) (zeros 511)).wf = false := by decide +kernel
theorem test_wf_key_word_index : (Instr.addw (.key .n 128) (.lit 0) (.lit false) (.acc 0)).wf = false := by decide
theorem test_wf_no_words : (Instr.addv 0 (.lit []) (.lit []) .z).wf = false := by decide
theorem test_wf_literal_width : (Instr.addv 2 (.lit [1]) (.lit [1, 0]) .z).wf = false := by decide
theorem test_wf_key_width : (Instr.cmpv 2 (.key .n) (.lit [1, 0])).wf = false := by decide
theorem test_wf_macv_overlap : (Instr.macv 2 (.acc 0) (.acc 1) (.lit 1)).wf = false := by decide
theorem test_wf_frombe_length : (Instr.frombe 2 (.lit [0, 0, 0]) .base).wf = false := by decide
theorem test_wf_tobe_slice : (Instr.tobe 1 (.lit [1]) .digest 29).wf = false := by decide
theorem test_wf_leftpad_slice : (Instr.leftpad (.lit []) ⟨.em, 1, 512⟩).wf = false := by decide
theorem test_wf_source_slice : (Instr.sha256 (.cat (.lit [1]) (.slice ⟨.salt, 30, 3⟩))).wf = false := by decide
theorem test_wf_montmul_result : (Instr.montmul 1 (.reg .z) (.lit [1]) (.lit [3]) .k0 .z).wf = false := by decide
theorem test_wf_montmul_acc : (Instr.montmul 1 (.acc 0) (.lit [1]) (.lit [3]) .k0 .z).wf = false := by decide
theorem test_wf_modexp_base : (Instr.modexp 1 (.reg (.tbl 1)) (.lit [1]) (.lit [3])).wf = false := by decide
theorem test_wf_modexp_modulus : (Instr.modexp 1 (.lit [1]) (.lit [1]) (.reg .z)).wf = false := by decide
theorem test_wf_rdbyte_index : (Instr.rdbyte .hblk 64).wf = false := by decide
theorem test_wf_wrbyte_length : (Instr.wrbyte (.lit [1, 2])).wf = false := by decide
theorem test_wf_accepts :
    (Instr.verify (zeros 32) (zeros 512)).wf = true ∧ (Instr.rdbyte .hblk 63).wf = true
      ∧ (Instr.macv 2 (.acc 0) (.acc 2) (.lit 1)).wf = true := by decide +kernel

/-! The decoder: words of R91, R92 and R99 written out bit by bit. -/

theorem test_decode_sign : decode (.stream (0b00000000 :: zeros 32)) = .ok (.sign (zeros 32)) := by decide +kernel
theorem test_decode_verify :
    decode (.stream (0b00000001 :: (zeros 32 ++ List.replicate 512 0xAA)))
      = .ok (.verify (zeros 32) (List.replicate 512 0xAA)) := by decide +kernel
theorem test_decode_getowner : decode (.stream [0b00000010]) = .ok .getowner := by decide
theorem test_decode_getaddress : decode (.stream [0b00000011]) = .ok .getaddress := by decide
theorem test_decode_ignored_04_07 : decode (.stream [0b00000110]) = .ok (.ignored_04_07 0b10) := by decide
theorem test_decode_ignored_08_0f : decode (.stream [0b00001001]) = .ok (.ignored_08_0f 0b001) := by decide
theorem test_decode_ignored_10_1f : decode (.stream [0b00010011]) = .ok (.ignored_10_1f 0b0011) := by decide
theorem test_decode_ignored_20_3f : decode (.stream [0b00111110]) = .ok (.ignored_20_3f 0b11110) := by decide
theorem test_decode_ignored_40_7f : decode (.stream [0b01000001]) = .ok (.ignored_40_7f 0b000001) := by decide
theorem test_decode_ignored_80_ff : decode (.stream [0b11111111]) = .ok (.ignored_80_ff 0b1111111) := by decide
theorem test_decode_short_payload : decode (.stream (0x00 :: zeros 31)) = .error .shortPayload := by decide
theorem test_decode_trailing : decode (.stream [0x02, 0x02]) = .error .trailing := by decide
theorem test_decode_empty : decode (.stream []) = .error .empty := by decide

theorem test_decode_word_steps :
    decode (.issue ⟨0b00000000, [.word .k0, .word .t, .cin .flag, .wdst (.acc 1)]⟩) = .ok (.addw .k0 .t .flag (.acc 1))
      ∧ decode (.issue ⟨0b00000001, [.word .k0, .word .t, .cin .flag, .wdst (.acc 1)]⟩)
        = .ok (.subw .k0 .t .flag (.acc 1))
      ∧ decode (.issue ⟨0b00000010, [.word .k0, .word .t, .word .cw, .word (.lit 3), .wdst (.acc 1)]⟩)
        = .ok (.macw .k0 .t .cw (.lit 3) (.acc 1)) := by decide

theorem test_decode_vector_steps :
    decode (.issue ⟨0b00000011, [.nat 2, .vec (.reg .z), .vec (.key .n), .vreg .zz]⟩)
        = .ok (.addv 2 (.reg .z) (.key .n) .zz)
      ∧ decode (.issue ⟨0b00000100, [.nat 2, .vec (.reg .z), .vec (.key .n), .vreg .zz]⟩)
        = .ok (.subv 2 (.reg .z) (.key .n) .zz)
      ∧ decode (.issue ⟨0b00000101, [.nat 2, .vdst (.acc 1), .vec (.reg .z), .word .t]⟩)
        = .ok (.macv 2 (.acc 1) (.reg .z) .t)
      ∧ decode (.issue ⟨0b00000110, [.nat 2, .vec (.reg .z), .vec (.key .n)]⟩) = .ok (.cmpv 2 (.reg .z) (.key .n))
      ∧ decode (.issue ⟨0b00000111, [.nat 2, .vec (.reg .z), .vec (.key .n), .vreg .zz]⟩)
        = .ok (.remv 2 (.reg .z) (.key .n) .zz)
      ∧ decode (.issue ⟨0b00001000, [.nat 2, .vec (.reg .z)]⟩) = .ok (.iszerov 2 (.reg .z)) := by decide

theorem test_decode_byte_steps :
    decode (.issue ⟨0b00001001, [.nat 2, .bytes (.lit []), .vreg .base]⟩) = .ok (.frombe 2 (.lit []) .base)
      ∧ decode (.issue ⟨0b00001010, [.nat 2, .vec (.reg .z), .buf .em, .nat 7]⟩) = .ok (.tobe 2 (.reg .z) .em 7)
      ∧ decode (.issue ⟨0b00001011, [.bytes (.lit []), .slice ⟨.em, 1, 2⟩]⟩) = .ok (.leftpad (.lit []) ⟨.em, 1, 2⟩) := by
  decide

theorem test_decode_mont :
    decode (.issue ⟨0b00010000, [.word .t]⟩) = .ok (.n0inv .t)
      ∧ decode (.issue ⟨0b00010001,
          [.nat 1, .vec (.reg .z), .vec (.reg .rr), .vec (.key .n), .word .k0, .vreg .zz]⟩)
        = .ok (.montmul 1 (.reg .z) (.reg .rr) (.key .n) .k0 .zz)
      ∧ decode (.issue ⟨0b00010010, [.nat 1, .vreg .zz, .vec (.key .n)]⟩) = .ok (.montfix 1 .zz (.key .n))
      ∧ decode (.issue ⟨0b00010011, [.nat 1, .vec (.key .n)]⟩) = .ok (.rrcalc 1 (.key .n)) := by decide

theorem test_decode_modexp_and_hash :
    decode (.issue ⟨0b00100000, [.nat 1, .vec (.reg .base), .vec (.key .d), .vec (.key .n)]⟩)
        = .ok (.modexp 1 (.reg .base) (.key .d) (.key .n))
      ∧ decode (.issue ⟨0b00110000, [.bytes (.lit [1])]⟩) = .ok (.sha256 (.lit [1]))
      ∧ decode (.issue ⟨0b01000000, [.slice ⟨.em, 0, 5⟩, .bytes (.lit [1])]⟩)
        = .ok (.mgf1xor ⟨.em, 0, 5⟩ (.lit [1])) := by decide

theorem test_decode_pss_and_sign :
    decode (.issue ⟨0b01010000, [.bytes (.lit [1]), .bytes (.lit [2]), .nat 4095]⟩)
        = .ok (.pssenc (.lit [1]) (.lit [2]) 4095)
      ∧ decode (.issue ⟨0b01010001, [.bytes (.lit [1]), .nat 4095, .nat 32]⟩) = .ok (.pssvfy (.lit [1]) 4095 32)
      ∧ decode (.issue ⟨0b01100000, []⟩) = .ok .saltgen
      ∧ decode (.issue ⟨0b01100001, []⟩) = .ok .signop
      ∧ decode (.issue ⟨0b01100010, []⟩) = .ok .verifyop := by decide

theorem test_decode_xport :
    decode (.issue ⟨0b01110000, [.buf .em, .nat 3]⟩) = .ok (.rdbyte .em 3)
      ∧ decode (.issue ⟨0b01110001, [.slice ⟨.em, 3, 4⟩]⟩) = .ok (.rdbuf ⟨.em, 3, 4⟩)
      ∧ decode (.issue ⟨0b01110010, [.bytes (.lit [1])]⟩) = .ok (.wrbyte (.lit [1])) := by decide

theorem test_decode_unassigned :
    decode (.issue ⟨0x0C, []⟩) = .error (.unassignedSelect 0x0C)
      ∧ decode (.issue ⟨0x80, []⟩) = .error (.unassignedSelect 0x80) := by decide

theorem test_decode_ill_typed : decode (.issue ⟨0x10, [.nat 3]⟩) = .error (.illTyped 0x10) := by decide

/-! One step per instruction. -/

-- ADDW, SUBW, MACW: the tables of section 2; the flag as carry-in by hand from R120, R121.
theorem test_addw_carry : after (exec (.addw (.lit 0xffffffff) (.lit 0xffffffff) (.lit true) (.acc 3)) st)
    (fun t => (t.w.acc[3]?, t.fl.cy)) = some (some 0xffffffff, true) := by decide +kernel
theorem test_addw_flag_in : after (exec (.addw (.lit 1) (.lit 2) .flag (.reg .z 127)) (st.setCy true))
    (fun t => (t.w.z[127]?, t.fl.cy)) = some (some 4, false) := by decide +kernel
theorem test_subw_borrow : after (exec (.subw (.lit 0) (.lit 0xffffffff) (.lit true) (.acc 0)) st)
    (fun t => (t.w.acc[0]?, t.fl.bw)) = some (some 0, true) := by decide +kernel
theorem test_subw_no_borrow : after (exec (.subw (.lit 0x80000000) (.lit 1) .flag (.acc 0)) (st.setCy true))
    (fun t => (t.w.acc[0]?, t.fl.bw)) = some (some 0x7fffffff, false) := by decide +kernel
theorem test_macw_all_ones :
    after (exec (.macw (.lit 0xffffffff) (.lit 0xffffffff) (.lit 0xffffffff) (.lit 0xffffffff) (.acc 0)) st)
      (fun t => (t.w.acc[0]?, t.w.cw)) = some (some 0xffffffff, 0xffffffff) := by decide +kernel
theorem test_macw_carry :
    after (exec (.macw (.lit 0xffffffff) (.lit 1) (.lit 1) (.lit 0) (.acc 0)) st)
      (fun t => (t.w.acc[0]?, t.w.cw)) = some (some 0, 1) := by decide +kernel

-- The vector tables of section 2.
theorem test_addv_carry : after (exec (.addv 2 (.lit [0x80000000, 0x80000000]) (.lit [0x80000000, 0x80000000]) .z) (narrow 2))
    (fun t => (t.w.z, t.fl.cy)) = some ([0, 1], true) := by decide +kernel
theorem test_addv_in_place :
    after (exec (.addv 2 (.reg .z) (.reg .z) .z) (st.putReg .z [0xffffffff, 0])) (fun t => (t.w.z, t.fl.cy))
      = some ([0xfffffffe, 1], false) := by decide +kernel
theorem test_subv_borrow_chain : after (exec (.subv 2 (.lit [0, 1]) (.lit [1, 0]) .zz) (narrow 2))
    (fun t => (t.w.zz, t.fl.bw)) = some ([0xffffffff, 0], false) := by decide +kernel
theorem test_subv_below_zero : after (exec (.subv 2 (.lit [0, 0]) (.lit [0xffffffff, 0xffffffff]) .zz) (narrow 2))
    (fun t => (t.w.zz, t.fl.bw)) = some ([1, 0], true) := by decide +kernel
theorem test_macv_in_place :
    after (exec (.macv 2 (.reg .z) (.lit [0xffffffff, 0xffffffff]) (.lit 0xffffffff))
      (st.putReg .z [0xffffffff, 0xffffffff])) (fun t => (t.w.z, t.w.cw))
      = some ([0, 0xffffffff], 0xffffffff) := by decide +kernel
theorem test_macv_window :
    after (exec (.macv 2 (.acc 1) (.lit [0x80000000, 0x80000000]) (.lit 2))
      { st with w := { st.w with acc := [7, 1, 0, 9] } }) (fun t => (t.w.acc, t.w.cw)) = some ([7, 1, 1, 9], 1) := by
  decide +kernel
theorem test_cmpv_high_word : after (exec (.cmpv 2 (.lit [0xffffffff, 0]) (.lit [0, 1])) st) (fun t => t.fl.ord)
    = some .lt := by decide +kernel
theorem test_cmpv_low_word : after (exec (.cmpv 2 (.lit [1, 7]) (.lit [0, 7])) st) (fun t => t.fl.ord)
    = some .gt := by decide +kernel
theorem test_remv : after (exec (.remv 2 (.lit [0x89abcdef, 0x01234567]) (.lit [0x00000ca1, 0]) .z) (narrow 2))
    (fun t => t.w.z) = some [0x0000066e, 0] := by decide +kernel
theorem test_remv_zero : after (exec (.remv 2 (.lit [5, 0]) (.lit [0, 0]) .z) (narrow 2))
    (fun t => (t.halt, t.cause, t.seq)) = some (true, 0x12, .diag) := by decide +kernel
theorem test_iszerov_high_word : after (exec (.iszerov 2 (.lit [0, 0x80000000])) (st.setZexp true)) (fun t => t.fl.zexp)
    = some false := by decide +kernel
theorem test_iszerov_zero : after (exec (.iszerov 2 (.lit [0, 0])) st) (fun t => t.fl.zexp)
    = some true := by decide +kernel
theorem test_frombe : after (exec (.frombe 2 (.lit [1, 2, 3, 4, 5, 6, 7, 8]) .base) (narrow 2))
    (fun t => t.w.base) = some [0x05060708, 0x01020304] := by decide +kernel
theorem test_tobe : after (exec (.tobe 2 (.lit [0x05060708, 0x01020304]) .salt 24) st) (fun t => t.mem.salt)
    = some (zeros 24 ++ [1, 2, 3, 4, 5, 6, 7, 8]) := by decide +kernel
theorem test_leftpad : after (exec (.leftpad (.lit [0xaa, 0xbb]) ⟨.hblk, 1, 4⟩)
    { st with mem := { st.mem with hblk := List.replicate 64 0xFF } }) (fun t => t.mem.hblk.take 6)
    = some [0xFF, 0, 0, 0xaa, 0xbb, 0xFF] := by decide +kernel
theorem test_leftpad_too_long : after (exec (.leftpad (.lit [1, 2, 3]) ⟨.digest, 0, 2⟩) st)
    (fun t => (t.halt, t.cause)) = some (true, 0x12) := by decide +kernel

-- R68: a register of another width is refused, not resized.
theorem test_addv_no_resize : refusal (exec (.addv 1 (.lit [1]) (.lit [2]) .base) st) = some .operandWidth := by
  decide +kernel

-- Section 3.
theorem test_n0inv : after (exec (.n0inv (.lit 0x002565f9)) st) (fun t => t.w.k0) = some 0xc86fb3b7 := by decide +kernel
theorem test_n0inv_even : refusal (exec (.n0inv (.lit 4)) st) = some .evenWord := by decide +kernel
theorem test_montmul_carry :
    after (exec (.montmul 1 (.lit [0xffffffff]) (.lit [0xffffffff]) (.lit [0x0d]) (.lit 0x3b13b13b) .z) (narrow 1))
      (fun t => (t.w.z, t.w.acc, t.w.cw, t.w.t)) = some ([0xfffffff4], [0, 1], 3, 0x3b13b13b) := by decide +kernel
theorem test_montmul_two_words :
    after (exec (.montmul 2 (.lit [0x89abcdef, 0x01234567]) (.lit [0x76543210, 0xfedcba98])
      (.lit [0xffffffef, 0xffffffff]) (.lit 0xf0f0f0f1) .z) (narrow 2)) (fun t => (t.w.z, t.w.acc))
      = some ([0x336e852f, 0x30526118], [0, 0, 0x336e852f, 0x30526118]) := by decide +kernel
theorem test_montfix_subtracts : after (exec (.montfix 1 .z (.lit [0x0d])) (st.putReg .z [0x14])) (fun t => t.w.z)
    = some [7] := by decide +kernel
-- R160 with ruling U12: an even modulus, a `K0` of another modulus.
theorem test_montmul_even_modulus :
    refusal (exec (.montmul 1 (.lit [1]) (.lit [1]) (.lit [12]) (.lit 1) .z) (narrow 1)) = some .evenModulus
      ∧ refusal (exec (.montfix 1 .z (.lit [12])) (narrow 1)) = some .evenModulus := by decide +kernel
theorem test_montmul_foreign_k0 :
    refusal (exec (.montmul 1 (.lit [1]) (.lit [1]) (.lit [13]) (.lit 1) .z) (narrow 1)) = some .foreignK0 := by
  decide +kernel
-- R164 with R73: once the subtraction has cleared the register, `M` reads as zero.
theorem test_montfix_by_itself :
    after (exec (.montfix 1 .z (.reg .z)) (st.putReg .z [7])) (fun t => (t.halt, t.cause, t.w.z))
      = some (true, 0x12, [7]) := by decide +kernel
theorem test_montfix_fallback : after (exec (.montfix 1 .z (.lit [3])) (st.putReg .z [0xffffffff])) (fun t => t.w.z)
    = some [0] := by decide +kernel
theorem test_rrcalc : after (exec (.rrcalc 2 (.lit [0xffffffef, 0xffffffff])) (narrow 2)) (fun t => t.w.rr)
    = some [0x121, 0] := by decide +kernel

-- Section 4.
theorem test_modexp_rsa : after (exec (.modexp 1 (.lit [0xae6]) (.lit [0xac1]) (.lit [0xca1])) (narrow 1))
    (fun t => (t.w.res, t.w.rr, t.w.get (.tbl 15), t.w.z)) = some ([0x41], [0x7ed], [0x2a3], [0x2cc]) := by decide +kernel
theorem test_modexp_even : after (exec (.modexp 1 (.lit [3]) (.lit [5]) (.lit [0xc])) (narrow 1))
    (fun t => (t.halt, t.cause, t.seq)) = some (true, 0x13, .diag) := by decide +kernel

-- R192: lines 1 to 3 end the call before any operand register is written (log 19).
theorem test_modexp_early_end_with_table_operand :
    after (exec (.modexp 128 (.reg .rr) (.key .d) (.reg (.tbl 3))) st) (fun t => (t.w.res, t.halt))
      = some (oneVec 128, false)
      ∧ refusal (exec (.modexp 128 (.reg .rr) (.key .e) (.key .n)) st) = some .operandOverlap := by decide +kernel

-- Sections 5 and 6.
theorem test_sha256_two_blocks : after (exec (.sha256 (.lit (List.replicate 56 0x61))) st) (fun t => be t.mem.hout)
    = some 0xb35439a4ac6f0948b6d6f9e3c6af0f5f590ce20f1bde7090ef7970686ec6738a := by decide +kernel
theorem test_sha256_boundary : after (exec (.sha256 (.lit (List.replicate 55 0x61))) st) (fun t => be t.mem.hout)
    = some 0x9f4390f8d30c2dd92ec9f095b65e2b9ae9b0a925a5258e241c9f1e910f734318 := by decide +kernel
theorem test_mgf1xor_empty_seed :
    after (exec (.mgf1xor ⟨.em, 1, 5⟩ (.lit [])) (st.putBytes .em 1 [0, 1, 2, 3, 4])) (fun t => t.mem.em.take 7)
      = some [0, 0xdf, 0x3e, 0x63, 0x9b, 0x00, 0] := by decide +kernel
theorem test_mgf1xor_second_block :
    after (exec (.mgf1xor ⟨.em, 0, 33⟩ (.lit [0x61, 0x62, 0x63])) st) (fun t => (t.mem.em[32]?, t.mem.em[33]?, t.ctr))
      = some (some 0x46, some 0, 1) := by decide +kernel
-- R241 with R73: the hash stands in `HOUT` when the first byte of the slice is read.
theorem test_mgf1xor_on_hash_output :
    after (exec (.mgf1xor ⟨.hout, 0, 32⟩ (.lit [1])) st) (fun t => t.mem.hout) = some (zeros 32) := by decide +kernel

-- Section 7.
theorem test_pssenc_e1 :
    after (exec (.pssenc (.lit (zeros 32)) (.lit (zeros 32)) 4095) st)
      (fun t => (t.mem.em[0]?, t.mem.em[446]?, t.mem.em[447]?, be (window t.mem.em 479 33)))
      = some (some 0x75, some 0x44, some 0x52,
        0x834a709ba2534ebe3ee1397fd4f7bd288b2acc1d20a08d6c862dcd99b6f04400bc) := by decide +kernel
theorem test_pssenc_salt_too_long :
    after (exec (.pssenc (.lit (zeros 32)) (.lit (zeros 479)) 4095) st) (fun t => (t.err, t.cause, t.seq))
      = some (true, 0x02, .idle) := by decide +kernel
theorem test_pssvfy_accepts :
    after (exec (.pssvfy (.lit (zeros 32)) 4095 32)
      (st.putBytes .em 0 (pssEncode (zeros 32) (zeros 32) 4095))) (fun t => t.fl.valid) = some true := by decide +kernel
theorem test_pssvfy_other_salt_length :
    after (exec (.pssvfy (.lit (zeros 32)) 4095 32)
      ((st.putBytes .em 0 (pssEncode (zeros 32) [] 4095)).setValid true)) (fun t => t.fl.valid)
      = some false := by decide +kernel
-- R262 steps 1 and 2 come before a byte of `EM` is read, whatever `em_bits` is; R250 for `em_bits = 0` (log 38).
theorem test_pssvfy_sizes_first :
    after (exec (.pssvfy (.lit (zeros 31)) 4104 32) (st.setValid true)) (fun t => t.fl.valid) = some false
      ∧ after (exec (.pssvfy (.lit (zeros 32)) 4104 512) (st.setValid true)) (fun t => t.fl.valid) = some false
      ∧ after (exec (.pssvfy (.lit (zeros 32)) 0 0) (st.setValid true)) (fun t => t.fl.valid) = some false
      ∧ refusal (exec (.pssvfy (.lit (zeros 32)) 4104 32) st) = some .outsideStorage := by decide +kernel
theorem test_pssenc_zero_bits :
    after (exec (.pssenc (.lit (zeros 32)) (.lit []) 0) st) (fun t => (t.err, t.cause)) = some (true, 0x02) := by
  decide +kernel

-- R283; R281 with a zero exponent (R192); R286 for a signature that is not below the modulus.
theorem test_saltgen_fixed : after (exec .saltgen { st with par := { st.par with saltSource := some (Vector.replicate 32 7) } })
    (fun t => t.mem.salt) = some (List.replicate 32 7) := by decide +kernel
theorem test_signop_zero_exponent : after (exec .signop st) (fun t => (t.mem.sigbuf, t.mem.em[511]?))
    = some (zeros 511 ++ [1], some 0xBC) := by decide +kernel
theorem test_verifyop_out_of_range :
    after (exec .verifyop ((st.putBytes .sigbuf 511 [13]).setValid true)) (fun t => t.fl.valid)
      = some false := by decide +kernel

-- R300 to R302.
theorem test_rdbyte : after (exec (.rdbyte .digest 31) { st with rxq := [7, 8] }) (fun t => (t.mem.digest[31]?, t.rxq))
    = some (some 7, [8]) := by decide +kernel
theorem test_rdbuf_partial : after (exec (.rdbuf ⟨.digest, 1, 3⟩) { st with rxq := [7, 8] })
    (fun t => (t.mem.digest.take 4, t.rxq, t.uq)) = some ([0, 7, 8, 0], [], [⟨0x71, [.slice ⟨.digest, 3, 1⟩]⟩]) := by
  decide +kernel
theorem test_wrbyte : after (exec (.wrbyte (.lit [0x45])) { st with txq := [1] }) (fun t => t.txq)
    = some [1, 0x45] := by decide +kernel

-- R307 to R311.
theorem test_sign : after (exec (.sign (List.replicate 32 9)) st)
    (fun t => (t.mem.digest, t.mem.sigbuf.getLast?, t.seq)) = some (List.replicate 32 9, some 1, .txp .sign 0) := by
  decide +kernel
theorem test_verify_out_of_range : after (exec (.verify (zeros 32) (List.replicate 512 1)) st)
    (fun t => (t.response .verify, t.seq)) = some ([0], .txp .verify 0) := by decide +kernel
theorem test_getowner : after (exec .getowner st) (fun t => (t.seq, t.response .getowner))
    = some (.txp .getowner 0, [0x53, 0x54]) := by decide +kernel
theorem test_getowner_silent : after (exec .getowner stNoStub) (fun t => t.seq) = some .idle := by decide +kernel
theorem test_getaddress : after (exec .getaddress st) (fun t => (t.seq, t.response .getaddress))
    = some (.txp .getaddress 0, [0x53, 0x54]) := by decide +kernel
theorem test_ignored : after (step { st with rxq := [0xFF, 0x02], txq := [5] }) (fun t => (t.rxq, t.txq, t.seq))
    = some ([0x02], [5], .idle) := by decide +kernel

/-! The sequencer and the other agents. -/

theorem test_opcode_enters_sign : after (step { st with rxq := [0x00, 1] }) (fun t => (t.seq, t.rxq))
    = some (.rxp .sign 0, [1]) := by decide +kernel
theorem test_last_payload_byte : after (step { st with seq := .rxp .verify 543, rxq := [3] })
    (fun t => (t.seq, t.mem.sigbuf[511]?)) = some (.exec .verify, some 3) := by decide +kernel
theorem test_last_response_byte : after (step { st with seq := .txp .sign 511 }) (fun t => (t.seq, t.txq))
    = some (.idle, [0]) := by decide +kernel
theorem test_txe : after (step { st with seq := .txe, err := true }) (fun t => (t.seq, t.txq, t.err))
    = some (.idle, [0x45], false) := by decide +kernel
theorem test_diag : after (step { st with seq := .diag, halt := true }) (fun t => (t.seq, t.txq, t.halt))
    = some (.halted, [0xEE], true) := by decide +kernel
theorem test_reset_leaves_halted :
    after (step { st with seq := .halted, halt := true, turns := [.reset] }) (fun t => (t.seq, t.halt, t.key.n[0]))
      = some (.idle, false, 13) := by decide +kernel
theorem test_platform_fatal_inside_command :
    after (step { st with seq := .exec .sign, turns := [.platformFatalInside .allocationFailure] })
      (fun t => (t.seq, t.halt, t.cause, t.mem.digest)) = some (.diag, true, 0x10, zeros 32) := by decide +kernel
theorem test_unassigned_select_faults : step { st with uq := [⟨0x0C, []⟩] } = .fault (.unassignedSelect 0x0C) := by rfl
theorem test_ill_typed_issue_refused : refusal (step { st with uq := [⟨0x10, [.nat 1]⟩] }) = some .illTyped := by
  decide +kernel

/-! The opcode-table words (log 11). -/

theorem test_table_words :
    decodeTableWord 8 0x00 = some (.sign (zeros 32)) ∧ decodeTableWord 8 0x02 = some .getowner
      ∧ decodeTableWord 8 0x04 = some (.ignored_04_07 0) ∧ decodeTableWord 8 0x80 = some (.ignored_80_ff 0)
      ∧ decodeTableWord 8 0x61 = some .signop
      ∧ decodeTableWord 8 0x11
        = some (.montmul 128 (.lit (zeroVec 128)) (.lit (zeroVec 128)) (.lit (oneVec 128)) (.lit 0xFFFFFFFF) .base)
      ∧ decodeTableWord 8 0x0C = some (.ignored_08_0f 4) := by decide +kernel

theorem test_fetch_word :
    after (step ((State.reset).withFetchWord 8 0x0A)) (fun t => (t.mem.digest.take 4, t.uq)) = some ([0, 0, 0, 0], [])
      ∧ after (step ((State.reset).withFetchWord 8 0x72)) (fun t => t.txq) = some [0]
      ∧ after (step ((State.reset).withFetchWord 8 0xFF)) (fun t => t.rxq) = some [] := by decide +kernel

/-! Witnesses: for every obligation with hypotheses, a state and operands that meet them together, and for each clause
of a statement with several. -/

/-- `o` is a next state. -/
def goesOn (o : Out) : Bool := (after o fun _ => true).isSome

theorem next_of_goesOn {o : Out} (h : goesOn o = true) : ∃ t, o = .next t := by
  cases o with
  | next t => exact ⟨t, rfl⟩
  | fault f => cases h
  | refused r => cases h

/-- The next state, or `s` where there is none. -/
def stateOf (o : Out) (s : State) : State := (after o id).getD s

theorem next_stateOf {o : Out} (s : State) (h : goesOn o = true) : o = .next (stateOf o s) := by
  cases o with
  | next t => rfl
  | fault f => cases h
  | refused r => cases h

theorem witness_AddwWritesSumAndCarry :
    st.word (.lit 0xffffffff) = some 0xffffffff ∧ st.word (.reg .z 127) = some 0 ∧ st.hasWord (.acc 255) = true := by
  decide +kernel
theorem witness_SubwWritesDifferenceAndBorrow :
    st.word (.key .n 0) = some 13 ∧ st.word .k0 = some 0 ∧ st.hasWord (.reg .z 127) = true := by decide +kernel
theorem witness_MacwWritesProductWords :
    st.word (.lit 2) = some 2 ∧ st.word .t = some 0 ∧ st.word .cw = some 0 ∧ st.word (.acc 255) = some 0
      ∧ st.hasWord (.acc 0) = true := by decide +kernel
theorem witness_WordStepsKeepEverythingElse :
    (∃ t, exec (.addw (.lit 1) (.lit 2) .flag (.acc 0)) st = .next t)
      ∧ (∃ t, exec (.subw (.lit 1) (.lit 2) .flag (.reg .z 127)) st = .next t)
      ∧ ∃ t, exec (.macw (.lit 1) (.lit 2) .cw .t (.acc 255)) st = .next t :=
  ⟨next_of_goesOn (by decide +kernel), next_of_goesOn (by decide +kernel), next_of_goesOn (by decide +kernel)⟩
theorem witness_AddvAddsVectors :
    st.vec 128 (.reg .z) = some (zeroVec 128) ∧ st.vec 128 (.key .n) = some (13 :: zeroVec 127)
      ∧ (st.w.get .z).length = 128
      ∧ (narrow 1).vec 1 (.lit [5]) = some [5] ∧ (narrow 1).vec 1 (.acc 1) = some [0]
      ∧ ((narrow 1).w.get (.tbl 15)).length = 1 := by decide +kernel
theorem witness_SubvSubtractsVectors :
    (narrow 2).vec 2 (.lit [0, 0]) = some [0, 0] ∧ (narrow 2).vec 2 (.lit [1, 0]) = some [1, 0]
      ∧ ((narrow 2).w.get .base).length = 2 := by decide +kernel
theorem witness_MacvAccumulatesProduct_disjoint :
    st.vec 2 (vdstSrc (.acc 0)) = some [0, 0] ∧ st.vec 2 (.acc 2) = some [0, 0] ∧ st.word (.lit 3) = some 3
      ∧ macvOverlap 2 (.acc 0) (.acc 2) = false := by decide +kernel
theorem witness_MacvAccumulatesProduct_overlap :
    st.vec 2 (vdstSrc (.acc 0)) = some [0, 0] ∧ st.vec 2 (.acc 1) = some [0, 0] ∧ st.word (.lit 3) = some 3
      ∧ macvOverlap 2 (.acc 0) (.acc 1) = true := by decide +kernel
theorem witness_MacvAccumulatesProduct_same_window :
    st.vec 2 (vdstSrc (.acc 1)) = some [0, 0] ∧ st.vec 2 (.acc 1) = some [0, 0] ∧ st.word (.lit 3) = some 3
      ∧ macvOverlap 2 (.acc 1) (.acc 1) = false ∧ macvOverlap 2 (.reg .z) (.reg .z) = false := by decide +kernel
theorem witness_CmpvComparesValues :
    st.vec 128 (.key .n) = some (13 :: zeroVec 127) ∧ st.vec 128 (.reg .z) = some (zeroVec 128) := by decide +kernel
theorem witness_RemvComputesRemainder :
    (narrow 1).vec 1 (.lit [9]) = some [9] ∧ (narrow 1).vec 1 (.lit [1]) = some [1] ∧ val [1] ≠ 0
      ∧ (narrow 1).vec 1 (.lit [0]) = some [0] ∧ val [0] = 0 ∧ ((narrow 1).w.get .zz).length = 1 := by decide +kernel
theorem witness_IszerovTestsEveryWord : st.vec 128 (.reg .res) = some (zeroVec 128) := by decide +kernel
theorem witness_FrombeDecodesBigEndian :
    st.bytes (.slice ⟨.em, 0, 512⟩) = some (zeros 512) ∧ (zeros 512).length = 4 * 128 ∧ (st.w.get .base).length = 128
      ∧ st.bytes (.lit [1, 2, 3]) = some [1, 2, 3] ∧ [1, 2, 3].length ≠ 4 * 1 := by decide +kernel
theorem witness_TobeEncodesBigEndian :
    st.vec 1 (.lit [5]) = some [5] ∧ st.fits ⟨.digest, 28, 4 * 1⟩ = true := by decide +kernel
theorem witness_LeftpadFillsSlice :
    st.bytes (.lit [1, 2]) = some [1, 2] ∧ st.fits ⟨.digest, 30, 2⟩ = true ∧ [1, 2].length ≤ 2
      ∧ st.fits ⟨.digest, 31, 1⟩ = true ∧ 1 < [1, 2].length := by decide +kernel
theorem witness_DecodeAndEncodeLawsAreInverse : ([1, 2, 3, 4] : List Byte).length = 4 * 1 ∧ 0 < 1 := by decide
theorem witness_OtherWordCountIsRefused :
    st.vec 2 (.lit [1]) = none ∧ st.vec 2 (.lit [1, 2]) = some [1, 2] ∧ st.vec 2 (vdstSrc (.reg .z)) = none
      ∧ st.vec 2 (.reg .z) = none ∧ st.vec 2 (.acc 254) = some [0, 0] ∧ st.vec 2 (.acc 255) = none
      ∧ st.vec 128 (.reg .base) = some (zeroVec 128) ∧ st.vec 128 (.key .d) = some (zeroVec 128)
      ∧ st.vec 128 (.lit [1]) = none := by decide +kernel
theorem witness_OtherWordCountIsRefused_registers :
    (st.w.get .z).length ≠ 127 ∧ st.w.acc.length ≠ 2 * 127 ∧ st.w.rr.length ≠ 127 ∧ st.w.wf 127 = false
      ∧ st.vec 127 (.lit (zeroVec 127)) = some (zeroVec 127) ∧ st.bytes (.lit [1]) = some [1] ∧ st.word .k0 = some 0
      ∧ modexpBaseOverlap (.lit (zeroVec 127)) = false ∧ modexpReadOnlyOverlap (.lit (zeroVec 127)) = false := by
  decide +kernel
theorem witness_VectorOpsKeepEverythingElse :
    (∃ t, exec (.addv 1 (.lit [1]) (.lit [2]) .z) (narrow 1) = .next t)
      ∧ (∃ t, exec (.subv 1 (.lit [1]) (.lit [2]) .z) (narrow 1) = .next t)
      ∧ (∃ t, exec (.macv 1 (.acc 255) (.lit [1]) (.lit 2)) st = .next t)
      ∧ (∃ t, exec (.cmpv 1 (.lit [1]) (.lit [2])) st = .next t)
      ∧ (∃ t, exec (.remv 1 (.lit [1]) (.lit [2]) .z) (narrow 1) = .next t ∧ t.live)
      ∧ (∃ t, exec (.iszerov 1 (.lit [1])) st = .next t)
      ∧ (∃ t, exec (.frombe 1 (.lit [0, 0, 0, 1]) .z) (narrow 1) = .next t)
      ∧ (∃ t, exec (.n0inv (.lit 1)) st = .next t)
      ∧ (∃ t, exec (.montmul 1 (.lit [1]) (.lit [1]) (.lit [1]) (.lit 0xffffffff) .z) (narrow 1) = .next t)
      ∧ (∃ t, exec (.montfix 128 .z (.key .n)) st = .next t ∧ t.live)
      ∧ (∃ t, exec (.rrcalc 1 (.lit [3])) (narrow 1) = .next t ∧ t.live)
      ∧ ∃ t, exec (.modexp 1 (.lit [2]) (.lit [3]) (.lit [5])) (narrow 1) = .next t ∧ t.live := by
  refine ⟨next_of_goesOn ?_, next_of_goesOn ?_, next_of_goesOn ?_, next_of_goesOn ?_,
    ⟨_, next_stateOf (narrow 1) ?_, ?_⟩, next_of_goesOn ?_, next_of_goesOn ?_, next_of_goesOn ?_, next_of_goesOn ?_,
    ⟨_, next_stateOf st ?_, ?_⟩, ⟨_, next_stateOf (narrow 1) ?_, ?_⟩, ⟨_, next_stateOf (narrow 1) ?_, ?_⟩⟩
  all_goals (try unfold State.live)
  all_goals decide +kernel
theorem witness_N0invInvertsOddWord :
    st.word (.lit 0xffffffff) = some 0xffffffff ∧ (0xffffffff : Word).toNat % 2 = 1
      ∧ st.word (.lit 0) = some 0 ∧ (0 : Word).toNat % 2 = 0 := by decide +kernel
theorem witness_MontmulValueLaw :
    (narrow 1).vec 1 (.lit [0xffffffff]) = some [0xffffffff] ∧ (narrow 1).vec 1 (.lit [13]) = some [13]
      ∧ (narrow 1).word (.lit 0x3b13b13b) = some 0x3b13b13b
      ∧ ((0x3b13b13b : Word).toNat * (([13] : List Word).getD 0 0).toNat + 1) % 2 ^ 32 = 0
      ∧ ((narrow 1).w.get .z).length = 1 ∧ (narrow 1).w.acc.length = 2 * 1
      ∧ montmulOverlap .z (.lit [0xffffffff]) = false ∧ montmulOverlap .z (.lit [13]) = false := by decide +kernel
theorem witness_MontmulCompletesOrIsRefused :
    st.vec 128 (.reg .z) = some (zeroVec 128) ∧ st.vec 128 (.reg .rr) = some (zeroVec 128)
      ∧ st.vec 128 (.key .n) = some (13 :: zeroVec 127) ∧ st.vec 128 (.key .d) = some (zeroVec 128)
      ∧ st.word .k0 = some 0 ∧ st.word (.lit 0x3b13b13b) = some 0x3b13b13b
      ∧ (st.w.get .zz).length = 128 ∧ st.w.acc.length = 2 * 128
      ∧ montmulOverlap .zz (.reg .z) = false ∧ montmulOverlap .zz (.reg .rr) = false
      ∧ montmulOverlap .zz (.key .n) = false ∧ montmulOverlap .z (.reg .z) = true
      ∧ val (13 :: zeroVec 127) % 2 = 1 ∧ val (zeroVec 128) % 2 = 0
      ∧ ((0 : Word).toNat * ((13 :: zeroVec 127).getD 0 0).toNat + 1) % 2 ^ 32 ≠ 0
      ∧ ((0x3b13b13b : Word).toNat * ((13 :: zeroVec 127).getD 0 0).toNat + 1) % 2 ^ 32 = 0 := by decide +kernel
theorem witness_MontfixReducesModulo :
    st.vec 128 (.reg .z) = some (zeroVec 128) ∧ st.vec 128 (.key .n) = some (13 :: zeroVec 127)
      ∧ val (13 :: zeroVec 127) % 2 = 1 ∧ (VSrc.key .n) ≠ .reg .z
      ∧ st.vec 128 (.key .d) = some (zeroVec 128) ∧ val (zeroVec 128) = 0
      ∧ st.vec 128 (.lit (2 :: zeroVec 127)) = some (2 :: zeroVec 127) ∧ val (2 :: zeroVec 127) % 2 = 0
      ∧ val (2 :: zeroVec 127) ≠ 0
      ∧ (st.putReg .z (oneVec 128)).vec 128 (.reg .z) = some (oneVec 128) ∧ val (oneVec 128) % 2 = 1 := by
  decide +kernel
theorem witness_RrcalcComputesSquareOfRadix :
    (narrow 1).vec 1 (.lit [4]) = some [4] ∧ val [4] ≠ 0 ∧ (narrow 1).vec 1 (.lit [0]) = some [0] ∧ val [0] = 0
      ∧ (narrow 1).w.rr.length = 1 := by decide +kernel
theorem witness_ModexpComputesPower :
    (narrow 1).vec 1 (.lit [16]) = some [16] ∧ (narrow 1).vec 1 (.lit [3]) = some [3]
      ∧ (narrow 1).vec 1 (.lit [13]) = some [13] ∧ (narrow 1).w.wf 1 = true
      ∧ modexpBaseOverlap (.lit [16]) = false ∧ modexpReadOnlyOverlap (.lit [3]) = false
      ∧ modexpReadOnlyOverlap (.lit [13]) = false ∧ val [3] ≠ 0 ∧ val [13] % 2 = 1
      ∧ (narrow 1).vec 1 (.reg .rr) = some [0] ∧ modexpBaseOverlap (.reg .rr) = true := by decide +kernel
theorem witness_ModexpTableHoldsPowers :
    (narrow 1).vec 1 (.lit [16]) = some [16] ∧ (narrow 1).vec 1 (.lit [3]) = some [3]
      ∧ (narrow 1).vec 1 (.lit [13]) = some [13] ∧ val [3] ≠ 0 ∧ val [13] % 2 = 1
      ∧ ∃ t, exec (.modexp 1 (.lit [16]) (.lit [3]) (.lit [13])) (narrow 1) = .next t :=
  ⟨by decide +kernel, by decide +kernel, by decide +kernel, by decide +kernel, by decide +kernel,
    next_of_goesOn (by decide +kernel)⟩
theorem witness_ModexpZeroExponentAnswersOne :
    (narrow 1).vec 1 (.reg .rr) = some [0] ∧ (narrow 1).vec 1 (.lit [0]) = some [0]
      ∧ (narrow 1).vec 1 (.lit [12]) = some [12] ∧ (narrow 1).w.wf 1 = true ∧ val [0] = 0 := by decide +kernel
theorem witness_ModexpEvenModulusIsFatal :
    (narrow 1).vec 1 (.acc 1) = some [0] ∧ (narrow 1).vec 1 (.lit [5]) = some [5]
      ∧ (narrow 1).vec 1 (.lit [12]) = some [12] ∧ (narrow 1).w.wf 1 = true
      ∧ val [5] ≠ 0 ∧ (([12] : List Word).getD 0 0).getLsbD 0 = false := by decide +kernel
theorem witness_ModexpMultiplicationCountIsUniform :
    (narrow 1).vec 1 (.lit [2]) = some [2] ∧ (narrow 1).vec 1 (.lit [1]) = some [1]
      ∧ (narrow 1).vec 1 (.lit [3]) = some [3] ∧ val [1] ≠ 0 ∧ val [3] % 2 = 1
      ∧ ∃ t, exec (.modexp 1 (.lit [2]) (.lit [1]) (.lit [3])) (narrow 1) = .next t :=
  ⟨by decide +kernel, by decide +kernel, by decide +kernel, by decide +kernel, by decide +kernel,
    next_of_goesOn (by decide +kernel)⟩
theorem witness_Sha256HashesPaddedBlocks :
    st.bytes (.cat (.lit [1]) (.slice ⟨.salt, 30, 2⟩)) = some [1, 0, 0] := by decide +kernel
theorem witness_Mgf1xorMasksEachByte :
    st.mem.wf = true ∧ st.fits ⟨.em, 0, 512⟩ = true ∧ st.fits ⟨.em, 512, 0⟩ = true
      ∧ st.fits ⟨.hout, 0, 32⟩ = true ∧ st.fits ⟨.hout, 31, 1⟩ = true
      ∧ st.fits ⟨.hblk, 0, 64⟩ = true ∧ st.fits ⟨.hblk, 31, 33⟩ = true
      ∧ st.bytes (.slice ⟨.hout, 0, 32⟩) = some (zeros 32) := by decide +kernel
theorem witness_Mgf1xorTwiceRestores :
    st.mem.wf = true ∧ ∃ t u, exec (.mgf1xor ⟨.em, 511, 1⟩ (.lit [1])) st = .next t
      ∧ exec (.mgf1xor ⟨.em, 511, 1⟩ (.lit [1])) t = .next u :=
  ⟨by decide +kernel, _, _, next_stateOf st (by decide +kernel), next_stateOf st (by decide +kernel)⟩
theorem witness_PssencBuildsEncoding :
    st.bytes (.lit (zeros 31)) = some (zeros 31) ∧ (zeros 31).length ≠ 32
      ∧ st.bytes (.lit (zeros 32)) = some (zeros 32) ∧ (zeros 32).length = 32
      ∧ st.bytes (.lit (zeros 478)) = some (zeros 478) ∧ (zeros 478).length + 32 + 2 ≤ emLen 4095
      ∧ st.fits ⟨.em, 0, emLen 4095⟩ = true
      ∧ st.bytes (.lit (zeros 479)) = some (zeros 479) ∧ emLen 4095 < (zeros 479).length + 32 + 2
      ∧ (zeros 479).length + 32 + 2 ≤ emLen 4097 ∧ st.fits ⟨.em, 0, emLen 4097⟩ = false := by decide +kernel
theorem witness_PssvfyAcceptsExactlyEncodings :
    st.bytes (.lit (zeros 32)) = some (zeros 32) ∧ st.bytes (.lit (zeros 31)) = some (zeros 31)
      ∧ (zeros 31).length ≠ 32 ∧ emLen 4096 < 32 + 479 + 2 ∧ 32 + 478 + 2 ≤ emLen 4096
      ∧ st.fits ⟨.em, 0, emLen 4095⟩ = true ∧ st.fits ⟨.em, 0, emLen 4096⟩ = true
      ∧ 32 + 479 + 2 ≤ emLen 4097 ∧ st.fits ⟨.em, 0, emLen 4097⟩ = false := by decide +kernel
theorem witness_SignopComputesSignature :
    st.mem.wf = true ∧ st.w.wf 128 = true ∧ val st.key.d.toList = 0
      ∧ (withKey 13 5 1).mem.wf = true ∧ (withKey 13 5 1).w.wf 128 = true
      ∧ val (withKey 13 5 1).key.n.toList % 2 = 1 ∧ val (withKey 13 5 1).key.d.toList ≠ 0
      ∧ val (withKey 12 0 1).key.d.toList = 0 := by decide +kernel
theorem witness_VerifyopChecksSignature :
    st.mem.wf = true ∧ st.w.wf 128 = true ∧ val st.key.n.toList % 2 = 1 ∧ val (withKey 12 1 0).key.e.toList = 0 := by
  decide +kernel

/-- All-ones modulus and both exponents 1. -/
def bigKey : State := { st with key := ⟨Vector.replicate 128 0xffffffff, small 1, small 1⟩ }

theorem witness_VerifyopAcceptsSignature :
    bigKey.mem.wf = true ∧ bigKey.w.wf 128 = true ∧ val bigKey.key.n.toList % 2 = 1 ∧ 2 ^ 4095 ≤ val bigKey.key.n.toList
      ∧ val bigKey.key.d.toList ≠ 0
      ∧ ∀ m, m < val bigKey.key.n.toList →
        (m ^ val bigKey.key.d.toList % val bigKey.key.n.toList) ^ val bigKey.key.e.toList % val bigKey.key.n.toList
          = m := by
  have hd : val bigKey.key.d.toList = 1 := by decide +kernel
  have he : val bigKey.key.e.toList = 1 := by decide +kernel
  refine ⟨by decide +kernel, by decide +kernel, by decide +kernel, by decide +kernel, by decide +kernel,
    fun m hm => ?_⟩
  rw [hd, he, pow_one, pow_one, Nat.mod_mod, Nat.mod_eq_of_lt hm]

theorem witness_EvenKeyModulusHaltsEngine :
    (withKey 2 1 1).mem.wf = true ∧ (withKey 2 1 1).w.wf 128 = true ∧ val (withKey 2 1 1).key.n.toList % 2 = 0
      ∧ val (withKey 2 1 1).key.d.toList ≠ 0 ∧ (zeros 32).length = 32 ∧ val (withKey 2 1 1).key.e.toList ≠ 0
      ∧ be (withKey 2 1 1).mem.sigbuf < val (withKey 2 1 1).key.n.toList ∧ (zeros 511 ++ [1]).length = 512
      ∧ be (zeros 511 ++ [1]) < val (withKey 2 1 1).key.n.toList := by decide +kernel
theorem witness_RdbyteTakesOldestByte :
    st.fits ⟨.digest, 31, 1⟩ = true ∧ st.rxq = []
      ∧ State.fits { st with rxq := [7, 8] } ⟨.digest, 31, 1⟩ = true := by decide +kernel
theorem witness_RdbufFillsBuffer :
    State.fits { st with rxq := [7, 8] } ⟨.em, 510, 2⟩ = true ∧ 2 ≤ [7, 8].length
      ∧ State.fits { st with rxq := [7] } ⟨.em, 510, 2⟩ = true ∧ [7].length < 2 := by decide +kernel
theorem witness_WrbyteAppendsByte :
    st.bytes (.lit [7]) = some [7] ∧ st.bytes (.slice ⟨.sigbuf, 511, 1⟩) = some [0] := by decide +kernel
theorem witness_SignCommandComputesResponse :
    (zeros 32).length = 32 ∧ (withKey 13 5 1).mem.wf = true ∧ (withKey 13 5 1).w.wf 128 = true
      ∧ val (withKey 13 5 1).key.n.toList % 2 = 1 ∧ val (withKey 13 5 1).key.d.toList ≠ 0
      ∧ val (withKey 12 0 1).key.d.toList = 0 := by decide +kernel
theorem witness_VerifyCommandComputesResponse :
    (zeros 32).length = 32 ∧ (zeros 512).length = 512 ∧ st.mem.wf = true ∧ st.w.wf 128 = true
      ∧ val st.key.n.toList % 2 = 1 ∧ val (withKey 12 1 0).key.e.toList = 0 := by decide +kernel
theorem witness_StubCommandsSendStubResponse :
    stNoStub.par.stubResponse = [] ∧ st.par.stubResponse ≠ [] := by decide +kernel
theorem witness_IgnoredOpcodesDoNothing :
    State.engineTurn { st with rxq := [0x04] } { st with rxq := [0x04] } ∧ st.seq = .idle ∧ st.uq = []
      ∧ 4 ≤ (0x04 : Byte).toNat
      ∧ State.engineTurn { st with rxq := [0xFF], turns := [.engine, .reset] }
        { st with rxq := [0xFF], turns := [.reset] } ∧ 4 ≤ (0xFF : Byte).toNat :=
  ⟨.inl ⟨rfl, rfl⟩, rfl, rfl, by decide, .inr ⟨_, rfl, rfl⟩, by decide⟩
theorem witness_StepRunsDecodedInstruction :
    st.engineTurn st ∧ st.seq = .idle ∧ decode (.issue ⟨0x60, []⟩) = .ok .saltgen
      ∧ decode (.stream (Cmd.verify.opcode :: st.payload .verify)) = .ok (.verify (zeros 32) (zeros 512))
      ∧ commandOf 0x04 = none ∧ decode (.stream [0x04]) = .ok (.ignored_04_07 0) :=
  ⟨.inl ⟨rfl, rfl⟩, rfl, by decide, by decide +kernel, by decide, by decide⟩
theorem witness_PayloadBytesAreStoredInOrder :
    st.engineTurn st ∧ st.mem.wf = true ∧ commandOf 0x01 = some .verify
      ∧ 31 < Cmd.sign.payloadLen ∧ 32 < Cmd.verify.payloadLen ∧ 543 < Cmd.verify.payloadLen :=
  ⟨.inl ⟨rfl, rfl⟩, by decide +kernel, by decide, by decide, by decide, by decide⟩
theorem witness_ResponseBytesAreSentInOrder :
    st.engineTurn st ∧ (st.response .sign)[510]? = some 0 ∧ 510 + 1 < (st.response .sign).length
      ∧ (st.response .sign)[511]? = some 0 ∧ 511 + 1 = (st.response .sign).length
      ∧ (st.response .verify)[0]? = some 0 ∧ 0 + 1 = (st.response .verify).length
      ∧ (st.response .getowner)[1]? = some 0x54 ∧ 1 + 1 = (st.response .getowner).length :=
  ⟨.inl ⟨rfl, rfl⟩, by decide +kernel, by decide +kernel, by decide +kernel, by decide +kernel, by decide +kernel,
    by decide +kernel, by decide +kernel, by decide +kernel⟩
theorem witness_ErrorAndDiagnosticAreSent :
    State.engineTurn { st with seq := .txe, err := true } { st with seq := .txe, err := true }
      ∧ State.engineTurn { st with seq := .diag, halt := true } { st with seq := .diag, halt := true } :=
  ⟨.inl ⟨rfl, rfl⟩, .inl ⟨rfl, rfl⟩⟩

/-- A halted engine. -/
def halted (ts : List Turn) : State := { st with seq := .halted, halt := true, turns := ts }

theorem witness_HaltedEndsOnlyByReset :
    (halted []).turns.head? ≠ some .reset ∧ (∃ t, step (halted []) = .next t)
      ∧ (halted [.hostSend 1]).turns.head? ≠ some .reset ∧ (∃ t, step (halted [.hostSend 1]) = .next t)
      ∧ (halted [.platformFatal .panic]).turns.head? ≠ some .reset
      ∧ (∃ t, step (halted [.platformFatal .panic]) = .next t)
      ∧ (halted [.platformFatalInside .panic]).turns.head? ≠ some .reset
      ∧ ∃ t, step (halted [.platformFatalInside .panic]) = .next t :=
  ⟨by decide, next_of_goesOn (by decide +kernel), by decide, next_of_goesOn (by decide +kernel), by decide,
    next_of_goesOn (by decide +kernel), by decide, next_of_goesOn (by decide +kernel)⟩
theorem witness_EngineUsesQueuesInOrder :
    st.engineTurn st ∧ st.uq = [] ∧ (∃ t, step st = .next t)
      ∧ ∃ t, step { st with seq := .exec .getowner } = .next t :=
  ⟨.inl ⟨rfl, rfl⟩, rfl, next_of_goesOn (by decide +kernel), next_of_goesOn (by decide +kernel)⟩
theorem witness_HostMovesOnlyTheQueues :
    (∀ d, st.par.rxqDepth = some d → st.rxq.length < d)
      ∧ State.turns { st with turns := [.hostSend 1] } = [.hostSend 1]
      ∧ Params.rxqDepth { st.par with rxqDepth := some 0 } = some 0 ∧ 0 ≤ st.rxq.length
      ∧ State.turns { st with turns := [.hostTake] } = [.hostTake] ∧ st.txq = []
      ∧ State.txq { st with txq := [9] } = [9] :=
  ⟨fun d h => (by cases h), rfl, rfl, Nat.le_refl 0, rfl, rfl, rfl⟩
theorem witness_PlatformFatalAndResetTakeEffect :
    State.live { st with turns := [.platformFatal .fatalTrap] }
      ∧ State.live { st with turns := [.platformFatalInside .panic], seq := .exec .sign }
      ∧ State.live { st with turns := [.platformFatalInside .panic], seq := .txp .sign 7 }
      ∧ (Seq.txp .sign 7 ≠ .exec .sign ∧ Seq.txp .sign 7 ≠ .exec .verify)
      ∧ State.turns { st with turns := [.reset] } = [.reset] := ⟨rfl, rfl, rfl, by decide, rfl⟩
theorem witness_KeysAndParametersNeverChange : ∃ t, step { st with rxq := [0x01] } = .next t :=
  next_of_goesOn (by decide +kernel)
theorem witness_StepKeepsInvariant : st.Inv ∧ ∃ t, step st = .next t :=
  ⟨⟨by decide +kernel, by decide +kernel, by decide +kernel, trivial, by simp [st, State.reset],
    by simp [st, State.reset]⟩, next_of_goesOn (by decide +kernel)⟩
theorem witness_DecodeAndEncodeAgree :
    (Instr.verify (zeros 32) (zeros 512)).wf = true ∧ decode (.stream [0x03]) = .ok .getaddress := by decide +kernel
theorem witness_EveryOpcodeByteDecodes : 544 ≤ (zeros 544).length := by decide +kernel
theorem witness_SignTransactionSendsSignature :
    let s : State := { withKey 13 5 1 with rxq := 0x00 :: (zeros 32 ++ [0x02]) }
    s.turns = [] ∧ s.uq = [] ∧ s.seq = .idle ∧ s.mem.wf = true ∧ s.w.wf 128 = true ∧ s.rxq = 0x00 :: (zeros 32 ++ [0x02])
      ∧ (zeros 32).length = 32 ∧ val s.key.n.toList % 2 = 1 ∧ val s.key.d.toList ≠ 0 := by decide +kernel
theorem witness_UnitOperationsResizeNothing :
    hasSelect (.addv 1 (.lit [1]) (.lit [2]) .z) 0x03
      ∧ (∃ t, exec (.addv 1 (.lit [1]) (.lit [2]) .z) (narrow 1) = .next t)
      ∧ hasSelect .signop 0x61 ∧ ∃ t, exec .signop st = .next t :=
  ⟨⟨_, rfl⟩, next_of_goesOn (by decide +kernel), ⟨_, rfl⟩, next_of_goesOn (by decide +kernel)⟩

end Sys2Proof.Tests
end

