-- ==== Sys2Proof/Proofs/Turns.lean ====
section
/-! PROOFS. One equation for each thing a turn can do: the rows of the sequencer (R36, R305) on ENGINE's turn, and the
turns of HOST, the platform and reset (R33, R333, R370). Then the inversion they give: everything a step that answers a
next state has done. -/

namespace Sys2Proof.Machine

/-! An image that is no instruction stops the machine. -/

theorem stopOn_ne_next (e : DecodeError) (t : State) : stopOn e ≠ .next t := by
  cases e <;> exact fun h => by cases h

theorem decodeStream_of_decode {bs : List Byte} {i : Instr} (h : decode (.stream bs) = .ok i) :
    decodeStream bs = .ok (i, []) := by
  simp only [decode] at h
  split at h
  · rename_i heq
    cases h
    exact heq
  · cases h
  · cases h

theorem runCommand_of_ok {op : Cmd} {s : State} {i : Instr} {r : List Byte}
    (h : decodeStream (op.opcode :: s.payload op) = .ok (i, r)) : runCommand op s = .run i s := by
  simp only [runCommand, h]

theorem runCommand_of_error {op : Cmd} {s : State} {e : DecodeError}
    (h : decodeStream (op.opcode :: s.payload op) = .error e) : runCommand op s = .move (stopOn e) := by
  simp only [runCommand, h]

theorem decodeStream_ignored {b : Byte} (h : commandOf b = none) : decodeStream [b] = .ok (ignoredOf b, []) := by
  simp only [decodeStream, h]

/-! The response byte by byte (R36, R38, R96). -/

/-- Before the last byte only `SEQ` and `TXQ` move. -/
theorem sendByte_more {s : State} {op : Cmd} {k : Nat} (h : k + 1 < (s.response op).length) :
    sendByte op k s = .next ((s.txBytes ((s.response op)[k]?).toList).goto (.txp op (k + 1))) := by
  simp only [sendByte, State.sendFrom, if_pos h]

/-- After the last byte the command ends in IDLE. -/
theorem sendByte_last {s : State} {op : Cmd} {k : Nat} (h : ¬k + 1 < (s.response op).length) :
    sendByte op k s = .next (((s.txBytes ((s.response op)[k]?).toList).endCommand op).goto .idle) := by
  simp only [sendByte, State.sendFrom, if_neg h]

/-! ENGINE's turn, row by row. -/

section EngineTurn
variable {s s0 : State} (h : s.engineTurn s0)
include h

theorem step_of_run {i : Instr} {s' : State} (hf : engineFetch s0 = .run i s') : step s = exec i s' := by
  rw [step_engine h, hf]

theorem step_of_move {o : Out} (hf : engineFetch s0 = .move o) : step s = o := by
  rw [step_engine h, hf]

theorem step_issue {u : Issue} {us : List Issue} {i : Instr} (hq : s0.seq = .idle) (hu : s0.uq = u :: us)
    (hd : decodeIssue u = .ok i) : step s = exec i { s0 with uq := us } :=
  step_of_run h (by simp only [engineFetch, hq, hu, hd])

theorem step_issue_error {u : Issue} {us : List Issue} {e : DecodeError} (hq : s0.seq = .idle) (hu : s0.uq = u :: us)
    (hd : decodeIssue u = .error e) : step s = stopOn e :=
  step_of_move h (by simp only [engineFetch, hq, hu, hd])

theorem step_idle_wait (hq : s0.seq = .idle) (hu : s0.uq = []) (hr : s0.rxq = []) : step s = .next s0 :=
  step_of_move h (by simp only [engineFetch, hq, hu, hr])

theorem step_enter {b : Byte} {rest : List Byte} {op : Cmd} (hq : s0.seq = .idle) (hu : s0.uq = [])
    (hr : s0.rxq = b :: rest) (hc : commandOf b = some op) :
    step s = .next (({ s0 with rxq := rest }).goto (rxFrom op 0)) :=
  step_of_move h (by simp only [engineFetch, hq, hu, hr, dispatchByte, hc])

theorem step_ignored {b : Byte} {rest : List Byte} (hq : s0.seq = .idle) (hu : s0.uq = []) (hr : s0.rxq = b :: rest)
    (hc : commandOf b = none) : step s = exec (ignoredOf b) { s0 with rxq := rest } :=
  step_of_run h (by simp only [engineFetch, hq, hu, hr, dispatchByte, hc, decodeStream_ignored hc])

theorem step_rxp_wait {op : Cmd} {k : Nat} (hq : s0.seq = .rxp op k) (hr : s0.rxq = []) : step s = .next s0 :=
  step_of_move h (by simp only [engineFetch, hq, receiveByte, hr])

theorem step_rxp {op : Cmd} {k : Nat} {b : Byte} {rest : List Byte} (hq : s0.seq = .rxp op k) (hr : s0.rxq = b :: rest) :
    step s = .next ((({ s0 with rxq := rest }).storePayload k b).goto (rxFrom op (k + 1))) :=
  step_of_move h (by simp only [engineFetch, hq, receiveByte, hr])

theorem step_exec {op : Cmd} {i : Instr} {r : List Byte} (hq : s0.seq = .exec op)
    (hd : decodeStream (op.opcode :: s0.payload op) = .ok (i, r)) : step s = exec i s0 :=
  step_of_run h (by simp only [engineFetch, hq, runCommand_of_ok hd])

theorem step_exec_error {op : Cmd} {e : DecodeError} (hq : s0.seq = .exec op)
    (hd : decodeStream (op.opcode :: s0.payload op) = .error e) : step s = stopOn e :=
  step_of_move h (by simp only [engineFetch, hq, runCommand_of_error hd])

theorem step_txp {op : Cmd} {k : Nat} (hq : s0.seq = .txp op k) : step s = sendByte op k s0 :=
  step_of_move h (by simp only [engineFetch, hq])

theorem step_txe (hq : s0.seq = .txe) : step s = sendStatus s0 := step_of_move h (by simp only [engineFetch, hq])

theorem step_diag (hq : s0.seq = .diag) : step s = .next s0.sendDiag := step_of_move h (by simp only [engineFetch, hq])

theorem step_halted (hq : s0.seq = .halted) : step s = .next s0 := step_of_move h (by simp only [engineFetch, hq])

end EngineTurn

/-! The turns of the other agents. -/

section OtherTurns
variable {s : State} {ts : List Turn}

theorem step_hostSend {b : Byte} (h : s.turns = .hostSend b :: ts)
    (hroom : ∀ d, s.par.rxqDepth = some d → s.rxq.length < d) :
    step s = .next { s with turns := ts, rxq := s.rxq ++ [b] } := by
  cases hd : s.par.rxqDepth with
  | none => simp only [step, fetch, h, hostSend, hd]
  | some d => simp only [step, fetch, h, hostSend, hd, if_pos (hroom d hd)]

theorem step_hostSend_full {b : Byte} {d : Nat} (h : s.turns = .hostSend b :: ts) (hd : s.par.rxqDepth = some d)
    (hfull : d ≤ s.rxq.length) : step s = .refused .rxqFull := by
  simp only [step, fetch, h, hostSend, hd, if_neg (Nat.not_lt.2 hfull)]

theorem step_hostTake (h : s.turns = .hostTake :: ts) : step s = .next { s with turns := ts, txq := s.txq.drop 1 } := by
  simp only [step, fetch, h, hostTake]

theorem step_platformFatal {c : PlatformCause} (h : s.turns = .platformFatal c :: ts) :
    step s = platformFatal c { s with turns := ts } := by
  simp only [step, fetch, h]

theorem step_platformFatalInside {c : PlatformCause} (h : s.turns = .platformFatalInside c :: ts) :
    step s = platformFatalInside c { s with turns := ts } := by
  simp only [step, fetch, h]

theorem step_reset (h : s.turns = .reset :: ts) : step s = .next ({ s with turns := ts }).afterReset := by
  simp only [step, fetch, h]

end OtherTurns

theorem platformFatal_cases (c : PlatformCause) (s : State) :
    (s.halt = true ∧ platformFatal c s = .next s)
      ∨ (s.halt = false ∧ platformFatal c s = .next (s.raiseFatal c.toFatal)) := by
  unfold platformFatal
  cases s.halt
  · exact .inr ⟨rfl, rfl⟩
  · exact .inl ⟨rfl, rfl⟩

/-! Inversion. -/

/-- The next states of a step of ENGINE from `s`, one constructor for each row of the sequencer (R36, R305). -/
inductive EngineNext (s : State) : State → Prop where
  /-- A pending unit operation runs. -/
  | unit {u : Issue} {us : List Issue} {i : Instr} {t : State} (hq : s.seq = .idle) (hu : s.uq = u :: us)
      (hd : decodeIssue u = .ok i) (hx : exec i { s with uq := us } = .next t) : EngineNext s t
  /-- Nothing to do: no byte to read, or HALTED. -/
  | wait (h : (s.seq = .idle ∧ s.uq = [] ∧ s.rxq = []) ∨ (∃ op k, s.seq = .rxp op k ∧ s.rxq = []) ∨ s.seq = .halted) :
      EngineNext s s
  /-- A named command is entered. -/
  | enter {b : Byte} {rest : List Byte} {op : Cmd} (hq : s.seq = .idle) (hu : s.uq = []) (hr : s.rxq = b :: rest)
      (hc : commandOf b = some op) : EngineNext s (({ s with rxq := rest }).goto (rxFrom op 0))
  /-- Any other opcode is dropped. -/
  | ignored {b : Byte} {rest : List Byte} (hq : s.seq = .idle) (hu : s.uq = []) (hr : s.rxq = b :: rest)
      (hc : commandOf b = none) : EngineNext s { s with rxq := rest }
  /-- A payload byte is stored. -/
  | payload {op : Cmd} {k : Nat} {b : Byte} {rest : List Byte} (hq : s.seq = .rxp op k) (hr : s.rxq = b :: rest) :
      EngineNext s ((({ s with rxq := rest }).storePayload k b).goto (rxFrom op (k + 1)))
  /-- The command runs. -/
  | command {op : Cmd} {i : Instr} {t : State} (hq : s.seq = .exec op) (hr : runCommand op s = .run i s)
      (hx : exec i s = .next t) : EngineNext s t
  /-- A response byte that is not the last one. -/
  | more {op : Cmd} {k : Nat} (hq : s.seq = .txp op k) (hk : k + 1 < (s.response op).length) :
      EngineNext s ((s.txBytes ((s.response op)[k]?).toList).goto (.txp op (k + 1)))
  /-- The last response byte. -/
  | last {op : Cmd} {k : Nat} (hq : s.seq = .txp op k) (hk : ¬k + 1 < (s.response op).length) :
      EngineNext s (((s.txBytes ((s.response op)[k]?).toList).endCommand op).goto .idle)
  /-- `STATUS_E`. -/
  | status (hq : s.seq = .txe) :
      EngineNext s (({ s.txByte Config.statusE with err := false }).forget.goto .idle)
  /-- `FATAL_DIAG`. -/
  | diag (hq : s.seq = .diag) : EngineNext s s.sendDiag

/-- Everything a step of ENGINE can have done. -/
theorem engineNext_of_step {s s0 t : State} (h : s.engineTurn s0) (ht : step s = .next t) : EngineNext s0 t := by
  cases hq : s0.seq with
  | idle =>
    cases hu : s0.uq with
    | cons u us =>
      cases hd : decodeIssue u with
      | ok i => exact .unit hq hu hd (step_issue h hq hu hd ▸ ht)
      | error e => exact absurd (step_issue_error h hq hu hd ▸ ht) (stopOn_ne_next e t)
    | nil =>
      cases hr : s0.rxq with
      | nil =>
        cases (step_idle_wait h hq hu hr).symm.trans ht
        exact .wait (.inl ⟨hq, hu, hr⟩)
      | cons b rest =>
        cases hc : commandOf b with
        | some op =>
          cases (step_enter h hq hu hr hc).symm.trans ht
          exact .enter hq hu hr hc
        | none =>
          cases ((step_ignored h hq hu hr hc).trans (exec_ignoredOf b _)).symm.trans ht
          exact .ignored hq hu hr hc
  | rxp op k =>
    cases hr : s0.rxq with
    | nil =>
      cases (step_rxp_wait h hq hr).symm.trans ht
      exact .wait (.inr (.inl ⟨op, k, hq, hr⟩))
    | cons b rest =>
      cases (step_rxp h hq hr).symm.trans ht
      exact .payload hq hr
  | exec op =>
    cases hd : decodeStream (op.opcode :: s0.payload op) with
    | ok p => exact .command hq (runCommand_of_ok hd) (step_exec h hq hd ▸ ht)
    | error e => exact absurd (step_exec_error h hq hd ▸ ht) (stopOn_ne_next e t)
  | txp op k =>
    by_cases hk : k + 1 < (s0.response op).length
    · cases ((step_txp h hq).trans (sendByte_more hk)).symm.trans ht
      exact .more hq hk
    · cases ((step_txp h hq).trans (sendByte_last hk)).symm.trans ht
      exact .last hq hk
  | txe =>
    cases (step_txe h hq).symm.trans ht
    exact .status hq
  | diag =>
    cases (step_diag h hq).symm.trans ht
    exact .diag hq
  | halted =>
    cases (step_halted h hq).symm.trans ht
    exact .wait (.inr (.inr hq))

/-- The next states of a step of any agent from `s`, one constructor for each turn and outcome. -/
inductive StepNext (s : State) : State → Prop where
  /-- ENGINE's turn. -/
  | engine {s0 t : State} (h : s.engineTurn s0) (hn : EngineNext s0 t) : StepNext s t
  /-- HOST appends a byte to `RXQ`. -/
  | hostSend {b : Byte} {ts : List Turn} (h : s.turns = .hostSend b :: ts)
      (hroom : ∀ d, s.par.rxqDepth = some d → s.rxq.length < d) :
      StepNext s { s with turns := ts, rxq := s.rxq ++ [b] }
  /-- HOST takes a byte from `TXQ`. -/
  | hostTake {ts : List Turn} (h : s.turns = .hostTake :: ts) : StepNext s { s with turns := ts, txq := s.txq.drop 1 }
  /-- A platform report once `HALT` is 1. -/
  | platformHalted {c : PlatformCause} {ts : List Turn}
      (h : s.turns = .platformFatal c :: ts ∨ s.turns = .platformFatalInside c :: ts) (hh : s.halt = true) :
      StepNext s { s with turns := ts }
  /-- A platform report with no unit operation in progress: Fatal is raised. -/
  | platformFatal {c : PlatformCause} {ts : List Turn}
      (h : s.turns = .platformFatal c :: ts ∨ s.turns = .platformFatalInside c :: ts) (hh : s.halt = false) :
      StepNext s (({ s with turns := ts }).raiseFatal c.toFatal)
  /-- A platform report inside EXEC: the unit operations are abandoned and Fatal is raised. -/
  | platformFatalInside {c : PlatformCause} {ts : List Turn} (h : s.turns = .platformFatalInside c :: ts)
      (hh : s.halt = false) : StepNext s (({ s with turns := ts }).abandon.raiseFatal c.toFatal)
  /-- Reset. -/
  | reset {ts : List Turn} (h : s.turns = .reset :: ts) : StepNext s ({ s with turns := ts }).afterReset

/-- Everything a step can have done. -/
theorem stepNext_of_step {s t : State} (ht : step s = .next t) : StepNext s t := by
  cases hts : s.turns with
  | nil => exact .engine (.inl ⟨hts, rfl⟩) (engineNext_of_step (.inl ⟨hts, rfl⟩) ht)
  | cons a ts =>
    cases a with
    | engine => exact .engine (.inr ⟨ts, hts, rfl⟩) (engineNext_of_step (.inr ⟨ts, hts, rfl⟩) ht)
    | hostSend b =>
      have hroom : ∀ d, s.par.rxqDepth = some d → s.rxq.length < d := fun d hd => by
        by_contra hfull
        cases (step_hostSend_full hts hd (Nat.not_lt.1 hfull)).symm.trans ht
      cases (step_hostSend hts hroom).symm.trans ht
      exact .hostSend hts hroom
    | hostTake =>
      cases (step_hostTake hts).symm.trans ht
      exact .hostTake hts
    | platformFatal c =>
      rcases platformFatal_cases c { s with turns := ts } with ⟨hh, e⟩ | ⟨hh, e⟩
      · cases ((step_platformFatal hts).trans e).symm.trans ht
        exact .platformHalted (.inl hts) hh
      · cases ((step_platformFatal hts).trans e).symm.trans ht
        exact .platformFatal (.inl hts) hh
    | platformFatalInside c =>
      rcases platformFatalInside_cases c { s with turns := ts } with ⟨hh, e⟩ | ⟨hh, e⟩ | ⟨hh, e⟩
      · cases ((step_platformFatalInside hts).trans e).symm.trans ht
        exact .platformHalted (.inr hts) hh
      · cases ((step_platformFatalInside hts).trans e).symm.trans ht
        exact .platformFatalInside hts hh
      · cases ((step_platformFatalInside hts).trans e).symm.trans ht
        exact .platformFatal (.inr hts) hh
    | reset =>
      cases (step_reset hts).symm.trans ht
      exact .reset hts

end Sys2Proof.Machine
end

