-- ==== Sys2Proof/Proofs/Invariant.lean ====
section
/-! PROOFS. The statements about every step of every agent: what reset gives, that keys and parameters stand (R22, R39),
and that the invariant is kept (R23, R30, R31, R36, R334, R338). The sizes are carried apart from the sequencer: most
operations keep the one and set the other. -/

namespace Sys2Proof.Machine

/-! The sizes. -/

/-- The part of the invariant that is about sizes (R23, R30, R31). -/
structure State.Sized (s : State) : Prop where
  regs : s.w.wf 128 = true
  memory : s.mem.wf = true
  sha : s.sha.wf = true

theorem State.Inv.sized {s : State} (h : s.Inv) : s.Sized := ⟨h.regs, h.memory, h.sha⟩

theorem Kept.sized {s t : State} (hk : Kept s t) (hs : s.Sized) : t.Sized :=
  ⟨hk.widths.wf hs.regs, hk.mem hs.memory, hk.sha hs.memory hs.sha⟩

theorem State.sized_forget (s : State) : s.forget.Sized := ⟨s.wf_forget_regs, s.wf_forget.1, s.wf_forget.2⟩

theorem State.Sized.goto {s : State} (hs : s.Sized) (q : Seq) : (s.goto q).Sized := ⟨hs.regs, hs.memory, hs.sha⟩

theorem State.Sized.abandon {s : State} (hs : s.Sized) : s.abandon.Sized := by
  obtain ⟨hw, hm, hh⟩ := s.wf_abandon hs.memory
  exact ⟨hw, hm, hh⟩

theorem State.sized_afterReset (s : State) : s.afterReset.Sized := ⟨WRegs.wf_reset, Memory.wf_reset, ShaRegs.wf_reset⟩

theorem State.storePayload_eq (s : State) (k : Nat) (b : Byte) :
    s.storePayload k b = s.setMem (s.storePayload k b).mem := by
  unfold State.storePayload
  split <;> rfl

theorem State.Sized.storePayload {s : State} (hs : s.Sized) {k : Nat} (b : Byte) (hk : k < 544) :
    (s.storePayload k b).Sized := by
  have hm := Memory.wf_payload s k b hs.memory hk
  rw [State.storePayload_eq]
  exact ⟨hs.regs, hm, hs.sha⟩

theorem State.Sized.endCommand {s : State} (hs : s.Sized) (op : Cmd) : (s.endCommand op).Sized := by
  cases op
  exacts [s.sized_forget, s.sized_forget, hs, hs]

/-! The sequencer. -/

/-- The states of the sequencer in which the engine is at work: not an exception's. -/
def Seq.working : Seq → Prop
  | .idle | .rxp _ _ | .exec _ | .txp _ _ => True
  | .txe | .diag | .halted => False

/-- In a working state of the sequencer the invariant asks for a legal index and `HALT = 0`. -/
theorem State.Sized.inv_working {s : State} (hs : s.Sized) (hh : s.halt = false) (hq : s.seq.working)
    (hl : s.seqLegal) : s.Inv where
  regs := hs.regs
  memory := hs.memory
  sha := hs.sha
  seq := hl
  halt := by
    rw [hh]
    refine ⟨fun h => (by cases h), fun h => ?_⟩
    rcases h with h | h <;> rw [h] at hq <;> exact hq.elim
  txe := fun h => by
    rw [h] at hq
    exact hq.elim

theorem State.Inv.not_halt {s : State} (hs : s.Inv) (hd : s.seq ≠ .diag) (hh : s.seq ≠ .halted) : s.halt = false :=
  eq_false_of_ne_true fun h => (hs.halt.1 h).elim hd hh

/-- Raising Fatal gives the invariant from any sized state (R338). -/
theorem State.Sized.inv_raiseFatal {s : State} (hs : s.Sized) (c : FatalCause) : (s.raiseFatal c).Inv :=
  ⟨hs.regs, hs.memory, hs.sha, trivial, ⟨fun _ => .inl rfl, fun _ => rfl⟩, fun h => by cases h⟩

/-- Taking an EncodingError to TXE gives the invariant where the engine is not halted (R334, R335). -/
theorem State.Sized.inv_raiseEncoding {s : State} (hs : s.Sized) (hh : s.halt = false) (c : EncCause) :
    ((s.raiseEncoding c).goto .txe).Inv where
  regs := hs.regs
  memory := hs.memory
  sha := hs.sha
  seq := trivial
  halt := by simp [hh]
  txe := fun _ => rfl

theorem State.Sized.inv_idle {s : State} (hs : s.Sized) (hh : s.halt = false) (hq : s.seq = .idle) : s.Inv :=
  hs.inv_working hh (by rw [hq]; trivial) (by unfold State.seqLegal; rw [hq]; trivial)

theorem rxFrom_legal (s : State) (op : Cmd) (k : Nat) : (rxFrom op k).working ∧ (s.goto (rxFrom op k)).seqLegal := by
  unfold rxFrom
  split
  · exact ⟨trivial, ‹k < op.payloadLen›⟩
  · exact ⟨trivial, trivial⟩

theorem sendFrom_working (s : State) (op : Cmd) (k : Nat) : (s.sendFrom op k).working := by
  unfold State.sendFrom
  split <;> trivial

theorem payloadLen_le (op : Cmd) : op.payloadLen ≤ 544 := by cases op <;> decide

/-- Sign answers 512 bytes and Verify one, so `TXP(op, 0)` names a byte (R307, R308). -/
theorem State.response_pos {s : State} (hw : s.mem.wf = true) {op : Cmd} (h : op = .sign ∨ op = .verify) :
    0 < (s.response op).length := by
  rcases h with rfl | rfl
  · exact ((Memory.wf_iff _).1 hw .sigbuf).symm ▸ (by decide : 0 < Buf.sigbuf.size)
  · exact Nat.one_pos

/-! Keys and parameters. -/

theorem UnitNext.keys {s t : State} (h : UnitNext s t) : t.key = s.key ∧ t.par = s.par := by
  obtain ⟨_, _, u, hk, rfl | ⟨c, rfl⟩ | ⟨c, rfl⟩⟩ := h <;> exact ⟨hk.key, hk.par⟩

theorem State.endCommand_keys (s : State) (op : Cmd) : (s.endCommand op).key = s.key ∧ (s.endCommand op).par = s.par := by
  cases op <;> exact ⟨rfl, rfl⟩

theorem EngineNext.keys {s t : State} (h : EngineNext s t) : t.key = s.key ∧ t.par = s.par := by
  cases h with
  | unit hq hu hd hx => exact (exec_unit_next _ _ _ (isUnit_of_decodeIssue hd).2 hx).keys
  | wait _ => exact ⟨rfl, rfl⟩
  | enter hq hu hr hc => exact ⟨rfl, rfl⟩
  | ignored hq hu hr hc => exact ⟨rfl, rfl⟩
  | payload hq hr =>
    rw [State.storePayload_eq]
    exact ⟨rfl, rfl⟩
  | command hq hr hx =>
    obtain ⟨v, hkey, hpar, -, -, -, -, -, rfl | ⟨rfl, -⟩ | ⟨c, rfl⟩ | ⟨c, rfl⟩⟩ := exec_command_next hr hx <;>
      exact ⟨hkey, hpar⟩
  | more hq hk => exact ⟨rfl, rfl⟩
  | last hq hk => exact State.endCommand_keys _ _
  | status hq => exact ⟨rfl, rfl⟩
  | diag hq => exact ⟨rfl, rfl⟩

theorem StepNext.keys {s t : State} (h : StepNext s t) : t.key = s.key ∧ t.par = s.par := by
  cases h with
  | engine ht hn =>
    rcases ht with ⟨-, rfl⟩ | ⟨ts, -, rfl⟩ <;> exact hn.keys
  | hostSend h hroom => exact ⟨rfl, rfl⟩
  | hostTake h => exact ⟨rfl, rfl⟩
  | platformHalted h hh => exact ⟨rfl, rfl⟩
  | platformFatal h hh => exact ⟨rfl, rfl⟩
  | platformFatalInside h hh => exact ⟨rfl, rfl⟩
  | reset h => exact ⟨State.afterReset_key _, State.afterReset_par _⟩

/-! The invariant. -/

/-- Queues, pending issues and turns are not in the invariant. -/
theorem State.Inv.of_queues {s : State} (hs : s.Inv) (ts : List Turn) (rx tx : List Byte) :
    ({ s with turns := ts, rxq := rx, txq := tx } : State).Inv :=
  ⟨hs.regs, hs.memory, hs.sha, hs.seq, hs.halt, hs.txe⟩

theorem State.Inv.engineTurn {s s0 : State} (hs : s.Inv) (h : s.engineTurn s0) : s0.Inv := by
  rcases h with ⟨-, rfl⟩ | ⟨ts, -, rfl⟩
  · exact hs
  · exact hs.of_queues ts s.rxq s.txq

/-- A unit operation issued in IDLE: its result, an EncodingError in `ERR` and `CAUSE` alone (log 25), or DIAG. -/
theorem UnitNext.inv {s t : State} (hs : s.Sized) (hh : s.halt = false) (hq : s.seq = .idle) (h : UnitNext s t) :
    t.Inv := by
  obtain ⟨rx, bs, u, hk, ht⟩ := h
  have hu : u.Sized := hk.sized ⟨hs.regs, hs.memory, hs.sha⟩
  rcases ht with rfl | ⟨c, rfl⟩ | ⟨c, rfl⟩
  · exact hu.inv_idle (hk.halt.trans hh) (hk.seq.trans hq)
  · exact State.Sized.inv_idle ⟨hu.regs, hu.memory, hu.sha⟩ (hk.halt.trans hh) (hk.seq.trans hq)
  · exact hu.inv_raiseFatal c

/-- The step of EXEC: the response, IDLE where it is empty, TXE or DIAG. -/
theorem command_inv {s t : State} {op : Cmd} {i : Instr} (hs : s.Sized) (hh : s.halt = false)
    (hr : runCommand op s = .run i s) (hx : exec i s = .next t) : t.Inv := by
  obtain ⟨v, -, -, -, hvh, -, hwid, hmem, ht⟩ := exec_command_next hr hx
  have hv : v.Sized := ⟨hwid.wf hs.regs, (hmem hs.memory).1, (hmem hs.memory).2 hs.sha⟩
  have hvh := hvh.trans hh
  rcases ht with rfl | ⟨rfl, hop⟩ | ⟨c, rfl⟩ | ⟨c, rfl⟩
  · exact (hv.goto _).inv_working hvh (sendFrom_working _ _ _) (seqLegal_sendFrom _ _ _)
  · exact (hv.goto _).inv_working hvh trivial (State.response_pos (hv.goto (.txp op 0)).memory hop)
  · exact hv.inv_raiseEncoding hvh c
  · exact hv.inv_raiseFatal c

theorem EngineNext.inv {s t : State} (hs : s.Inv) (h : EngineNext s t) : t.Inv := by
  have live {q : Seq} (hq : s.seq = q) (hd : q ≠ .diag) (hh : q ≠ .halted) : s.halt = false :=
    hs.not_halt (hq ▸ hd) (hq ▸ hh)
  cases h with
  | @unit u us i t hq hu hd hx =>
    exact UnitNext.inv (s := { s with uq := us }) ⟨hs.regs, hs.memory, hs.sha⟩ (live hq nofun nofun) hq
      (exec_unit_next _ _ _ (isUnit_of_decodeIssue hd).2 hx)
  | wait _ => exact hs
  | @enter b rest op hq hu hr hc =>
    obtain ⟨hw, hl⟩ := rxFrom_legal { s with rxq := rest } op 0
    exact State.Sized.inv_working ⟨hs.regs, hs.memory, hs.sha⟩ (live hq nofun nofun) hw hl
  | ignored hq hu hr hc => exact State.Sized.inv_idle ⟨hs.regs, hs.memory, hs.sha⟩ (live hq nofun nofun) hq
  | @payload op k b rest hq hr =>
    have hk : k < op.payloadLen := by
      have hl := hs.seq
      unfold State.seqLegal at hl
      rw [hq] at hl
      exact hl
    have hz := State.Sized.storePayload (s := { s with rxq := rest }) ⟨hs.regs, hs.memory, hs.sha⟩ b
      (hk.trans_le (payloadLen_le op))
    obtain ⟨hw, hl⟩ := rxFrom_legal (({ s with rxq := rest }).storePayload k b) op (k + 1)
    refine (hz.goto _).inv_working ?_ hw hl
    rw [State.storePayload_eq]
    exact live hq nofun nofun
  | command hq hr hx => exact command_inv hs.sized (live hq nofun nofun) hr hx
  | more hq hk =>
    exact State.Sized.inv_working ⟨hs.regs, hs.memory, hs.sha⟩ (live hq nofun nofun) trivial hk
  | @last op k hq hk =>
    have hz : (s.txBytes ((s.response op)[k]?).toList).Sized := ⟨hs.regs, hs.memory, hs.sha⟩
    refine ((hz.endCommand op).goto .idle).inv_idle ?_ rfl
    cases op <;> exact live hq nofun nofun
  | status hq => exact ((State.sized_forget _).goto .idle).inv_idle (live hq nofun nofun) rfl
  | diag hq =>
    exact ⟨hs.regs, hs.memory, hs.sha, trivial, ⟨fun _ => .inr rfl, fun _ => hs.halt.2 (.inl hq)⟩, fun h => by cases h⟩

theorem StepNext.inv {s t : State} (hs : s.Inv) (h : StepNext s t) : t.Inv := by
  cases h with
  | engine ht hn => exact hn.inv (hs.engineTurn ht)
  | hostSend h hroom => exact hs.of_queues _ _ _
  | hostTake h => exact hs.of_queues _ _ _
  | platformHalted h hh => exact hs.of_queues _ _ _
  | @platformFatal c ts h hh => exact (hs.of_queues ts s.rxq s.txq).sized.inv_raiseFatal _
  | @platformFatalInside c ts h hh => exact (hs.of_queues ts s.rxq s.txq).sized.abandon.inv_raiseFatal _
  | reset h => exact (State.sized_afterReset _).inv_idle rfl rfl

/-- Settles O55: the invariant goes through the inversion of the step, agent by agent and row by row. -/
theorem stepKeepsInvariant : Obligations.StepKeepsInvariant :=
  fun _ _ hs h => (stepNext_of_step h).inv hs

/-- Settles O53: no row of the inversion of the step touches keys or parameters. -/
theorem keysAndParametersNeverChange : Obligations.KeysAndParametersNeverChange :=
  fun _ _ h => (stepNext_of_step h).keys

/-- Settles O54: the values by definition, the invariant from the reset sizes in IDLE. -/
theorem resetStateIsAsGiven : Obligations.ResetStateIsAsGiven :=
  ⟨rfl, rfl, rfl, rfl, rfl, rfl,
    State.Sized.inv_idle ⟨WRegs.wf_reset, Memory.wf_reset, ShaRegs.wf_reset⟩ rfl rfl⟩

end Sys2Proof.Machine
end

