-- ==== Sys2Proof/Proofs/Sequencing.lean ====
section
/-! PROOFS. What the rows of the sequencer do to their bytes (R36, R38, R94, R95, R96), and the statements that say it
turn by turn. -/

namespace Sys2Proof.Machine

/-! Storing a payload byte. -/

theorem State.putBytes_byte {s : State} {b : Buf} {off : Nat} (x : Byte) (hw : s.mem.wf = true) (h : off < b.size) :
    (s.putBytes b off [x]).mem.byte b off = some x ∧ SameBytesOutside s (s.putBytes b off [x]) ⟨b, off, 1⟩ := by
  have hf : s.fits ⟨b, off, 1⟩ = true := State.fits_of_wf _ hw b off 1 h
  exact ⟨State.putBytes_inside s b off 0 [x] hf Nat.one_pos, State.putBytes_outside s b off [x] hf⟩

/-- The first 32 payload bytes go to `DIGEST` (R94). -/
theorem State.storePayload_digest {s : State} {k : Nat} (b : Byte) (hw : s.mem.wf = true) (hk : k < 32) :
    (s.storePayload k b).mem.byte .digest k = some b ∧ SameBytesOutside s (s.storePayload k b) ⟨.digest, k, 1⟩ := by
  rw [State.storePayload, if_pos hk]
  exact State.putBytes_byte b hw hk

/-- The other payload bytes go to `SIGBUF` (R95). -/
theorem State.storePayload_sigbuf {s : State} {k : Nat} (b : Byte) (hw : s.mem.wf = true) (hk : 32 ≤ k)
    (hlt : k < 544) :
    (s.storePayload k b).mem.byte .sigbuf (k - 32) = some b
      ∧ SameBytesOutside s (s.storePayload k b) ⟨.sigbuf, k - 32, 1⟩ := by
  rw [State.storePayload, if_neg (Nat.not_lt.2 hk)]
  exact State.putBytes_byte b hw (show k - 32 < 512 by omega)

theorem rxFrom_zero (op : Cmd) : rxFrom op 0 = if op.payloadLen = 0 then .exec op else .rxp op 0 := by
  cases op <;> rfl

/-- Settles O46, from the rows of IDLE and RXP and what storing a byte writes. -/
theorem payloadBytesAreStoredInOrder : Obligations.PayloadBytesAreStoredInOrder := by
  intro s s0 h
  refine ⟨fun b rest op hq hu hr hc => ?_, fun op k b rest hq hr hw hk => ?_, fun op k hq hr => step_rxp_wait h hq hr,
    step_idle_wait h⟩
  · rw [step_enter h hq hu hr hc, rxFrom_zero]
    rfl
  · have hlt : k < 544 := hk.trans_le (payloadLen_le op)
    refine ⟨_, step_rxp h hq hr, ?_, fun h32 => ?_, fun h32 => ?_⟩
    · rw [State.storePayload_eq]
      rfl
    · exact State.storePayload_digest (s := { s0 with rxq := rest }) b hw h32
    · exact State.storePayload_sigbuf (s := { s0 with rxq := rest }) b hw h32 hlt

/-- Settles O47, from the row of TXP before and after the last byte. -/
theorem responseBytesAreSentInOrder : Obligations.ResponseBytesAreSentInOrder := by
  intro s s0 op k b h hq hb
  refine ⟨fun hk => ?_, fun hk hop => ?_, fun hk hop => ?_⟩
  · rw [step_txp h hq, sendByte_more hk, hb]
    rfl
  · rw [step_txp h hq, sendByte_last hk.not_lt, hb]
    rcases hop with rfl | rfl <;> rfl
  · rw [step_txp h hq, sendByte_last hk.not_lt, hb]
    rcases hop with rfl | rfl <;> rfl

/-- Settles O45, from the rows of IDLE and EXEC that run an instruction. -/
theorem stepRunsDecodedInstruction : Obligations.StepRunsDecodedInstruction := by
  intro s s0 h
  refine ⟨fun u us i hq hu hd => step_issue h hq hu hd,
    fun op i hq hd => step_exec h hq (decodeStream_of_decode hd), fun b rest i hq hu hr hc hd => ?_⟩
  cases (decodeStream_ignored hc).symm.trans (decodeStream_of_decode hd)
  exact step_ignored h hq hu hr hc

/-- Settles O51, from HOST's turns. -/
theorem hostMovesOnlyTheQueues : Obligations.HostMovesOnlyTheQueues := by
  intro s ts
  refine ⟨fun b h hroom => step_hostSend h hroom, fun b d h hd hfull => step_hostSend_full h hd hfull,
    fun b rest h htx => ?_, fun h htx => ?_⟩
  · rw [step_hostTake h, htx]
    rfl
  · rw [step_hostTake h, htx, List.drop_nil, ← htx]

end Sys2Proof.Machine
end

