-- ==== Sys2Proof/Proofs/Memory.lean ====
section
/-! PROOFS. The layout of `20_memory.md`: the decode and encode laws undo each other (R62, R63), and nothing resizes a
word vector (R68): operands and registers of another word count are refused, and every next state has the widths of the
state before. -/

namespace Sys2Proof.Machine

/-! The decode and encode laws. -/

/-- Decoding and then encoding gives the byte string back: both keep length and value (R62, R63). -/
theorem toBE_fromBE {n : Nat} {bs : List Byte} (h : bs.length = 4 * n) : toBE (fromBE bs) = bs := by
  obtain ⟨hl, hv⟩ := fromBE_law n bs h
  obtain ⟨hl', hv'⟩ := toBE_law (fromBE bs)
  exact be_inj (by rw [hl', hl, h]) (hv'.trans hv)

/-- Encoding and then decoding gives the vector back: both keep length and value (R62, R63). -/
theorem fromBE_toBE (ws : List Word) : fromBE (toBE ws) = ws := by
  obtain ⟨hl, hv⟩ := toBE_law ws
  obtain ⟨hl', hv'⟩ := fromBE_law ws.length (toBE ws) hl
  exact val_inj hl' (hv'.trans hv)

/-- The four bytes of word `i` stand at `4*(n-1-i)` of the encoding (R63). -/
theorem toBE_getD (ws : List Word) {i j : Nat} (hi : i < ws.length) (hj : j < 4) :
    (toBE ws).getD (4 * (ws.length - 1 - i) + j) 0 = (wordBytes (ws.getD i 0)).getD j 0 := by
  induction ws generalizing i with
  | nil => exact absurd hi (Nat.not_lt_zero i)
  | cons w ws ih =>
    have hl := (toBE_law ws).1
    rw [toBE_cons]
    cases i with
    | zero =>
      have he : 4 * ((w :: ws).length - 1 - 0) + j = (toBE ws).length + j := by rw [hl]; rfl
      rw [he, List.getD_append_right _ _ _ _ (Nat.le_add_right _ _), Nat.add_sub_cancel_left, List.getD_cons_zero]
    | succ i =>
      have hi : i < ws.length := Nat.lt_of_succ_lt_succ hi
      have he : (w :: ws).length - 1 - (i + 1) = ws.length - 1 - i := by rw [List.length_cons]; omega
      rw [he, List.getD_append _ _ _ _ (by omega), List.getD_cons_succ, ih hi]

/-- The four bytes of a word weigh `2^24`, `2^16`, `2^8` and 1 (R62). -/
theorem toNat_eq_wordBytes (w : Word) :
    w.toNat = ((wordBytes w).getD 0 0).toNat * 2 ^ 24 + ((wordBytes w).getD 1 0).toNat * 2 ^ 16
      + ((wordBytes w).getD 2 0).toNat * 2 ^ 8 + ((wordBytes w).getD 3 0).toNat := by
  rw [← be_wordBytes w]
  simp only [wordBytes, be_cons, be_nil, List.getD_cons_zero, List.getD_cons_succ, List.length_cons, List.length_nil]
  omega

/-- Word `i` of the decoding is made of the bytes from `4*(n-1-i)` on, most significant first (R62). -/
theorem fromBE_getD_toNat {n : Nat} {bs : List Byte} (h : bs.length = 4 * n) {i : Nat} (hi : i < n) :
    ((fromBE bs).getD i 0).toNat
      = (bs.getD (4 * (n - 1 - i)) 0).toNat * 2 ^ 24 + (bs.getD (4 * (n - 1 - i) + 1) 0).toNat * 2 ^ 16
        + (bs.getD (4 * (n - 1 - i) + 2) 0).toNat * 2 ^ 8 + (bs.getD (4 * (n - 1 - i) + 3) 0).toNat := by
  have hl := (fromBE_law n bs h).1
  have hbyte : ∀ j, j < 4 → (wordBytes ((fromBE bs).getD i 0)).getD j 0 = bs.getD (4 * (n - 1 - i) + j) 0 := by
    intro j hj
    rw [← toBE_getD (fromBE bs) (hl.symm ▸ hi) hj, toBE_fromBE h, hl]
  rw [toNat_eq_wordBytes, hbyte 0 (by decide), hbyte 1 (by decide), hbyte 2 (by decide), hbyte 3 (by decide),
    Nat.add_zero]

/-- Settles O14, from the length and value laws and the place of each byte of the encoding. -/
theorem decodeAndEncodeLawsAreInverse : Obligations.DecodeAndEncodeLawsAreInverse := by
  refine ⟨fun n bs h => ?_, fun ws => ?_⟩
  · obtain ⟨hl, hv⟩ := fromBE_law n bs h
    exact ⟨hl, hv, toBE_fromBE h, fun i hi => fromBE_getD_toNat h hi⟩
  · obtain ⟨hl, hv⟩ := toBE_law ws
    have hbyte {i : Nat} (hi : i < ws.length) (j : Nat) := toBE_getD ws (j := j) hi
    exact ⟨hl, hv, fromBE_toBE ws, fun i hi =>
      ⟨hbyte hi 0 (by decide), hbyte hi 1 (by decide), hbyte hi 2 (by decide), hbyte hi 3 (by decide)⟩⟩

/-! A call with a word vector of another word count is refused. An earlier check that fails refuses it for the same
reason, so what comes before the bad operand does not matter. -/

theorem finishUnit_refused {u : UResult} {r : Refusal} (h : u = .refused r) : finishUnit u = .refused r := by
  rw [h]
  rfl

theorem withVec_refused {s : State} {n : Nat} {x : VSrc} {k : List Word → UResult}
    (h : ∀ v, k v = .refused .operandWidth) : withVec s n x k = .refused .operandWidth := by
  cases hx : s.vec n x with
  | none => exact withVec_none hx k
  | some v => exact (withVec_some hx k).trans (h v)

theorem withReg_refused {s : State} {n : Nat} {r : VReg} {k : UResult} (h : k = .refused .operandWidth) :
    withReg s n r k = .refused .operandWidth := by
  by_cases hr : (s.w.get r).length = n
  · rw [withReg_eq hr, h]
  · exact withReg_ne hr k

theorem withAcc_ne {s : State} {n : Nat} (h : s.w.acc.length ≠ 2 * n) (k : UResult) :
    withAcc s n k = .refused .operandWidth := if_neg h

theorem withRegs_false {s : State} {n : Nat} (h : s.w.wf n = false) (k : UResult) :
    withRegs s n k = .refused .operandWidth := if_neg (by rw [h]; exact Bool.false_ne_true)

theorem frombeTo_ne {s : State} {n : Nat} {d : VReg} (h : (s.w.get d).length ≠ n) (bs : List Byte) :
    frombeTo n bs d s = .refused .operandWidth := by
  unfold frombeTo
  split
  · exact withReg_ne h _
  · rfl

section
variable {nW : Nat} {s : State}

/-- A first vector operand of another word count ends the operation. -/
theorem refused_first {x : VSrc} (hx : s.vec nW x = none) (k : List Word → UResult) :
    finishUnit (withVec s nW x k) = .refused .operandWidth := finishUnit_refused (withVec_none hx k)

/-- So does a second one, after any first operand. -/
theorem refused_second {x : VSrc} (hx : s.vec nW x = none) (y : VSrc) (k : List Word → List Word → UResult) :
    finishUnit (withVec s nW y fun a => withVec s nW x (k a)) = .refused .operandWidth :=
  finishUnit_refused (withVec_refused fun a => withVec_none hx (k a))

/-- So does a third one, after any first and second operand. -/
theorem refused_third {x : VSrc} (hx : s.vec nW x = none) (y z : VSrc)
    (k : List Word → List Word → List Word → UResult) :
    finishUnit (withVec s nW y fun a => withVec s nW z fun b => withVec s nW x (k a b)) = .refused .operandWidth :=
  finishUnit_refused (withVec_refused fun a => withVec_refused fun b => withVec_none hx (k a b))

/-- A destination register of another width ends an operation of two vector operands. -/
theorem refused_reg {d : VReg} (hd : (s.w.get d).length ≠ nW) (x y : VSrc) (k : List Word → List Word → UResult) :
    finishUnit (withVec s nW x fun a => withVec s nW y fun b => withReg s nW d (k a b)) = .refused .operandWidth :=
  finishUnit_refused (withVec_refused fun a => withVec_refused fun b => withReg_ne hd (k a b))

/-- MONTMUL whose `K0` operand exists is refused where the checks of its registers refuse (R162, R68). -/
theorem montmul_refused {k : WSrc} {w : Word} (hk : s.word k = some w) {d : VReg}
    (h : ∀ u, withReg s nW d (withAcc s nW u) = .refused .operandWidth) (x y m : VSrc) :
    exec (.montmul nW x y m k d) s = .refused .operandWidth :=
  finishUnit_refused <| withVec_refused fun _ => withVec_refused fun _ => withVec_refused fun _ =>
    (withWord_some hk _).trans (h _)

/-- MODEXP on registers of another width is refused where no overlap is (R193, R68). -/
theorem modexp_refused (hw : s.w.wf nW = false) (b e m : VSrc) (hb : modexpBaseOverlap b = false)
    (he : modexpReadOnlyOverlap e = false) (hm : modexpReadOnlyOverlap m = false) :
    exec (.modexp nW b e m) s = .refused .operandWidth :=
  finishUnit_refused <| withVec_refused fun _ => withVec_refused fun _ => withVec_refused fun _ =>
    (if_neg (by simp [hb, he, hm])).trans (withRegs_false hw _)

end

/-- Settles O15: in each operation the checks of operands and registers come before everything else. -/
theorem otherWordCountIsRefused : Obligations.OtherWordCountIsRefused := by
  intro nW x g g' g'' s _ _ _ _ _ _
  refine ⟨fun hx => ?_, fun d hd => ?_, fun ha k w d hk => ?_, fun hr => ?_, fun hw => modexp_refused hw g g' g''⟩
  · have h1 := refused_first hx
    have h2 := refused_second hx
    have h3 := refused_third hx
    exact ⟨fun y d => h1 _, fun d => h2 g _, fun y d => h1 _, fun d => h2 g _,
      fun zv y => h2 (vdstSrc zv) _, fun zv y hz => refused_first hz _,
      fun y => h1 _, h2 g _, fun m d => h1 _, fun d => h2 g _, h1 _, fun buf off => h1 _,
      fun y m k d => h1 _, fun m k d => h2 g _, fun k d => h3 g g' _,
      fun zv => h2 (.reg zv) _, fun zv hz => refused_first hz _, h1 _,
      fun e m => h1 _, fun m => h2 g _, h3 g g' _⟩
  · have h2 := refused_reg hd g g'
    exact ⟨h2 _, h2 _, h2 _, fun b bs hb => finishUnit_refused ((withBytes_some hb _).trans (frombeTo_ne hd bs)),
      fun k w hk => montmul_refused hk (fun u => withReg_ne hd _) g g' g''⟩
  · exact montmul_refused hk (fun u => withReg_refused (withAcc_ne ha u)) g g' g''
  · exact finishUnit_refused (withVec_refused fun _ => withReg_ne (r := .rr) hr _)

/-! Nothing is resized. -/

/-- Taking an exception writes no word register (R334, R338). -/
theorem UnitNext.widths {s t : State} (h : UnitNext s t) : SameWidths s t := by
  obtain ⟨_, _, u, hk, rfl | ⟨c, rfl⟩ | ⟨c, rfl⟩⟩ := h <;> exact ⟨hk.widths.1, hk.widths.2⟩

/-- Settles O60, from what every unit operation keeps. -/
theorem unitOperationsResizeNothing : Obligations.UnitOperationsResizeNothing :=
  fun i c s t hi h => (exec_unit_next i s t ⟨c, hi⟩ h).widths

end Sys2Proof.Machine
end

