-- ==== Sys2Proof/Proofs/Encoding.lean ====
section
/-! PROOFS. The encoding (`30_encoding.md`): what the byte stream decodes to on each opcode byte (R90 to R95), and that
the decoder and the encoder undo each other on commands and on issued unit operations (R91, R92, R99). -/

namespace Sys2Proof.Machine

/-! The byte stream. -/

/-- A named command with the payload at the head of `p` (R91). -/
def Cmd.instr : Cmd → List Byte → Instr
  | .sign, p => .sign (p.take 32)
  | .verify, p => .verify (p.take 32) ((p.drop 32).take 512)
  | .getowner, _ => .getowner
  | .getaddress, _ => .getaddress

/-- An opcode byte that names a command takes that command's payload, and no other bytes (R91, R93). -/
theorem decodeStream_of_commandOf_some {b : Byte} {op : Cmd} (h : commandOf b = some op) (p : List Byte) :
    decodeStream (b :: p) = if p.length < op.payloadLen then .error .shortPayload
      else .ok (Cmd.instr op p, p.drop op.payloadLen) := by
  cases op <;> simp only [decodeStream, h] <;> rfl

/-- Any other opcode byte takes no payload (R93). -/
theorem decodeStream_of_commandOf_none {b : Byte} (h : commandOf b = none) (p : List Byte) :
    decodeStream (b :: p) = .ok (ignoredOf b, p) := by
  simp only [decodeStream, h]

/-- A command is encoded as its opcode and its payload (R91, R92). -/
theorem encode_instr (op : Cmd) (p : List Byte) :
    encode (Cmd.instr op p) = .stream (op.opcode :: p.take op.payloadLen) := by
  cases op with
  | sign => rfl
  | verify => exact congrArg (fun q => Image.stream (0x01 :: q)) (List.take_add (i := 32) (j := 512)).symm
  | getowner => rfl
  | getaddress => rfl

/-- A decoded command stands at the head of the stream as its own encoding, before the bytes that are left. -/
theorem encode_of_decodeStream {bs rest : List Byte} {i : Instr} (h : decodeStream bs = .ok (i, rest)) :
    ∃ c, encode i = .stream c ∧ c ++ rest = bs := by
  cases bs with
  | nil => cases h
  | cons b p =>
    cases hc : commandOf b with
    | none =>
      cases (decodeStream_of_commandOf_none hc p).symm.trans h
      exact ⟨[b], encode_ignoredOf hc, rfl⟩
    | some op =>
      rw [decodeStream_of_commandOf_some hc] at h
      split at h
      · cases h
      · cases h
        exact ⟨b :: p.take op.payloadLen, commandOf_some hc ▸ encode_instr op p,
          congrArg (b :: ·) (List.take_append_drop _ p)⟩

/-- A command with exactly its payload is a whole image. -/
theorem decode_instr (op : Cmd) {p : List Byte} (h : p.length = op.payloadLen) :
    decode (.stream (op.opcode :: p)) = .ok (Cmd.instr op p) := by
  have hd := decodeStream_of_commandOf_some (commandOf_opcode op) p
  rw [if_neg h.not_lt, List.drop_of_length_le h.le] at hd
  simp only [decode, hd]

/-- The free bits of each row of `0x04 .. 0xFF` come back from the opcode byte (R92). -/
theorem decode_ignored_rows :
    (∀ x, decode (encode (.ignored_04_07 x)) = .ok (.ignored_04_07 x))
      ∧ (∀ x, decode (encode (.ignored_08_0f x)) = .ok (.ignored_08_0f x))
      ∧ (∀ x, decode (encode (.ignored_10_1f x)) = .ok (.ignored_10_1f x))
      ∧ (∀ x, decode (encode (.ignored_20_3f x)) = .ok (.ignored_20_3f x))
      ∧ (∀ x, decode (encode (.ignored_40_7f x)) = .ok (.ignored_40_7f x))
      ∧ ∀ x, decode (encode (.ignored_80_ff x)) = .ok (.ignored_80_ff x) :=
  ⟨by decide, by decide, by decide, by decide, by decide, by decide⟩

/-! Both directions. -/

/-- The issue of a unit operation decodes to it, whatever its operands are: the select code names it (R99). -/
theorem decode_encode_of_isUnit {i : Instr} (h : Instr.isUnit i) : decode (encode i) = .ok i := by
  obtain ⟨c, args, h⟩ := h
  cases i with
  | sign | verify | getowner | getaddress | ignored_04_07 | ignored_08_0f | ignored_10_1f | ignored_20_3f
  | ignored_40_7f | ignored_80_ff => cases h
  | _ => rfl

/-- A well-formed instruction is what its image decodes to: a payload of the right length, the free bits of an opcode
row, or the operands of an issue come back. -/
theorem decode_encode (i : Instr) (hw : i.wf = true) : decode (encode i) = .ok i := by
  obtain ⟨h04, h08, h10, h20, h40, h80⟩ := decode_ignored_rows
  cases i with
  | sign d =>
    have hd : d.length = 32 := eq_of_beq hw
    exact (decode_instr .sign hd).trans (by rw [Cmd.instr, List.take_of_length_le hd.le])
  | verify d g =>
    obtain ⟨hd, hg⟩ := Bool.and_eq_true_iff.1 hw
    have hd : d.length = 32 := eq_of_beq hd
    have hg : g.length = 512 := eq_of_beq hg
    have hp : (d ++ g).length = 544 := by rw [List.length_append, hd, hg]
    exact (decode_instr .verify hp).trans
      (by rw [Cmd.instr, List.take_left' hd, List.drop_left' hd, List.take_of_length_le hg.le])
  | getowner => exact decode_instr .getowner rfl
  | getaddress => exact decode_instr .getaddress rfl
  | ignored_04_07 x => exact h04 x
  | ignored_08_0f x => exact h08 x
  | ignored_10_1f x => exact h10 x
  | ignored_20_3f x => exact h20 x
  | ignored_40_7f x => exact h40 x
  | ignored_80_ff x => exact h80 x
  | _ => exact decode_encode_of_isUnit ⟨_, _, rfl⟩

/-- An image that decodes is the encoding of what it decodes to. -/
theorem encode_of_decode {im : Image} {i : Instr} (h : decode im = .ok i) : encode i = im := by
  cases im with
  | stream bs =>
    obtain ⟨c, hc, rfl⟩ := encode_of_decodeStream (decodeStream_of_decode h)
    rw [hc, List.append_nil]
  | issue u => exact (isUnit_of_decodeIssue h).1

/-- Settles O56: each direction splits into the byte stream, command by command, and the issue. -/
theorem decodeAndEncodeAgree : Obligations.DecodeAndEncodeAgree :=
  ⟨decode_encode, fun _ _ h => encode_of_decode h⟩

/-- Settles O57, from the two equations of the decoder on an opcode byte. -/
theorem everyOpcodeByteDecodes : Obligations.EveryOpcodeByteDecodes := by
  intro b p hp
  have hlen : (if b = 0x00 then 32 else if b = 0x01 then 544 else 0) = (commandOf b).elim 0 Cmd.payloadLen := by
    unfold commandOf
    split_ifs <;> rfl
  rw [hlen]
  cases hc : commandOf b with
  | none => exact ⟨ignoredOf b, decodeStream_of_commandOf_none hc p⟩
  | some op =>
    have hle : ¬ p.length < op.payloadLen := Nat.not_lt.2 ((payloadLen_le op).trans hp)
    exact ⟨Cmd.instr op p, (decodeStream_of_commandOf_some hc p).trans (if_neg hle)⟩

/-- Settles O58: each word that decodes is the image of a well-formed instruction; `0x73` is no select code. -/
theorem tableWordsDecode : Obligations.TableWordsDecode :=
  ⟨decode_encode .getowner rfl, decode_encode .getaddress rfl, decode_encode (.ignored_04_07 0b11) rfl,
    decode_encode (.ignored_80_ff 0b1111111) rfl, decode_encode (.sign (zeros 32)) rfl,
    decode_encode (.iszerov 1 (.reg .base)) rfl, decode_encode .signop rfl,
    decode_encode (.wrbyte (.lit [0x45])) rfl, rfl⟩

end Sys2Proof.Machine
end

