-- ==== Sys2Proof/Proofs/WordSteps.lean ====
section
/-! PROOFS. ADDW, SUBW and MACW (`40_fixed_width_arith.md` R120 to R122): they complete wherever their operands exist,
with the words the step laws give, and they change one word and one condition output. -/

namespace Sys2Proof.Machine

theorem finishUnit_withWord_two {s : State} {a b : WSrc} {x y : Word} (ha : s.word a = some x) (hb : s.word b = some y)
    (k : Word → Word → UResult) :
    finishUnit (withWord s a fun u => withWord s b fun v => k u v) = finishUnit (k x y) := by
  rw [withWord_some ha, withWord_some hb]

theorem finishUnit_withWordDst {s : State} {d : WDst} (hd : s.hasWord d = true) (t : State) :
    finishUnit (withWordDst s d (.done t)) = .next t := by
  rw [withWordDst_true hd]
  rfl

/-- Settles O1, by the law of ADDW on words. -/
theorem addwWritesSumAndCarry : Obligations.AddwWritesSumAndCarry :=
  fun _ _ cin _ s x y ha hb hd => ⟨⟨_, rfl⟩, _, _, addw_law x y (s.carryIn cin),
    (finishUnit_withWord_two ha hb _).trans (finishUnit_withWordDst hd _)⟩

/-- Settles O2, by the law of SUBW on words, read over the integers. -/
theorem subwWritesDifferenceAndBorrow : Obligations.SubwWritesDifferenceAndBorrow := by
  intro a b bin d s x y ha hb hd
  have hlaw := subw_law x y (s.borrowIn bin)
  exact ⟨⟨_, rfl⟩, _, _, by omega, (finishUnit_withWord_two ha hb _).trans (finishUnit_withWordDst hd _)⟩

/-- Settles O3, by the law of MACW on words. -/
theorem macwWritesProductWords : Obligations.MacwWritesProductWords :=
  fun _ _ _ _ _ _ x y u c ha hb hz hc hd => ⟨⟨_, rfl⟩, _, _, macw_law x y u c,
    (finishUnit_withWord_two ha hb _).trans ((finishUnit_withWord_two hz hc _).trans (finishUnit_withWordDst hd _))⟩

/-! The frame. -/

/-- An operation that reads a word and completes has found it. -/
theorem withWord_next {s t : State} {x : WSrc} {k : Word → UResult} (h : finishUnit (withWord s x k) = .next t) :
    ∃ v, s.word x = some v ∧ finishUnit (k v) = .next t := by
  cases hx : s.word x with
  | none => simp only [withWord, hx, finishUnit, reduceCtorEq] at h
  | some v => exact ⟨v, rfl, withWord_some hx k ▸ h⟩

/-- An operation that ends with a word destination and completes leaves the state it was to leave. -/
theorem withWordDst_next {s t u : State} {d : WDst} (h : finishUnit (withWordDst s d (.done u)) = .next t) : t = u := by
  unfold withWordDst at h
  split at h <;> cases h
  rfl

/-- Writing a word and `CW` changes that word and `CW`, and no other word. -/
theorem sameWordsBut_putWord_setCw (s : State) (d : WDst) (v c : Word) :
    SameWordsBut s ((s.putWord d v).setCw c) d := by
  cases d with
  | reg r i =>
    refine ⟨fun q j hne => ?_, fun _ _ => by simp [State.putWord], by simp [State.putWord], by simp [State.putWord]⟩
    have hscratch : ((s.putWord (.reg r i) v).setCw c).w.get q = (s.w.put r ((s.w.get r).set i v)).get q :=
      WRegs.get_scratch _ _ _ _ _ q
    rw [hscratch]
    by_cases hq : q = r
    · subst hq
      have hij : i ≠ j := fun e => hne (by rw [e])
      rw [WRegs.get_put_self, List.getElem?_set_ne hij]
    · rw [WRegs.get_put_ne _ _ hq]
  | acc i =>
    refine ⟨fun q _ _ => congrArg (·[_]?) (WRegs.get_scratch s.w _ _ _ _ q), fun j hne => ?_, rfl, rfl⟩
    exact List.getElem?_set_ne fun e => hne (by rw [e])

/-- What a word step leaves as it was, whatever flags and `CW` it writes. -/
theorem wordStep_frame {s t : State} {d : WDst} (v c : Word) (f : Flags)
    (ht : t = { (s.putWord d v).setCw c with fl := f }) :
    SameControl s t ∧ SameUnits s t ∧ SameBytes s t ∧ SameWordsBut s t d := by
  subst ht
  have hw := sameWordsBut_putWord_setCw s d v c
  cases d <;>
    exact ⟨⟨rfl, rfl, rfl, rfl, rfl, rfl, rfl, rfl, rfl, rfl⟩, ⟨rfl, rfl, rfl, rfl, rfl⟩, fun _ _ => rfl,
      hw.regs, hw.acc, hw.k0, hw.t⟩

theorem State.putWord_cw (s : State) (d : WDst) (v : Word) : (s.putWord d v).w.cw = s.w.cw := by
  cases d <;> simp [State.putWord]

/-- Settles O4: a word step that completes has written its destination word and its own condition output. -/
theorem wordStepsKeepEverythingElse : Obligations.WordStepsKeepEverythingElse := by
  intro s t
  refine ⟨fun a b cin d h => ?_, fun a b bin d h => ?_, fun a b z cin d h => ?_⟩
  · obtain ⟨x, -, h⟩ := withWord_next h
    obtain ⟨y, -, h⟩ := withWord_next h
    obtain rfl := withWordDst_next h
    obtain ⟨hc, hu, hb, hw⟩ := wordStep_frame (addw x y (s.carryIn cin)).1 (s.putWord d _).w.cw _ rfl
    exact ⟨hc, hu, hb, hw, State.putWord_cw s d _, by simp⟩
  · obtain ⟨x, -, h⟩ := withWord_next h
    obtain ⟨y, -, h⟩ := withWord_next h
    obtain rfl := withWordDst_next h
    obtain ⟨hc, hu, hb, hw⟩ := wordStep_frame (subw x y (s.borrowIn bin)).1 (s.putWord d _).w.cw _ rfl
    exact ⟨hc, hu, hb, hw, State.putWord_cw s d _, by simp⟩
  · obtain ⟨x, -, h⟩ := withWord_next h
    obtain ⟨y, -, h⟩ := withWord_next h
    obtain ⟨u, -, h⟩ := withWord_next h
    obtain ⟨c, -, h⟩ := withWord_next h
    obtain rfl := withWordDst_next h
    obtain ⟨hc, hu, hb, hw⟩ := wordStep_frame (macw x y u c).1 (macw x y u c).2 _ rfl
    exact ⟨hc, hu, hb, hw, by simp⟩

end Sys2Proof.Machine
end

