-- ==== Sys2Proof/Proofs/VectorArith.lean ====
section
/-! PROOFS. The vector operations (`40_fixed_width_arith.md` R123 to R128): they complete on operands of `nW` words, with
the value law of each. -/

namespace Sys2Proof.Machine

section
variable {nW : Nat} {s : State} {x y : VSrc} {xs ys : List Word}

theorem finishUnit_withVec_two (hx : s.vec nW x = some xs) (hy : s.vec nW y = some ys)
    (k : List Word → List Word → UResult) :
    finishUnit (withVec s nW x fun a => withVec s nW y fun b => k a b) = finishUnit (k xs ys) := by
  rw [withVec_some hx, withVec_some hy]

theorem finishUnit_withReg {d : VReg} (hd : (s.w.get d).length = nW) (u : UResult) :
    finishUnit (withReg s nW d u) = finishUnit u := by
  rw [withReg_eq hd]

/-- Two operands of one operation have the same word count (R10, R130). -/
theorem State.vec_two_length (hx : s.vec nW x = some xs) (hy : s.vec nW y = some ys) :
    xs.length = nW ∧ xs.length = ys.length :=
  ⟨(State.vec_some hx).2, (State.vec_some hx).2.trans (State.vec_some hy).2.symm⟩

end

/-- Settles O5, by the value law of the carry chain. -/
theorem addvAddsVectors : Obligations.AddvAddsVectors := by
  intro nW x y d s xs ys hx hy hd
  obtain ⟨hn, hl⟩ := State.vec_two_length hx hy
  refine ⟨⟨_, rfl⟩, _, _, (addv_length xs ys false hl).trans hn, ?_,
    (finishUnit_withVec_two hx hy _).trans (finishUnit_withReg hd _)⟩
  exact hn ▸ addv_law xs ys false hl

/-- Settles O6, by the value law of the borrow chain, read over the integers. -/
theorem subvSubtractsVectors : Obligations.SubvSubtractsVectors := by
  intro nW x y d s xs ys hx hy hd
  obtain ⟨hn, hl⟩ := State.vec_two_length hx hy
  refine ⟨⟨_, rfl⟩, _, _, (subv_length xs ys false hl).trans hn, ?_,
    (finishUnit_withVec_two hx hy _).trans (finishUnit_withReg hd _)⟩
  have hlaw := subv_law xs ys false hl
  rw [hn, Bool.toNat_false] at hlaw
  zify at hlaw
  linarith

/-- Settles O7, by the value law of the multiply-accumulate chain; the overlap test decides between the two cases. -/
theorem macvAccumulatesProduct : Obligations.MacvAccumulatesProduct := by
  intro nW zv x y s zs xs yw hz hx hy
  obtain ⟨hn, hl⟩ := State.vec_two_length hz hx
  have hreads : exec (.macv nW zv x y) s = finishUnit (if macvOverlap nW zv x then .refused .operandOverlap
      else .done ((s.putVdst zv (macv zs xs yw 0).1).setCw (macv zs xs yw 0).2)) :=
    (finishUnit_withVec_two hz hx _).trans (congrArg finishUnit (withWord_some hy _))
  refine ⟨⟨_, rfl⟩, fun hov => ⟨(macv zs xs yw 0).1, (macv zs xs yw 0).2, ?_, ?_, ?_⟩, fun hov => ?_⟩
  · exact (macv_length zs xs yw 0 hl).trans hn
  · exact hn ▸ macv_law zs xs yw 0 hl
  · rw [hreads, hov]
    rfl
  · rw [hreads, hov]
    rfl

/-- Settles O8: the most significant differing word decides the order of the values. -/
theorem cmpvComparesValues : Obligations.CmpvComparesValues := by
  intro nW x y s xs ys hx hy
  rw [← cmpv_law xs ys (State.vec_two_length hx hy).2]
  exact ⟨⟨_, rfl⟩, finishUnit_withVec_two hx hy _⟩

/-- Settles O9, by the remainder law; the zero test of the divisor decides between the two cases. -/
theorem remvComputesRemainder : Obligations.RemvComputesRemainder := by
  intro nW x m d s xs ms hx hm hd
  have hreads : exec (.remv nW x m d) s
      = finishUnit (if iszerov ms then .fatal .panic s else .done (s.putReg d (remv xs ms))) :=
    (finishUnit_withVec_two hx hm _).trans (finishUnit_withReg hd _)
  refine ⟨⟨_, rfl⟩, fun h0 => ?_, fun h0 => ?_⟩
  · have hpos : 0 < val ms := Nat.pos_of_ne_zero h0
    have hnz : ¬ iszerov ms = true := fun e => h0 ((iszerov_iff ms).1 e)
    exact ⟨_, (remv_length xs ms hpos).trans (State.vec_some hm).2, remv_val xs ms hpos,
      hreads.trans (congrArg finishUnit (if_neg hnz))⟩
  · exact hreads.trans (congrArg finishUnit (if_pos ((iszerov_iff ms).2 h0)))

theorem iszerov_eq_decide (xs : List Word) : iszerov xs = decide (∀ w ∈ xs, w = 0) := by
  rw [Bool.eq_iff_iff, iszerov, List.all_eq_true, decide_eq_true_iff]
  simp only [beq_iff_eq]

/-- Settles O10: the test is word by word. -/
theorem iszerovTestsEveryWord : Obligations.IszerovTestsEveryWord := by
  intro nW x s xs hx
  rw [← iszerov_eq_decide]
  exact ⟨⟨_, rfl⟩, congrArg finishUnit (withVec_some hx _)⟩

end Sys2Proof.Machine
end

