-- ==== Sys2Proof/Proofs/ByteStrings.lean ====
section
/-! PROOFS. FROMBE, TOBE and LEFTPAD (`40_fixed_width_arith.md` R132 to R134): what they write, and where. -/

namespace Sys2Proof.Machine

/-- Settles O11: the length test decides, and the decode law gives the value. -/
theorem frombeDecodesBigEndian : Obligations.FrombeDecodesBigEndian := by
  intro nW b d s bs hn hb
  have hreads := congrArg finishUnit (withBytes_some hb fun v => frombeTo nW v d s)
  refine ⟨⟨_, rfl⟩, fun hl hd => ?_, fun hl => ?_⟩
  · obtain ⟨hlen, hval⟩ := fromBE_law nW bs hl
    exact ⟨_, hlen, hval, hreads.trans (congrArg finishUnit (frombeTo_eq hn hl hd))⟩
  · exact hreads.trans (congrArg finishUnit (if_neg fun h => hl h.2))

/-- Bytes written over a whole slice stand in it, and every byte outside it is as before. -/
theorem State.putBytes_slice {s : State} {l : Slice} (hf : s.fits l = true) {bs : List Byte} (hl : bs.length = l.len) :
    (∀ i, i < l.len → (s.putBytes l.buf l.off bs).mem.byte l.buf (l.off + i) = bs[i]?)
      ∧ SameBytesOutside s (s.putBytes l.buf l.off bs) l := by
  obtain ⟨b, off, len⟩ := l
  obtain rfl : bs.length = len := hl
  exact ⟨fun i hi => State.putBytes_inside s b off i bs hf hi, State.putBytes_outside s b off bs hf⟩

/-- Settles O12, by the encode law and what a write over a slice does. -/
theorem tobeEncodesBigEndian : Obligations.TobeEncodesBigEndian := by
  intro nW x buf off s xs hx hf
  obtain ⟨hlen, hval⟩ := toBE_law xs
  rw [(State.vec_some hx).2] at hlen
  obtain ⟨hin, hout⟩ := State.putBytes_slice hf hlen
  have hexec : exec (.tobe nW x buf off) s = .next (s.putBytes buf off (toBE xs)) :=
    (congrArg finishUnit (withVec_some hx _)).trans (congrArg finishUnit (withSlice_true hf _))
  exact ⟨⟨_, rfl⟩, toBE xs, _, hlen, hval, hexec, rfl, hin, hout⟩

theorem leftpad_length {bs : List Byte} {len : Nat} (h : bs.length ≤ len) : (leftpad bs len).length = len := by
  rw [leftpad, List.length_append, zeros_length, Nat.sub_add_cancel h]

/-- Settles O13: the length test decides, and the padded input is written over the whole slice. -/
theorem leftpadFillsSlice : Obligations.LeftpadFillsSlice := by
  intro b d s bs hb hf
  have hreads := congrArg finishUnit (withBytes_some hb fun v => leftpadTo v d s)
  refine ⟨⟨_, rfl⟩, fun hle => ?_, fun hlt => hreads.trans (congrArg finishUnit (if_pos hlt))⟩
  obtain ⟨hin, hout⟩ := State.putBytes_slice hf (leftpad_length hle)
  have hwrite : leftpadTo bs d s = .done (s.putBytes d.buf d.off (leftpad bs d.len)) :=
    (if_neg hle.not_gt).trans (withSlice_true hf _)
  exact ⟨_, hreads.trans (congrArg finishUnit hwrite), rfl, hin, hout⟩

end Sys2Proof.Machine
end

