-- ==== Sys2Proof/Proofs/Montgomery.lean ====
section
/-! PROOFS. The Montgomery unit (`41_montgomery.md`): N0INV, MONTMUL, MONTFIX and RRCALC, which calls each refuses, and
the value law of those it runs. -/

namespace Sys2Proof.Machine

/-! Parity, and the word that belongs to a modulus. -/

theorem getLsbD_zero_eq (w : Word) : w.getLsbD 0 = decide (w.toNat % 2 = 1) := by
  simp [BitVec.getLsbD, Nat.testBit_zero]

theorem oddModulus_eq (m : List Word) : oddModulus m = decide (val m % 2 = 1) := by
  rw [oddModulus, getLsbD_zero_eq, val_mod_two]

/-- The equation of R161 and R160 for `K0`, on words and on integers. -/
theorem mul_add_one_eq_zero_iff (k m : Word) : k * m + 1 = 0 ↔ (k.toNat * m.toNat + 1) % 2 ^ 32 = 0 := by
  simp [← BitVec.toNat_inj, BitVec.toNat_add, BitVec.toNat_mul]

/-- Two words that answer N0INV's equation are equal: each is the other times `-m` times itself. -/
theorem n0inv_unique {k k' m : Word} (h : k * m + 1 = 0) (h' : k' * m + 1 = 0) : k' = k := by
  linear_combination k' * h - k * h'

/-- Only an odd modulus has a `K0`. -/
theorem odd_of_mul_add_one {k m : Nat} (h : (k * m + 1) % 2 ^ 32 = 0) : m % 2 = 1 := by
  have hprod : k * m % 2 = 1 := by omega
  exact Nat.odd_iff.1 (Nat.odd_mul.1 (Nat.odd_iff.2 hprod)).2

/-- Settles O17: the bit test decides between the two cases, and the value law of the five rounds gives the inverse. -/
theorem n0invInvertsOddWord : Obligations.N0invInvertsOddWord := by
  intro m0 s m hm
  have hreads : exec (.n0inv m0) s = finishUnit (if m.getLsbD 0 then .done { s with w := { s.w with k0 := n0inv m } }
      else .refused .evenWord) := congrArg finishUnit (withWord_some hm _)
  rw [hreads, getLsbD_zero_eq]
  refine ⟨⟨_, rfl⟩, fun hodd => ?_, fun heven => ?_⟩
  · have hinv : n0inv m * m + 1 = 0 := n0inv_law m (by rw [getLsbD_zero_eq, decide_eq_true hodd])
    refine ⟨n0inv m, (mul_add_one_eq_zero_iff _ m).1 hinv, fun k' hk' => ?_, ?_⟩
    · exact n0inv_unique hinv ((mul_add_one_eq_zero_iff k' m).2 hk')
    · rw [if_pos (decide_eq_true hodd)]
      rfl
  · rw [if_neg (by simp [heven])]
    rfl

/-! MONTMUL: the checks. -/

section
variable {nW : Nat} {x y m : VSrc} {kSrc : WSrc} {d : VReg} {s : State} {xs ys ms : List Word} {k : Word}
  (hx : s.vec nW x = some xs) (hy : s.vec nW y = some ys) (hm : s.vec nW m = some ms)
  (hk : s.word kSrc = some k) (hd : (s.w.get d).length = nW) (ha : s.w.acc.length = 2 * nW)
include hx hy hm hk hd ha

/-- The checks of MONTMUL that are left once its operands and registers are there (R160, R166, R382). -/
theorem exec_montmul_eq : exec (.montmul nW x y m kSrc d) s = finishUnit (
    if montmulOverlap d x || montmulOverlap d y || montmulOverlap d m then .refused .operandOverlap
    else if !oddModulus ms then .refused .evenModulus
    else if k * ms.getD 0 0 + 1 ≠ 0 then .refused .foreignK0
    else .done ((s.afterMont (montRun nW xs ys ms k)).putReg d (montmul nW xs ys ms k))) := by
  simp only [exec, execMontmul, montmul, withVec_some hx, withVec_some hy, withVec_some hm, withWord_some hk,
    withReg_eq hd, withAcc_eq ha]

/-- MONTMUL without aliasing and with the `K0` of its modulus, which is then odd, completes. -/
theorem exec_montmul_next (hdx : montmulOverlap d x = false) (hdy : montmulOverlap d y = false)
    (hdm : montmulOverlap d m = false) (hk0 : (k.toNat * (ms.getD 0 0).toNat + 1) % 2 ^ 32 = 0) :
    exec (.montmul nW x y m kSrc d) s
      = .next ((s.afterMont (montRun nW xs ys ms k)).putReg d (montmul nW xs ys ms k)) := by
  have hodd : val ms % 2 = 1 := (val_mod_two ms).trans (odd_of_mul_add_one hk0)
  rw [exec_montmul_eq hx hy hm hk hd ha, if_neg (by simp [hdx, hdy, hdm]), if_neg (by simp [oddModulus_eq, hodd]),
    if_neg (not_not.2 ((mul_add_one_eq_zero_iff _ _).2 hk0))]
  rfl

end

/-- Settles O19: the three checks in order, and the widths of what is left when all pass. -/
theorem montmulCompletesOrIsRefused : Obligations.MontmulCompletesOrIsRefused := by
  intro nW x y m kSrc d s xs ys ms k hx hy hm hk hd ha
  have hreads := exec_montmul_eq hx hy hm hk hd ha
  refine ⟨fun hov => ?_, fun hdx hdy hdm => ⟨fun heven => ?_, fun hodd hk0 => ?_, fun _ hk0 => ?_⟩⟩
  · rw [hreads, if_pos (by simpa [or_assoc] using hov)]
    rfl
  · rw [hreads, if_neg (by simp [hdx, hdy, hdm]), if_pos (by simp [oddModulus_eq, heven])]
    rfl
  · rw [hreads, if_neg (by simp [hdx, hdy, hdm]), if_neg (by simp [oddModulus_eq, hodd]),
      if_pos ((mul_add_one_eq_zero_iff _ _).not.2 hk0)]
    rfl
  · obtain ⟨hn, hxl⟩ := State.vec_some hx
    have hyl := (State.vec_some hy).2
    have hml := (State.vec_some hm).2
    exact ⟨_, _, (montRun_law nW xs ys ms k hn hxl hyl hml).1, montResult_length nW xs ys ms k hn hxl hyl hml,
      exec_montmul_next hx hy hm hk hd ha hdx hdy hdm hk0⟩

/-! MONTMUL: the value law (R163). -/

/-- The bound of R163: a factor below `A` and the other below `R` give a quotient below `A + M`. -/
theorem lt_add_of_mul_eq {A M R q X Y V : Nat} (hX : X < A) (hY : Y < R) (hq : q < R) (h : V * R = X * Y + q * M) :
    V < A + M := by
  refine Nat.lt_of_mul_lt_mul_right (a := R) ?_
  calc V * R = X * Y + q * M := h
    _ < A * R + R * M := Nat.add_lt_add_of_lt_of_le (Nat.mul_lt_mul'' hX hY) (Nat.mul_le_mul_right M hq.le)
    _ = (A + M) * R := by ring

/-- A vector whose low words have the value 0 has zeros there. -/
theorem getElem?_of_val_take {v : List Word} {n i : Nat} (hn : n ≤ v.length) (h : val (v.take n) = 0) (hi : i < n) :
    v[i]? = some 0 := by
  have hzero : v.take n = zeroVec n := val_inj (by simpa using hn) (by rw [h, val_zeroVec])
  rw [← List.getElem?_take_of_lt hi, hzero, zeroVec, List.getElem?_replicate_of_lt hi]

/-- The final subtraction of MONTMUL takes `M` off `V` exactly when `C` is 1 (R162, R163). -/
theorem montResult_val {n : Nat} {m : List Word} {st : MontState} (hl : (st.acc.drop n).length = n) (hm : m.length = n)
    (hV : st.c.toNat * radix n + val (st.acc.drop n) < radix n + val m) :
    val (montResult n m st) + st.c.toNat * val m = st.c.toNat * radix n + val (st.acc.drop n) := by
  have hlen := subv_length (st.acc.drop n) m false (hl.trans hm.symm)
  have hlt := val_lt_radix (subv (st.acc.drop n) m false).1
  have hsub := subv_law (st.acc.drop n) m false (hl.trans hm.symm)
  rw [hlen, hl] at hlt
  rw [hl, Bool.toNat_false] at hsub
  unfold montResult
  cases hc : st.c with
  | false => simp
  | true =>
    rw [hc, Bool.toNat_true] at hV
    rw [if_pos rfl, Bool.toNat_true]
    cases hb : (subv (st.acc.drop n) m false).2 with
    | false => rw [hb, Bool.toNat_false] at hsub; omega
    | true => rw [hb, Bool.toNat_true] at hsub; omega

/-- Settles O18: the value law of the rounds bounds `V`, so that one subtraction, taken when `C` is 1, is enough. -/
theorem montmulValueLaw : Obligations.MontmulValueLaw := by
  intro nW x y m kSrc d s xs ys ms k hx hy hm hk hk0 hd ha hdx hdy hdm
  obtain ⟨hn, hxl⟩ := State.vec_some hx
  have hyl := (State.vec_some hy).2
  have hml := (State.vec_some hm).2
  have hkw : k * ms.getD 0 0 + 1 = 0 := (mul_add_one_eq_zero_iff _ _).2 hk0
  obtain ⟨hacc, hlaw⟩ := montRun_law nW xs ys ms k hn hxl hyl hml
  obtain ⟨hlow, q, hq, hV⟩ := hlaw hkw
  obtain ⟨hrl, hcong, -⟩ := montmul_law nW xs ys ms k hn hxl hyl hml hkw
  have hX : val xs < radix nW := hxl ▸ val_lt_radix xs
  have hY : val ys < radix nW := hyl ▸ val_lt_radix ys
  have hlt := lt_add_of_mul_eq hX hY hq hV
  have hres := montResult_val (by rw [List.length_drop, hacc]; omega) hml hlt
  refine ⟨montRun nW xs ys ms k, montmul nW xs ys ms k, q, _, hacc,
    fun i hi => getElem?_of_val_take (by omega) hlow hi, rfl, hV, hq, hlt, fun hsmall => ?_, hrl, ?_, hcong,
    (val_lt_radix _).trans_eq (congrArg radix hrl), exec_montmul_next hx hy hm hk hd ha hdx hdy hdm hk0⟩
  · rw [Nat.two_mul]
    rcases hsmall with hxm | hym
    · exact lt_add_of_mul_eq hxm hY hq hV
    · exact lt_add_of_mul_eq hym hX hq (Nat.mul_comm (val xs) _ ▸ hV)
  · rw [← hres, montmul]
    cases (montRun nW xs ys ms k).c with
    | false => simp
    | true => simp

/-! MONTFIX and RRCALC. -/

/-- `M` as MONTFIX reads it again, after its first subtraction has left `z1` in its register (R73; log 21). -/
def rereadModulus (zv : VReg) (m : VSrc) (ms z1 : List Word) : List Word := if m = .reg zv then z1 else ms

theorem rereadModulus_of_ne {zv : VReg} {m : VSrc} (h : m ≠ .reg zv) (ms : List Word) :
    rereadModulus zv m ms = fun _ => ms := funext fun _ => if_neg h

theorem rereadModulus_self (zv : VReg) (ms : List Word) : rereadModulus zv (.reg zv) ms = fun z1 => z1 :=
  funext fun _ => if_pos rfl

/-- The parity and zero tests of MONTFIX, on the value (R160, R127; log 17). -/
theorem even_and_nonzero_iff (ms : List Word) :
    (!oddModulus ms && !iszerov ms) = true ↔ val ms % 2 = 0 ∧ val ms ≠ 0 := by
  simp [oddModulus_eq, Bool.eq_false_iff, iszerov_iff]

section
variable {nW : Nat} {zv : VReg} {m : VSrc} {s : State} {zs ms : List Word}
  (hz : s.vec nW (.reg zv) = some zs) (hm : s.vec nW m = some ms)
include hz hm

/-- MONTFIX refuses an even modulus that is not zero; any other call takes what its subtractions leave, or the
Fatal(Panic) of its remainder (R164, R127). -/
theorem exec_montfix_eq : exec (.montfix nW zv m) s = finishUnit (
    if !oddModulus ms && !iszerov ms then .refused .evenModulus
    else (montfixWith (rereadModulus zv m ms) zs ms).elim (.fatal .panic s)
      fun r => .done ((s.putReg zv r).spendOrd)) := by
  simp only [exec, execMontfix, withVec_some hz, withVec_some hm]
  unfold rereadModulus
  generalize montfixWith _ zs ms = result
  cases result <;> rfl

/-- A zero modulus, and a modulus that is the register itself, leave no divisor for the remainder (R73, R127). -/
theorem montfixWith_eq_none (h : val ms = 0 ∨ m = .reg zv) : montfixWith (rereadModulus zv m ms) zs ms = none := by
  by_cases hself : m = .reg zv
  · subst hself
    obtain rfl : zs = ms := Option.some.inj (hz.symm.trans hm)
    rw [rereadModulus_self, montfix_self]
  · rw [rereadModulus_of_ne hself]
    exact montfix_zero zs ms (State.vec_two_length hz hm).2 (h.resolve_right hself)

end

/-- Settles O20: the parity and zero tests decide whether it runs, the register it reads `M` from whether it divides. -/
theorem montfixReducesModulo : Obligations.MontfixReducesModulo := by
  intro nW zv m s zs ms hz hm
  obtain ⟨hzl, hl⟩ := State.vec_two_length hz hm
  rw [exec_montfix_eq hz hm]
  refine ⟨⟨_, rfl⟩, fun hodd hne => ?_, fun heven h0 => ?_, fun h => ?_⟩
  · obtain ⟨r, hr, hrl, hval⟩ := montfix_law zs ms hl (by omega)
    refine ⟨r, hrl.trans (hl.symm.trans hzl), hval, ?_⟩
    rw [if_neg ((even_and_nonzero_iff ms).not.2 (by omega)), rereadModulus_of_ne hne, ← montfix, hr]
    rfl
  · rw [if_pos ((even_and_nonzero_iff ms).2 ⟨heven, h0⟩)]
    rfl
  · rw [if_neg ((even_and_nonzero_iff ms).not.2 (by omega)), montfixWith_eq_none hz hm (h.imp_right And.right)]
    rfl

/-- Settles O21, by the law of the doublings; the zero test of the modulus decides between the two cases. -/
theorem rrcalcComputesSquareOfRadix : Obligations.RrcalcComputesSquareOfRadix := by
  intro nW m s ms hm hr
  have hreads : exec (.rrcalc nW m) s
      = finishUnit (if iszerov ms then .fatal .panic s else .done ((s.putReg .rr (rrcalc nW ms)).spendCyOrd)) :=
    (congrArg finishUnit (withVec_some hm _)).trans (finishUnit_withReg (d := .rr) hr _)
  obtain ⟨-, hl⟩ := State.vec_some hm
  refine ⟨⟨_, rfl⟩, fun h0 => ?_, fun h0 => ?_⟩
  · obtain ⟨hlen, hval⟩ := rrcalc_law ms (Nat.pos_of_ne_zero h0)
    rw [hl] at hlen hval
    have hnz : ¬ iszerov ms = true := (iszerov_iff ms).not.2 h0
    exact ⟨_, hlen, hval, hreads.trans (congrArg finishUnit (if_neg hnz))⟩
  · exact hreads.trans (congrArg finishUnit (if_pos ((iszerov_iff ms).2 h0)))

end Sys2Proof.Machine
end

