-- ==== Sys2Proof/Proofs/Modexp.lean ====
section
/-! PROOFS. MODEXP (`42_modexp.md`): the three ways a call on operands of `nW` words ends (R191 to R193), its value law
(R198), its table (R194) and its multiplication count (R199). -/

namespace Sys2Proof.Machine

/-! The three ways, on operand values. -/

section
variable {n : Nat} {base exp m : List Word} {s : State} (hr : s.w.wf n = true)
include hr

theorem modexp_zero (he : val exp = 0) : modexp n base exp m s = .done ((s.putReg .res (oneVec n)).spendZexp) :=
  (withRegs_true hr _).trans (if_pos ((iszerov_iff exp).2 he))

theorem modexp_even (he : val exp ≠ 0) (hm : val m % 2 = 0) :
    modexp n base exp m s = .fatal .unsupportedModulus s := by
  have hnz : ¬ iszerov exp = true := (iszerov_iff exp).not.2 he
  have heven : oddModulus m = false := by rw [oddModulus_eq, hm]; rfl
  exact (withRegs_true hr _).trans ((if_neg hnz).trans (if_pos heven))

/-- With an odd modulus MODEXP runs its list of steps, and the result is the power (R198). -/
theorem modexp_odd (hn : 1 ≤ n) (hbl : base.length = n) (hel : exp.length = n) (hml : m.length = n)
    (he : val exp ≠ 0) (hm : val m % 2 = 1) :
    ∃ res, res.length = n ∧ val res = val base ^ val exp % val m
      ∧ modexp n base exp m s = .done (s.afterModexp (modexpRun n base exp m s.w) res) := by
  obtain ⟨res, hfix, hlen, hval⟩ := modexp_result n base exp m s.w hn hbl hel hml hm
  have hnz : ¬ iszerov exp = true := (iszerov_iff exp).not.2 he
  have hodd : ¬ oddModulus m = false := by rw [oddModulus_eq, hm]; decide
  refine ⟨res, hlen, hval, (withRegs_true hr _).trans ((if_neg hnz).trans ((if_neg hodd).trans ?_))⟩
  simp only [hfix]

end

/-- Everything MODEXP can do, where it gives a next state (R191, R192, R193). -/
theorem modexp_next {n : Nat} {base exp m : List Word} {s t : State} (hn : 1 ≤ n) (hbl : base.length = n)
    (hel : exp.length = n) (hml : m.length = n) (h : finishUnit (modexp n base exp m s) = .next t) :
    (val exp = 0 ∧ t = (s.putReg .res (oneVec n)).spendZexp)
      ∨ (val exp ≠ 0 ∧ val m % 2 = 0 ∧ t = s.raiseFatal .unsupportedModulus)
      ∨ (val exp ≠ 0 ∧ val m % 2 = 1 ∧ ∃ res, t = s.afterModexp (modexpRun n base exp m s.w) res) := by
  cases hr : s.w.wf n with
  | false => rw [modexp, withRegs_false hr] at h; cases h
  | true =>
    by_cases he : val exp = 0
    · rw [modexp_zero hr he] at h
      cases h
      exact .inl ⟨he, rfl⟩
    rcases Nat.mod_two_eq_zero_or_one (val m) with hm | hm
    · rw [modexp_even hr he hm] at h
      cases h
      exact .inr (.inl ⟨he, hm, rfl⟩)
    · obtain ⟨res, -, -, hdone⟩ := modexp_odd hr hn hbl hel hml he hm
      rw [hdone] at h
      cases h
      exact .inr (.inr ⟨he, hm, res, rfl⟩)

/-! The call. -/

/-- MODEXP goes on to write registers exactly where the exponent is not zero and the modulus odd (R191, R192). -/
theorem modexpEnters_iff (exp m : List Word) : modexpEnters exp m = true ↔ val exp ≠ 0 ∧ val m % 2 = 1 := by
  simp [modexpEnters, oddModulus_eq, Bool.eq_false_iff, iszerov_iff]

section
variable {nW : Nat} {b e m : VSrc} {s : State} {bs es ms : List Word}
  (hb : s.vec nW b = some bs) (he : s.vec nW e = some es) (hm : s.vec nW m = some ms)
include hb he hm

/-- Once its operands are there, MODEXP refuses an overlap that it comes to, and otherwise runs (R190, R193;
log 19). -/
theorem exec_modexp_eq : exec (.modexp nW b e m) s = finishUnit (
    if modexpEnters es ms && (modexpBaseOverlap b || modexpReadOnlyOverlap e || modexpReadOnlyOverlap m) then
      .refused .operandOverlap
    else modexp nW bs es ms s) := by
  simp only [exec, execModexp, withVec_some hb, withVec_some he, withVec_some hm]

/-- A call that the first two tests end runs with every operand form. -/
theorem exec_modexp_of_not_enters (h : ¬(val es ≠ 0 ∧ val ms % 2 = 1)) :
    exec (.modexp nW b e m) s = finishUnit (modexp nW bs es ms s) := by
  have hstop : modexpEnters es ms = false := Bool.eq_false_iff.2 ((modexpEnters_iff es ms).not.2 h)
  rw [exec_modexp_eq hb he hm, hstop, Bool.false_and, if_neg Bool.false_ne_true]

/-- A call that gives a next state was not refused for an overlap. -/
theorem exec_modexp_next {t : State} (h : exec (.modexp nW b e m) s = .next t) :
    finishUnit (modexp nW bs es ms s) = .next t := by
  rw [exec_modexp_eq hb he hm] at h
  split at h
  · cases h
  · exact h

/-- A call with an odd modulus and an exponent that is not zero, where it gives a next state, ran the list of steps. -/
theorem exec_modexp_ran {t : State} (h0 : val es ≠ 0) (hodd : val ms % 2 = 1)
    (h : exec (.modexp nW b e m) s = .next t) : ∃ res, t = s.afterModexp (modexpRun nW bs es ms s.w) res := by
  obtain ⟨hn, hbl⟩ := State.vec_some hb
  rcases modexp_next hn hbl (State.vec_some he).2 (State.vec_some hm).2 (exec_modexp_next hb he hm h) with
    ⟨hz, -⟩ | ⟨-, heven, -⟩ | ⟨-, -, hran⟩
  · exact absurd hz h0
  · omega
  · exact hran

end

/-- Settles O22: the overlap test decides whether it runs, and the loop's invariant gives the power. -/
theorem modexpComputesPower : Obligations.ModexpComputesPower := by
  intro nW b e m s bs es ms hb he hm h0 hodd
  have henters : modexpEnters es ms = true := (modexpEnters_iff es ms).2 ⟨h0, hodd⟩
  rw [exec_modexp_eq hb he hm, henters, Bool.true_and]
  refine ⟨fun hr hbo heo hmo => ?_, fun hov => ?_⟩
  · obtain ⟨hn, hbl⟩ := State.vec_some hb
    obtain ⟨res, hlen, hval, hdone⟩ :=
      modexp_odd hr hn hbl (State.vec_some he).2 (State.vec_some hm).2 h0 hodd
    refine ⟨modexpRun nW bs es ms s.w, res, hlen, hval, ?_⟩
    rw [if_neg (by simp [hbo, heo, hmo]), hdone]
    rfl
  · rw [if_pos (by simpa [or_assoc] using hov)]
    rfl

/-- The end of MODEXP writes no entry of its table (R193 lines 25 and 26). -/
theorem State.afterModexp_get_tbl (s : State) (w : WRegs) (res : List Word) (k : Fin 16) :
    (s.afterModexp w res).w.get (.tbl k) = w.get (.tbl k) := rfl

/-- Settles O23: the steps after the table keep it, and `afterModexp` writes no entry. -/
theorem modexpTableHoldsPowers : Obligations.ModexpTableHoldsPowers := by
  intro nW b e m s t bs es ms hb he hm h0 hodd h k
  obtain ⟨hn, hbl⟩ := State.vec_some hb
  obtain ⟨res, rfl⟩ := exec_modexp_ran hb he hm h0 hodd h
  obtain ⟨htable, -⟩ := modexpRun_law nW bs es ms s.w hn hbl (State.vec_some he).2 (State.vec_some hm).2 hodd
  obtain ⟨hlen, hcong⟩ := htable.table k
  rw [State.afterModexp_get_tbl]
  exact ⟨hlen, hcong, (val_lt_radix _).trans_eq (congrArg radix hlen)⟩

/-- Settles O24: the zero test comes first. -/
theorem modexpZeroExponentAnswersOne : Obligations.ModexpZeroExponentAnswersOne := by
  intro nW b e m s bs es ms hb he hm hr h0
  refine ⟨oneVec nW, length_oneVec nW, val_oneVec (State.vec_some hb).1, ?_⟩
  rw [exec_modexp_of_not_enters hb he hm (fun h => h.1 h0), modexp_zero hr h0]
  rfl

/-- Settles O25: the parity test comes before anything is written. -/
theorem modexpEvenModulusIsFatal : Obligations.ModexpEvenModulusIsFatal := by
  intro nW b e m s bs es ms hb he hm hr h0 hbit
  have heven : val ms % 2 = 0 := by
    rw [getLsbD_zero_eq, decide_eq_false_iff_not, ← val_mod_two] at hbit
    omega
  rw [exec_modexp_of_not_enters hb he hm (by omega), modexp_even hr h0 heven]
  rfl

/-- Settles O26: the list of steps is a function of the exponent, and its MONTMULs count 16 for the table, 1 and 5 per
further nibble for the window, and 1 to leave the domain. -/
theorem modexpMultiplicationCountIsUniform : Obligations.ModexpMultiplicationCountIsUniform := by
  intro nW b e m s t bs es ms hb he hm h0 hodd h
  obtain ⟨hn, hel⟩ := State.vec_some he
  obtain ⟨res, rfl⟩ := exec_modexp_ran hb he hm h0 hodd h
  exact ⟨hel ▸ mulCount_modexp es (hel.symm ▸ hn), modexpRun nW bs es ms s.w, res, rfl, rfl⟩

end Sys2Proof.Machine
end

