-- ==== Sys2Proof/Proofs/VectorFrames.lean ====
section
/-! PROOFS. The frame of the operations on vectors (`10_state.md` R28, `40_fixed_width_arith.md`, `41_montgomery.md`,
`42_modexp.md` R193): each writes its destination and the condition outputs of its rule, and nothing else. -/

namespace Sys2Proof.Machine

/-! An operation that completes has found its operands and its registers. -/

section
variable {s t : State} {n : Nat}

theorem withVec_next {x : VSrc} {k : List Word → UResult} (h : finishUnit (withVec s n x k) = .next t) :
    ∃ v, s.vec n x = some v ∧ finishUnit (k v) = .next t := by
  cases hx : s.vec n x with
  | none => rw [withVec_none hx] at h; cases h
  | some v => exact ⟨v, rfl, withVec_some hx k ▸ h⟩

theorem withReg_next {d : VReg} {k : UResult} (h : finishUnit (withReg s n d k) = .next t) :
    finishUnit k = .next t := by
  unfold withReg at h
  split at h
  · exact h
  · cases h

theorem withAcc_next {k : UResult} (h : finishUnit (withAcc s n k) = .next t) : finishUnit k = .next t := by
  unfold withAcc at h
  split at h
  · exact h
  · cases h

theorem withBytes_next {b : BSrc} {k : List Byte → UResult} (h : finishUnit (withBytes s b k) = .next t) :
    ∃ v, finishUnit (k v) = .next t := by
  unfold withBytes at h
  split at h
  · exact ⟨_, h⟩
  · cases h

theorem frombeTo_next {bs : List Byte} {d : VReg} (h : finishUnit (frombeTo n bs d s) = .next t) :
    t = s.putReg d (fromBE bs) := by
  unfold frombeTo at h
  split at h
  · cases withReg_next h
    rfl
  · cases h

/-- A test that can only refuse the call has let it pass. -/
theorem next_of_refusal {p : Prop} [Decidable p] {r : Refusal} {k : UResult}
    (h : finishUnit (if p then .refused r else k) = .next t) : finishUnit k = .next t := by
  split at h
  · cases h
  · exact h

/-- An engine that is still live has taken no Fatal (R338, R339). -/
theorem State.not_live_raiseFatal (s : State) (c : FatalCause) : ¬(s.raiseFatal c).live := by simp [State.live]

theorem not_live_of_fatal {c : FatalCause} (h : finishUnit (.fatal c s) = .next t) : ¬t.live := by
  cases h
  exact State.not_live_raiseFatal s c

/-- A test that can only raise a Fatal has let a live engine pass. -/
theorem next_of_live {p : Prop} [Decidable p] {c : FatalCause} {k : UResult}
    (h : finishUnit (if p then .fatal c s else k) = .next t) (hl : t.live) : finishUnit k = .next t := by
  split at h
  · exact absurd hl (not_live_of_fatal h)
  · exact h

end

/-! What a write of registers and flags leaves. -/

/-- Registers, flags and the model's own tick are all that such an operation writes. -/
theorem regs_frame {s t : State} (h : t = { s with w := t.w, fl := t.fl, tick := t.tick }) :
    SameControl s t ∧ SameUnits s t ∧ SameBytes s t := by
  rw [h]
  exact ⟨⟨rfl, rfl, rfl, rfl, rfl, rfl, rfl, rfl, rfl, rfl⟩, ⟨rfl, rfl, rfl, rfl, rfl⟩, fun _ _ => rfl⟩

theorem sameRegsBut_put {s t : State} {d : VReg} {v : List Word} (h : t.w = s.w.put d v) : SameRegsBut s t d := by
  unfold SameRegsBut
  rw [h]
  exact ⟨fun r hr => WRegs.get_put_ne s.w v hr, WRegs.put_acc s.w d v, WRegs.put_k0 s.w d v, WRegs.put_cw s.w d v,
    WRegs.put_t s.w d v⟩

/-- An operation that writes one vector register, flags and the tick. -/
theorem put_frame {s t : State} (d : VReg) (v : List Word) (f : Flags) (k : Nat)
    (h : t = { s with w := s.w.put d v, fl := f, tick := k }) :
    SameControl s t ∧ SameUnits s t ∧ SameBytes s t ∧ SameRegsBut s t d := by
  subst h
  obtain ⟨hc, hu, hb⟩ := regs_frame (s := s) (t := { s with w := s.w.put d v, fl := f, tick := k }) rfl
  exact ⟨hc, hu, hb, sameRegsBut_put rfl⟩

/-- The accumulator window of MACV lies in `ACC` where it has `n` words. -/
theorem State.vec_acc_le {s : State} {n off : Nat} {zs : List Word} (h : s.vec n (.acc off) = some zs) :
    off + n ≤ s.w.acc.length := by
  have hn := (State.vec_some h).1
  unfold State.vec at h
  split at h
  next hc =>
    have hl : (window s.w.acc off n).length = n := hc.2
    rw [window, List.length_take, List.length_drop] at hl
    omega
  next => cases h

/-- Writing the accumulator of MACV and `CW` changes that vector and `CW`, and no other word (R125). -/
theorem putVdst_frame {s : State} {n : Nat} {zv : VDst} {zs v : List Word} (hz : s.vec n (vdstSrc zv) = some zs)
    (hv : v.length = n) (c : Word) :
    (∀ r, zv ≠ .reg r → ((s.putVdst zv v).setCw c).w.get r = s.w.get r)
      ∧ ∀ i, (∀ off, zv = .acc off → i < off ∨ off + n ≤ i) →
        ((s.putVdst zv v).setCw c).w.acc[i]? = s.w.acc[i]? := by
  cases zv with
  | reg d =>
    refine ⟨fun r hr => ?_, fun i _ => congrArg (·[i]?) (WRegs.put_acc s.w d v)⟩
    have hne : r ≠ d := fun e => hr (by rw [e])
    exact (WRegs.get_scratch (s.w.put d v) _ _ c _ r).trans (WRegs.get_put_ne s.w v hne)
  | acc off =>
    refine ⟨fun r _ => WRegs.get_scratch s.w _ _ c _ r, fun i hi => ?_⟩
    have hle := State.vec_acc_le hz
    exact splice_outside s.w.acc v off i (.inr (hv ▸ hle)) (hv ▸ hi off rfl)

/-! The registers MODEXP writes. -/

/-- The register a step of MODEXP writes. -/
def ModexpStep.dest : ModexpStep → VReg
  | .mul d _ _ => d
  | .copy d _ => d

theorem modexpStep_get_ne (n : Nat) (base m : List Word) (w : WRegs) {a : ModexpStep} {r : VReg} (h : r ≠ a.dest) :
    (modexpStep n base m w a).get r = w.get r := by
  cases a with
  | mul d x y => exact (WRegs.get_put_ne _ _ h).trans (WRegs.get_scratch w _ w.k0 _ _ r)
  | copy d q => exact WRegs.get_put_ne _ _ h

theorem modexpSteps_get_ne (n : Nat) (base m : List Word) {r : VReg} (l : List ModexpStep) (w : WRegs)
    (h : ∀ a ∈ l, r ≠ a.dest) : (l.foldl (modexpStep n base m) w).get r = w.get r := by
  induction l generalizing w with
  | nil => rfl
  | cons a l ih =>
    rw [List.forall_mem_cons] at h
    exact (ih _ h.2).trans (modexpStep_get_ne n base m w h.1)

theorem base_ne_dest_window (first : Bool) (l : List (Fin 16)) : ∀ a ∈ windowSteps first l, VReg.base ≠ a.dest := by
  induction l generalizing first with
  | nil => exact List.forall_mem_nil _
  | cons nib l ih =>
    rw [windowSteps, List.forall_mem_append]
    refine ⟨?_, ih false⟩
    cases first <;> simp [nibbleSteps, squareSteps, ModexpStep.dest]

/-- `BASE` is the destination of no step (R193). -/
theorem base_ne_dest (exp : List Word) : ∀ a ∈ modexpSteps exp, VReg.base ≠ a.dest := by
  rw [modexpSteps, List.forall_mem_append, List.forall_mem_cons, List.forall_mem_append]
  refine ⟨?_, ?_, base_ne_dest_window true _, ?_⟩ <;> simp [tableSteps, tblReg, ModexpStep.dest]

theorem modexpRun_base (n : Nat) (base exp m : List Word) (w : WRegs) : (modexpRun n base exp m w).base = w.base :=
  modexpSteps_get_ne n base m (r := .base) (modexpSteps exp) (modexpInit n m w) (base_ne_dest exp)

/-- What MODEXP keeps where it raises no Fatal (R193). -/
theorem exec_modexp_frame {nW : Nat} {b e m : VSrc} {s t : State} (h : exec (.modexp nW b e m) s = .next t)
    (hl : t.live) :
    SameControl s t ∧ SameBytes s t ∧ t.sha = s.sha ∧ t.ctr = s.ctr ∧ t.w.base = s.w.base
      ∧ t.fl = { s.fl with cy := t.fl.cy, c := t.fl.c, zexp := t.fl.zexp, ord := t.fl.ord } := by
  obtain ⟨bs, hb, h1⟩ := withVec_next h
  obtain ⟨es, he, h2⟩ := withVec_next h1
  obtain ⟨ms, hm, -⟩ := withVec_next h2
  obtain ⟨hn, hbl⟩ := State.vec_some hb
  rcases modexp_next hn hbl (State.vec_some he).2 (State.vec_some hm).2 (exec_modexp_next hb he hm h) with
    ⟨-, rfl⟩ | ⟨-, -, rfl⟩ | ⟨-, -, res, rfl⟩
  · obtain ⟨hc, -, hbytes⟩ := regs_frame (s := s) (t := (s.putReg .res (oneVec nW)).spendZexp) rfl
    exact ⟨hc, hbytes, rfl, rfl, rfl, rfl⟩
  · exact absurd hl (State.not_live_raiseFatal s _)
  · have hbase := modexpRun_base nW bs es ms s.w
    generalize modexpRun nW bs es ms s.w = w at hbase
    exact ⟨⟨rfl, rfl, rfl, rfl, rfl, rfl, rfl, rfl, rfl, rfl⟩, fun _ _ => rfl, rfl, rfl, hbase, rfl⟩

/-- What MONTMUL keeps: every vector register but its result, and `K0` (R162). -/
theorem afterMont_put_frame (s : State) (st : MontState) (d : VReg) (v : List Word) :
    let t := (s.afterMont st).putReg d v
    SameControl s t ∧ SameUnits s t ∧ SameBytes s t ∧ t.fl = { s.fl with c := t.fl.c } ∧ t.w.k0 = s.w.k0
      ∧ ∀ r, r ≠ d → t.w.get r = s.w.get r := by
  obtain ⟨hc, hu, hb⟩ := regs_frame (s := s) (t := (s.afterMont st).putReg d v) rfl
  exact ⟨hc, hu, hb, rfl, WRegs.put_k0 _ d v,
    fun r hr => (WRegs.get_put_ne _ v hr).trans (WRegs.get_scratch s.w _ s.w.k0 _ _ r)⟩

/-- What MACV leaves (R125). -/
theorem putVdst_setCw_frame (s : State) (zv : VDst) (v : List Word) (c : Word) :
    let t := (s.putVdst zv v).setCw c
    SameControl s t ∧ SameUnits s t ∧ SameBytes s t ∧ t.fl = s.fl ∧ t.w.k0 = s.w.k0 ∧ t.w.t = s.w.t := by
  obtain ⟨hc, hu, hb⟩ := regs_frame (s := s) (t := (s.putVdst zv v).setCw c) (by cases zv <;> rfl)
  cases zv with
  | reg d => exact ⟨hc, hu, hb, rfl, WRegs.put_k0 s.w d v, WRegs.put_t s.w d v⟩
  | acc off => exact ⟨hc, hu, hb, rfl, rfl, rfl⟩

/-- Settles O16: each operation that completes has written its own destination and condition outputs. -/
theorem vectorOpsKeepEverythingElse : Obligations.VectorOpsKeepEverythingElse := by
  intro nW s t
  refine ⟨?addv, ?subv, ?macv, ?cmpv, ?remv, ?iszerov, ?frombe, ?n0inv, ?montmul, ?montfix, ?rrcalc,
    fun b e m => exec_modexp_frame⟩
  case addv =>
    intro x y d h
    obtain ⟨xs, -, h⟩ := withVec_next h
    obtain ⟨ys, -, h⟩ := withVec_next h
    cases withReg_next h
    obtain ⟨hc, hu, hb, hr⟩ := put_frame (s := s) d _ _ _ rfl
    exact ⟨hc, hu, hb, hr, rfl⟩
  case subv =>
    intro x y d h
    obtain ⟨xs, -, h⟩ := withVec_next h
    obtain ⟨ys, -, h⟩ := withVec_next h
    cases withReg_next h
    obtain ⟨hc, hu, hb, hr⟩ := put_frame (s := s) d _ _ _ rfl
    exact ⟨hc, hu, hb, hr, rfl⟩
  case macv =>
    intro zv x y h
    obtain ⟨zs, hz, h⟩ := withVec_next h
    obtain ⟨xs, hx, h⟩ := withVec_next h
    obtain ⟨yw, -, h⟩ := withWord_next h
    cases next_of_refusal h
    obtain ⟨hn, hlen⟩ := State.vec_two_length hz hx
    obtain ⟨hc, hu, hb, hf, hk, ht⟩ := putVdst_setCw_frame s zv (macv zs xs yw 0).1 (macv zs xs yw 0).2
    exact ⟨hc, hu, hb, hf, hk, ht, putVdst_frame hz ((macv_length zs xs yw 0 hlen).trans hn) _⟩
  case cmpv =>
    intro x y h
    obtain ⟨xs, -, h⟩ := withVec_next h
    obtain ⟨ys, -, h⟩ := withVec_next h
    cases h
    obtain ⟨hc, hu, hb⟩ := regs_frame (s := s) (t := s.setOrd (cmpv xs ys)) rfl
    exact ⟨hc, hu, hb, rfl, rfl⟩
  case remv =>
    intro x m d h hl
    obtain ⟨xs, -, h⟩ := withVec_next h
    obtain ⟨ms, -, h⟩ := withVec_next h
    cases next_of_live (withReg_next h) hl
    obtain ⟨hc, hu, hb, hr⟩ := put_frame (s := s) d (remv xs ms) _ _ rfl
    exact ⟨hc, hu, hb, hr, rfl⟩
  case iszerov =>
    intro x h
    obtain ⟨xs, -, h⟩ := withVec_next h
    cases h
    obtain ⟨hc, hu, hb⟩ := regs_frame (s := s) (t := s.setZexp (iszerov xs)) rfl
    exact ⟨hc, hu, hb, rfl, rfl⟩
  case frombe =>
    intro b d h
    obtain ⟨bs, h⟩ := withBytes_next h
    cases frombeTo_next h
    obtain ⟨hc, hu, hb, hr⟩ := put_frame (s := s) d (fromBE bs) _ _ rfl
    exact ⟨hc, hu, hb, hr, rfl⟩
  case n0inv =>
    intro m0 h
    obtain ⟨w, -, h⟩ := withWord_next h
    split at h
    · cases h
      obtain ⟨hc, hu, hb⟩ := regs_frame (s := s) (t := { s with w := { s.w with k0 := n0inv w } }) rfl
      exact ⟨hc, hu, hb, rfl, rfl⟩
    · cases h
  case montmul =>
    intro x y m k d h
    obtain ⟨xs, -, h⟩ := withVec_next h
    obtain ⟨ys, -, h⟩ := withVec_next h
    obtain ⟨ms, -, h⟩ := withVec_next h
    obtain ⟨kw, -, h⟩ := withWord_next h
    cases next_of_refusal (next_of_refusal (next_of_refusal (withAcc_next (withReg_next h))))
    exact afterMont_put_frame s _ d _
  case montfix =>
    intro zv m h hl
    obtain ⟨zs, hz, h'⟩ := withVec_next h
    obtain ⟨ms, hm, -⟩ := withVec_next h'
    rw [exec_montfix_eq hz hm] at h
    replace h := next_of_refusal h
    cases hfix : montfixWith (rereadModulus zv m ms) zs ms with
    | none => rw [hfix] at h; exact absurd hl (not_live_of_fatal h)
    | some r =>
      rw [hfix] at h
      cases h
      obtain ⟨hc, hu, hb, hr⟩ := put_frame (s := s) zv r _ _ rfl
      exact ⟨hc, hu, hb, hr, rfl⟩
  case rrcalc =>
    intro m h hl
    obtain ⟨ms, -, h⟩ := withVec_next h
    cases next_of_live (withReg_next h) hl
    obtain ⟨hc, hu, hb, hr⟩ := put_frame (s := s) .rr (rrcalc nW ms) _ _ rfl
    exact ⟨hc, hu, hb, hr, rfl⟩

end Sys2Proof.Machine
end

