-- ==== Sys2Proof/Proofs/EvenModulus.lean ====
section
/-! PROOFS. The service and the commands with an even `KEY_N` (`42_modexp.md` R191, `60_exceptions.md` R338): the MODEXP
they come to raises Fatal(UnsupportedModulus), and the response is never begun. -/

namespace Sys2Proof.Machine

/-- The engine answers with the entry of R338 for UnsupportedModulus, and has sent nothing. -/
def HaltsUnsupported (s : State) (o : Out) : Prop :=
  ∃ t, o = .next t ∧ t.halt = true ∧ t.cause = 0x13 ∧ t.seq = .diag ∧ t.txq = s.txq

section
variable {s : State} {u : UResult} (hu : ∃ v, u = .fatal .unsupportedModulus v) (hk : u.Post (Kept s))
include hu hk

theorem haltsUnsupported_finishUnit : HaltsUnsupported s (finishUnit u) := by
  obtain ⟨v, rfl⟩ := hu
  exact ⟨_, rfl, rfl, rfl, rfl, hk.txq⟩

theorem haltsUnsupported_finishCommand (q : Seq) : HaltsUnsupported s (finishCommand q u) := by
  obtain ⟨v, rfl⟩ := hu
  exact ⟨_, rfl, rfl, rfl, rfl, hk.txq⟩

end

/-- FROMBE of 512 bytes to `BASE`, and the registers it leaves (R132). -/
theorem frombeTo_base {s : State} {bs : List Byte} (hr : s.w.wf 128 = true) (hl : bs.length = 512) :
    frombeTo Config.numWords bs .base s = .done (s.putReg .base (fromBE bs))
      ∧ (s.putReg .base (fromBE bs)).w.wf 128 = true :=
  ⟨frombeTo_eq (by decide) hl (((WRegs.wf_iff _ _).1 hr).1 .base), WRegs.wf_put .base hr (fromBE_law 128 bs hl).1⟩

/-- PSSENC of the engine's own digest and salt completes (R253). -/
theorem pssenc_done {s : State} (hw : s.mem.wf = true) :
    ∃ t, pssenc s.mem.digest s.mem.salt Config.emBits s = .done t ∧ Kept s t := by
  have hsize := (Memory.wf_iff _).1 hw
  have hd : s.mem.digest.length = 32 := hsize .digest
  have hs : s.mem.salt.length = 32 := hsize .salt
  have hcheck : pssCheck s.mem.digest s.mem.salt Config.emBits = none := by simp [pssCheck, hd, hs, emLen_emBits]
  have hfit : s.fits ⟨.em, 0, emLen Config.emBits⟩ = true := State.fits_of_wf s hw .em 0 512 (by decide)
  have hpost := pssenc_post s.mem.digest s.mem.salt Config.emBits s
  simp only [pssenc, hcheck, withSlice_true hfit] at hpost ⊢
  exact ⟨_, rfl, hpost⟩

/-- A MODEXP of the service with an even modulus ends the operation it is a part of (R191, R338). -/
theorem modexp_bind_even {s : State} {x : KeyReg} (hr : s.w.wf 128 = true) (hx : val (keyVec s.key x) ≠ 0)
    (hn : val (keyVec s.key .n) % 2 = 0) (k : State → UResult) :
    (modexp Config.numWords s.w.base (keyVec s.key x) (keyVec s.key .n) s).bind k = .fatal .unsupportedModulus s :=
  congrArg (UResult.bind · k) (modexp_even hr hx hn)

section
variable {s : State} (hw : s.mem.wf = true) (hr : s.w.wf 128 = true) (hn : val s.key.n.toList % 2 = 0)
include hw hr hn

/-- SIGNOP comes to its MODEXP with the encoding in `BASE` (R281). -/
theorem signop_even (hd : val s.key.d.toList ≠ 0) : ∃ u, signop s = .fatal .unsupportedModulus u := by
  obtain ⟨s1, hdone, hk⟩ := pssenc_done hw
  have hem : s1.mem.em.length = 512 := (Memory.wf_iff _).1 (hk.mem hw) .em
  obtain ⟨hfrom, hr2⟩ := frombeTo_base (hk.widths.wf hr) hem
  rw [← hk.key] at hd hn
  refine ⟨s1.putReg .base (fromBE s1.mem.em), ?_⟩
  rw [signop, hdone, UResult.bind, hfrom, UResult.bind]
  exact modexp_bind_even hr2 (x := .d) hd hn _

/-- VERIFYOP comes to its MODEXP where the signature is below the modulus (R286). -/
theorem verifyop_even (he : val s.key.e.toList ≠ 0) (hlt : be s.mem.sigbuf < val s.key.n.toList) :
    ∃ u, verifyop s = .fatal .unsupportedModulus u := by
  have hsig : s.mem.sigbuf.length = 512 := (Memory.wf_iff _).1 hw .sigbuf
  obtain ⟨hfrom, hr2⟩ := frombeTo_base hr hsig
  obtain ⟨hlen, hval⟩ := fromBE_law 128 s.mem.sigbuf hsig
  have hbelow : (cmpv (fromBE s.mem.sigbuf) (keyVec s.key .n) != .lt) = false := by
    rw [cmpv_ne_lt _ _ (hlen.trans (keyVec_length _ _).symm), hval]
    exact decide_eq_false (Nat.not_le.2 hlt)
  refine ⟨(s.putReg .base (fromBE s.mem.sigbuf)).spendOrd, ?_⟩
  rw [verifyop, hfrom, UResult.bind]
  refine (if_neg (ne_true_of_eq_false hbelow)).trans ?_
  exact modexp_bind_even (s := (s.putReg .base (fromBE s.mem.sigbuf)).spendOrd) hr2 (x := .e) he hn _

end

/-- SIGN runs SIGNOP on the digest of its payload and a new salt (R307). -/
theorem exec_sign_eq {dg : List Byte} (hdg : dg.length = 32) (s : State) :
    exec (.sign dg) s
      = finishCommand (.txp .sign 0) (signop (saltgen { s with mem := { s.mem with digest := dg } })) := if_pos hdg

/-- VERIFY runs VERIFYOP on the digest and the signature of its payload (R308). -/
theorem exec_verify_eq {dg sg : List Byte} (hdg : dg.length = 32) (hsg : sg.length = 512) (s : State) :
    exec (.verify dg sg) s = finishCommand (.txp .verify 0)
      (verifyop { s with mem := { s.mem with digest := dg, sigbuf := sg } }) := if_pos ⟨hdg, hsg⟩

/-- Settles O37: each of the four comes to a MODEXP with the even `KEY_N`. -/
theorem evenKeyModulusHaltsEngine : Obligations.EvenKeyModulusHaltsEngine := by
  intro s hw hr hn
  refine ⟨fun hd => ⟨?_, fun dg hdg => ?_⟩, fun he => ⟨fun hlt => ?_, fun dg sg hdg hsg hlt => ?_⟩⟩
  · exact haltsUnsupported_finishUnit (signop_even hw hr hn hd) (signop_post s)
  · have hwd : { s.mem with digest := dg }.wf = true := Memory.wf_put s.mem .digest dg hw hdg
    have hws := (saltgen_kept { s with mem := { s.mem with digest := dg } }).mem hwd
    rw [exec_sign_eq hdg]
    exact haltsUnsupported_finishCommand (signop_even hws hr hn hd) (signop_post _) _
  · exact haltsUnsupported_finishUnit (verifyop_even hw hr hn he hlt) (verifyop_post s)
  · have hws : { s.mem with digest := dg, sigbuf := sg }.wf = true :=
      Memory.wf_put _ .sigbuf sg (Memory.wf_put s.mem .digest dg hw hdg) hsg
    rw [exec_verify_eq hdg hsg]
    exact haltsUnsupported_finishCommand
      (verifyop_even (s := { s with mem := { s.mem with digest := dg, sigbuf := sg } }) hws hr hn he hlt)
      (verifyop_post _) _

end Sys2Proof.Machine
end

