-- ==== Sys2Proof/Proofs/Sha256.lean ====
section
/-! PROOFS. SHA256 (`43_sha256.md` R220 to R224): the padded message and its blocks, and the published values. -/

namespace Sys2Proof.Machine

/-- SHA256 reads its message and completes with the hash of it (R222). -/
theorem exec_sha256_eq {s : State} {msg : BSrc} {bs : List Byte} (h : s.bytes msg = some bs) :
    exec (.sha256 msg) s = .next (s.hashed bs) :=
  congrArg finishUnit (withBytes_some h fun v => .done (s.hashed v))

theorem shaPadLen_lt (l : Nat) : shaPadLen l < 64 := Nat.mod_lt _ (by decide)

theorem shaLen64_length (msg : List Byte) : (shaLen64 msg).length = 8 := by simp [shaLen64]

/-- The two words of the length field are the halves of the 64-bit count (R223, log 39). -/
theorem be_shaLen64 (msg : List Byte) : be (shaLen64 msg) = 8 * msg.length % 2 ^ 64 := by
  have hbits : (shaBits msg).toNat = 8 * msg.length % 2 ^ 64 := BitVec.toNat_ofNat ..
  rw [shaLen64, be_append, be_wordBytes, be_wordBytes, wordBytes_length, BitVec.extractLsb'_toNat,
    BitVec.extractLsb'_toNat, Nat.shiftRight_eq_div_pow, Nat.shiftRight_eq_div_pow, hbits]
  omega

/-- The blocks are the padded message, cut without a rest (R222, R223). -/
theorem messageBlocks_flatten (msg : List Byte) : (messageBlocks msg).flatten = shaPad msg := by
  have h := shaPad_length msg
  exact shaBlocks_flatten _ _ (by omega)

/-- Settles O27: the blocks are those of the padded message, and the hash is the fold over them. -/
theorem sha256HashesPaddedBlocks : Obligations.Sha256HashesPaddedBlocks := by
  intro msg s bs hb
  exact ⟨s.hashed bs, shaPadLen bs.length, shaLen64 bs, messageBlocks bs, exec_sha256_eq hb, shaPadLen_lt _,
    shaLen64_length bs, be_shaLen64 bs, messageBlocks_flatten bs, messageBlocks_mem bs, rfl, shaChain_length bs, rfl,
    sha256_length bs, rfl⟩

/-- Settles O28: a literal's bytes are the same in every state, so `HOUT` is a closed value; the kernel computes it. -/
theorem sha256PublishedValues : Obligations.Sha256PublishedValues := by
  intro s
  refine ⟨⟨_, exec_sha256_eq rfl, ?empty⟩, ⟨_, exec_sha256_eq rfl, ?abc⟩⟩
  case empty =>
    show sha256 [] = _
    decide +kernel
  case abc =>
    show sha256 [0x61, 0x62, 0x63] = _
    decide +kernel

end Sys2Proof.Machine
end

