-- ==== Sys2Proof/Proofs/Mgf1.lean ====
section
/-! PROOFS. MGF1XOR (`44_mgf1.md` R240 to R243): what it leaves in each buffer, and that it undoes itself where no hash
overwrites its slice. -/

namespace Sys2Proof.Machine

/-! The call. -/

/-- No buffer is long enough to overflow the counter (R242). -/
theorem mgfOverflows_of_fits {s : State} {l : Slice} (hw : s.mem.wf = true) (hf : s.fits l = true) :
    mgfOverflows l.len = false := by
  have hsize : l.buf.size ≤ 512 := by cases l.buf <;> decide
  rw [State.fits_iff, (Memory.wf_iff _).1 hw] at hf
  exact decide_eq_false (by omega)

/-- MGF1XOR of a slice inside its buffer reads its seed and runs its loop (R241). -/
theorem exec_mgf1xor_eq {s : State} {l : Slice} {seed : BSrc} {sd : List Byte} (ho : mgfOverflows l.len = false)
    (hf : s.fits l = true) (hb : s.bytes seed = some sd) : exec (.mgf1xor l seed) s = .next (mgfLoop l sd s) := by
  have hrun : mgf1xor l sd s = .done (mgfLoop l sd s) := if_neg (ne_true_of_eq_false ho)
  have hread := withBytes_some hb fun v => mgf1xor l v s
  exact congrArg finishUnit ((withSlice_true hf _).trans (hread.trans hrun))

/-- MGF1XOR that answers a next state has found its slice inside the buffer (R68). -/
theorem fits_of_exec_mgf1xor {s t : State} {l : Slice} {seed : BSrc} (h : exec (.mgf1xor l seed) s = .next t) :
    s.fits l = true := by
  by_contra hf
  have hrefused : exec (.mgf1xor l seed) s = .refused .outsideStorage := congrArg finishUnit (if_neg hf)
  cases hrefused.symm.trans h

/-! The whole loop. -/

/-- The loop of an empty slice does nothing but clear `CTR`. -/
theorem mgfLoop_empty {l : Slice} (h : l.len = 0) (sd : List Byte) (s : State) :
    mgfLoop l sd s = { s with ctr := 0 } := by
  rw [mgfLoop, h]
  rfl

/-- The loop writes nothing but buffers, the SHA unit and `CTR`. -/
theorem mgfLoop_frame (l : Slice) (sd : List Byte) (s : State) :
    mgfLoop l sd s
      = { s with mem := (mgfLoop l sd s).mem, sha := (mgfLoop l sd s).sha, ctr := (mgfLoop l sd s).ctr } := by
  obtain ⟨m, h, c, e⟩ := mgfRounds_frame l sd (List.range (mgfHashes l.len)) { s with ctr := 0 }
  rw [mgfLoop, e]

/-- `CTR` holds the number of the last block, 0 where there is none (R241). -/
theorem mgfLoop_ctr (l : Slice) (sd : List Byte) (s : State) :
    (mgfLoop l sd s).ctr = BitVec.ofNat 32 (mgfHashes l.len - 1) := by
  unfold mgfLoop
  cases mgfHashes l.len with
  | zero => rfl
  | succ k =>
    rw [List.range_succ, List.foldl_append]
    rfl

theorem mgfLoop_ctr_toNat {l : Slice} (ho : mgfOverflows l.len = false) (sd : List Byte) (s : State) :
    (mgfLoop l sd s).ctr.toNat = mgfHashes l.len - 1 := by
  have hlen := of_decide_eq_false ho
  rw [mgfLoop_ctr, BitVec.toNat_ofNat]
  exact Nat.mod_eq_of_lt (by unfold mgfHashes; omega)

/-! Masked bytes. -/

theorem zipWith_xor_getElem? {xs ys : List Byte} {i : Nat} (hx : i < xs.length) (hy : i < ys.length) :
    ∃ b k, xs[i]? = some b ∧ ys[i]? = some k ∧ (List.zipWith (· ^^^ ·) xs ys)[i]? = some (b ^^^ k) := by
  refine ⟨xs[i], ys[i], List.getElem?_eq_getElem hx, List.getElem?_eq_getElem hy, ?_⟩
  rw [List.getElem?_zipWith, List.getElem?_eq_getElem hx, List.getElem?_eq_getElem hy]

/-- Byte `q` of a run of the inner loop (R241). -/
theorem xorRun_getElem? {xs ks : List Byte} {off n q : Nat} (hx : off + n ≤ xs.length) (hk : n ≤ ks.length)
    (hq : q < n) :
    ∃ b k, xs[off + q]? = some b ∧ ks[q]? = some k ∧ (xorRun xs ks off n)[q]? = some (b ^^^ k) := by
  obtain ⟨b, k, hb, hk', h⟩ := zipWith_xor_getElem? (xs := window xs off n) (ys := ks.take n) (i := q)
    (by rwa [window_length _ _ _ hx]) (by rw [List.length_take]; omega)
  rw [window_getElem? _ _ _ _ hq] at hb
  rw [List.getElem?_take_of_lt hq] at hk'
  exact ⟨b, k, hb, hk', h⟩

/-! A slice of a buffer that no hash writes. -/

section
variable {s : State} {l : Slice} (h1 : l.buf ≠ .hout) (h2 : l.buf ≠ .hblk) (hf : s.fits l = true) (sd : List Byte)
include h1 h2 hf

/-- The masked window stands in the slice, and every other byte is what the hashes leave. -/
theorem mgfLoop_slice :
    (∀ p, p < l.len →
      (mgfLoop l sd s).mem.byte l.buf (l.off + p) = (mgfXor (window (s.mem.get l.buf) l.off l.len) sd)[p]?)
      ∧ SameBytesOutside (s.afterMgf sd l.len) (mgfLoop l sd s) l := by
  by_cases h0 : l.len = 0
  · refine ⟨fun p hp => absurd hp (by omega), fun b i _ => ?_⟩
    rw [mgfLoop_empty h0, State.afterMgf, h0]
    rfl
  have hroom := ((State.fits_iff s l).1 hf).resolve_left h0
  have hf' : (s.afterMgf sd l.len).fits l = true := by
    rw [State.fits_iff, State.afterMgf_get _ _ _ _ h1 h2]
    exact .inr hroom
  rw [mgfLoop_eq l h1 h2 sd s hf]
  exact State.putBytes_slice hf' (by rw [mgfXor_length, window_length _ _ _ hroom])

/-- Byte `p` of the slice is XORed with byte `p mod 32` of block `p div 32` (R241). -/
theorem mgfLoop_byte {p : Nat} (hp : p < l.len) :
    ∃ b k, s.mem.byte l.buf (l.off + p) = some b ∧ (mgfBlock sd (p / 32))[p % 32]? = some k
      ∧ (mgfLoop l sd s).mem.byte l.buf (l.off + p) = some (b ^^^ k) := by
  have hroom := ((State.fits_iff s l).1 hf).resolve_left (by omega)
  have hlen := window_length _ _ _ hroom
  obtain ⟨b, k, hb, hk, h⟩ := zipWith_xor_getElem? (xs := window (s.mem.get l.buf) l.off l.len)
    (ys := mgfMask sd (window (s.mem.get l.buf) l.off l.len).length) (i := p) (by rwa [hlen])
    (by rwa [mgfMask_length, hlen])
  rw [window_getElem? _ _ _ _ hp] at hb
  rw [mgfMask_getElem? _ _ _ (by rwa [hlen])] at hk
  exact ⟨b, k, hb, hk, ((mgfLoop_slice h1 h2 hf sd).1 p hp).trans h⟩

end

/-! A slice of `HOUT` or `HBLK`. -/

section
variable {s : State} {off len : Nat} (h0 : 0 < len) (sd : List Byte)
include h0

/-- In `HOUT` the hash's bytes stand outside the slice, and inside it each is masked by the byte that then stands at `p`
(R73, R241). -/
theorem mgfLoop_hout_byte (hf : off + len ≤ 32) :
    let t := mgfLoop ⟨.hout, off, len⟩ sd s
    (∀ i, i < off ∨ off + len ≤ i → t.mem.byte .hout i = (mgfBlock sd 0)[i]?)
      ∧ ∀ p, p < len → ∃ b k, (mgfBlock sd 0)[off + p]? = some b
        ∧ (if off = 0 then mgfBlock sd 0 else t.mem.hout)[p]? = some k
        ∧ t.mem.byte .hout (off + p) = some (b ^^^ k) := by
  obtain ⟨f, e, hl, hout, hin⟩ := mgfLoop_hout off len h0 hf sd s
  have hget {xs : List Byte} (hx : xs.length = 32) {i : Nat} (hi : i < 32) : xs[i]? = some (xs.getD i 0) := by
    rw [List.getElem?_eq_getElem (hx.symm ▸ hi), List.getD_eq_getElem _ _ (hx.symm ▸ hi)]
  have hblock := mgfBlock_length sd 0
  have hk : (if off = 0 then mgfBlock sd 0 else f).length = 32 := by split <;> assumption
  intro t
  have hmem : t.mem.hout = f := congrArg (fun u : State => u.mem.hout) e
  have hbyte (i : Nat) : t.mem.byte .hout i = f[i]? := congrArg (·[i]?) hmem
  refine ⟨fun i hi => (hbyte i).trans (hout i hi), fun p hp => ?_⟩
  refine ⟨_, (if off = 0 then mgfBlock sd 0 else f).getD p 0, hget hblock (by omega), ?_, ?_⟩
  · rw [hmem]
    exact hget hk (by omega)
  · rw [hbyte, hget hl (by omega), hin p hp]

/-- In `HBLK` the last block stands, with the bytes of the last round masked (R241, log 29). -/
theorem mgfLoop_hblk_byte (hf : off + len ≤ 64) {c : Nat} (hc : c = mgfHashes len - 1) {msg : List Byte}
    (hmsg : msg = sd ++ be4 (BitVec.ofNat 32 c)) :
    let t := mgfLoop ⟨.hblk, off, len⟩ sd s
    (∀ i, i < off + 32 * c ∨ off + len ≤ i → t.mem.byte .hblk i = (lastBlock msg)[i]?)
      ∧ ∀ p, 32 * c ≤ p → p < len → ∃ b k, (lastBlock msg)[off + p]? = some b
        ∧ (sha256 msg)[p - 32 * c]? = some k ∧ t.mem.byte .hblk (off + p) = some (b ^^^ k) := by
  have hround : 32 * c < len ∧ len ≤ 32 * c + 32 := by unfold mgfHashes at hc; omega
  have e := mgfLoop_hblk off len h0 hf sd s
  simp only [← hc, mgfBlock, ← hmsg] at e
  have hblk : (s.afterMgf sd len).mem.get .hblk = lastBlock msg := by
    rw [State.afterMgf, if_neg h0.ne', ← hc, hmsg]
    rfl
  have hlast := lastBlock_length msg
  have hhash := sha256_length msg
  have hroom : off + 32 * c + (len - 32 * c) ≤ (lastBlock msg).length := by omega
  obtain ⟨hin, hout⟩ := State.putBytes_slice (s := s.afterMgf sd len) (l := ⟨.hblk, off + 32 * c, len - 32 * c⟩)
    ((State.fits_iff _ _).2 (.inr (by rw [hblk]; exact hroom)))
    (xorRun_length (lastBlock msg) (sha256 msg) (off + 32 * c) (len - 32 * c) hroom (by omega))
  intro t
  rw [← e] at hin hout
  refine ⟨fun i hi => (hout .hblk i (by simp only; omega)).trans (congrArg (·[i]?) hblk), fun p hc' hp => ?_⟩
  obtain ⟨b, k, hb, hk, h⟩ := xorRun_getElem? (q := p - 32 * c) hroom (by omega : _ ≤ (sha256 msg).length) (by omega)
  have hp' : off + 32 * c + (p - 32 * c) = off + p := by omega
  have hin := hin (p - 32 * c) (by simp only; omega)
  rw [hp'] at hb hin
  exact ⟨b, k, hb, hk, hin.trans h⟩

end

/-! The other buffers. -/

/-- A round writes no buffer but the slice's own, `HOUT` and `HBLK`. -/
theorem mgfRound_get_ne {l : Slice} {b : Buf} (hb : b ≠ l.buf) (h1 : b ≠ .hout) (h2 : b ≠ .hblk) (sd : List Byte)
    (s : State) (c : Nat) : (mgfRound l sd s c).mem.get b = s.mem.get b :=
  List.foldlRecOn (motive := fun m : Memory => m.get b = s.mem.get b) _ _
    (State.hashed_get { s with ctr := BitVec.ofNat 32 c } _ b h1 h2)
    fun m hm _ _ => (Memory.get_put_ne m _ hb).trans hm

/-- Outside the slice nothing changes but `HOUT` and `HBLK` (R241). -/
theorem mgfLoop_outside {s : State} {l : Slice} (hf : s.fits l = true) (sd : List Byte) :
    SameBytesOutsideHash s (mgfLoop l sd s) l := by
  intro b i h1 h2 hi
  by_cases hb : b = l.buf
  · have hslice := (mgfLoop_slice (hb ▸ h1) (hb ▸ h2) hf sd).2 b i hi
    exact hslice.trans (congrArg (·[i]?) (State.afterMgf_get s sd l.len b h1 h2))
  · have hget : (mgfLoop l sd s).mem.get b = s.mem.get b :=
      List.foldlRecOn (motive := fun t : State => t.mem.get b = s.mem.get b) _ _ rfl
        fun t ht c _ => (mgfRound_get_ne hb h1 h2 sd t c).trans ht
    exact congrArg (·[i]?) hget

/-- Settles O29: the loop's bytes in each kind of buffer, and what it leaves alone. -/
theorem mgf1xorMasksEachByte : Obligations.Mgf1xorMasksEachByte := by
  intro l seed s sd hw hf hb
  have ho := mgfOverflows_of_fits hw hf
  have hroom := (State.fits_iff s l).1 hf
  rw [(Memory.wf_iff _).1 hw] at hroom
  refine ⟨⟨_, rfl⟩, _, exec_mgf1xor_eq ho hf hb, ?other, ?hout, ?hblk, mgfLoop_outside hf sd, fun h0 b i => ?empty,
    mgfLoop_ctr_toNat ho sd s, mgfLoop_frame l sd s⟩
  case other => exact fun h1 h2 p hp => mgfLoop_byte h1 h2 hf sd hp
  case hout =>
    obtain ⟨b, off, len⟩ := l
    rintro rfl h0 h rfl
    exact mgfLoop_hout_byte h0 sd (hroom.resolve_left h0.ne')
  case hblk =>
    obtain ⟨b, off, len⟩ := l
    rintro rfl h0 c msg hc hmsg
    exact mgfLoop_hblk_byte h0 sd (hroom.resolve_left h0.ne') hc hmsg
  case empty => rw [mgfLoop_empty h0]

/-- Settles O30: both calls XOR a byte of the slice with the same byte of the mask. -/
theorem mgf1xorTwiceRestores : Obligations.Mgf1xorTwiceRestores := by
  intro l sd s t u hw h1 h2 hst htu p hp
  have hs := fits_of_exec_mgf1xor hst
  have ht := fits_of_exec_mgf1xor htu
  have ho := mgfOverflows_of_fits hw hs
  cases (exec_mgf1xor_eq ho hs rfl).symm.trans hst
  cases (exec_mgf1xor_eq ho ht rfl).symm.trans htu
  obtain ⟨b, k, hb, hk, hfirst⟩ := mgfLoop_byte h1 h2 hs sd hp
  obtain ⟨b', k', hb', hk', hsecond⟩ := mgfLoop_byte h1 h2 ht sd hp
  obtain rfl := Option.some.inj (hfirst.symm.trans hb')
  obtain rfl := Option.some.inj (hk.symm.trans hk')
  rw [hsecond, hb, BitVec.xor_assoc, BitVec.xor_self, BitVec.xor_zero]

end Sys2Proof.Machine
end

