-- ==== Sys2Proof/Proofs/Pss.lean ====
section
/-! PROOFS. PSSENC and PSSVFY (`45_pss.md` R253, R262): the checks in their order, the bytes of the encoding, and what
the verifier accepts. -/

namespace Sys2Proof.Machine

theorem withSlice_false {s : State} {l : Slice} (h : s.fits l = false) (k : UResult) :
    withSlice s l k = .refused .outsideStorage := if_neg (ne_true_of_eq_false h)

/-! PSSENC: the checks (R253 steps 1 and 2). -/

theorem pssCheck_digestLength {h : List Byte} (hl : h.length ≠ 32) (salt : List Byte) (emBits : Nat) :
    pssCheck h salt emBits = some .digestLength := if_pos hl

theorem pssCheck_saltTooLong {h salt : List Byte} {emBits : Nat} (hl : h.length = 32)
    (hs : emLen emBits < salt.length + 32 + 2) : pssCheck h salt emBits = some .saltTooLong :=
  (if_neg (not_not.2 hl)).trans (if_pos hs)

theorem pssCheck_none {h salt : List Byte} {emBits : Nat} (hl : h.length = 32)
    (hs : salt.length + 32 + 2 ≤ emLen emBits) : pssCheck h salt emBits = none :=
  (if_neg (not_not.2 hl)).trans (if_neg hs.not_gt)

/-- What PSSENC leaves where the checks pass and the encoding fits `EM` (R253 steps 3 to 7). -/
def State.pssEncoded (s : State) (h salt : List Byte) (emBits : Nat) : State :=
  let msg := pssMessage h salt
  ((s.hashed msg).afterMgf (sha256 msg) (emLen emBits - 32 - 1)).putBytes .em 0 (pssEncode h salt emBits)

section
variable {s : State} {hSrc tSrc : BSrc} {h salt : List Byte} {emBits : Nat} (hh : s.bytes hSrc = some h)
  (ht : s.bytes tSrc = some salt)
include hh ht

/-- PSSENC reads its two strings. -/
theorem exec_pssenc_eq : exec (.pssenc hSrc tSrc emBits) s = finishUnit (pssenc h salt emBits s) :=
  congrArg finishUnit ((withBytes_some hh _).trans (withBytes_some ht _))

/-- A failed check raises its EncodingError before anything is written. -/
theorem exec_pssenc_check {c : EncCause} (hc : pssCheck h salt emBits = some c) :
    exec (.pssenc hSrc tSrc emBits) s = .next (s.raiseEncoding c) := by
  rw [exec_pssenc_eq hh ht, pssenc, hc]
  rfl

/-- Where the checks pass, what is left is whether the encoding fits `EM` (log 23). -/
theorem exec_pssenc_encode (hc : pssCheck h salt emBits = none) :
    exec (.pssenc hSrc tSrc emBits) s
      = finishUnit (withSlice s ⟨.em, 0, emLen emBits⟩ (.done (s.pssEncoded h salt emBits))) := by
  rw [exec_pssenc_eq hh ht, pssenc, hc]
  rfl

end

/-! PSSENC: the bytes of the encoding. -/

theorem clearTop_getElem? {l : List Byte} {p : Nat} {b : Byte} (emBits : Nat) (h : l[p]? = some b) :
    (clearTop emBits l)[p]? = some (b &&& if p = 0 then topMask emBits else 0xFF) := by
  cases l with
  | nil => cases h
  | cons c l =>
    cases p with
    | zero =>
      cases h
      rfl
    | succ p =>
      rw [if_neg p.succ_ne_zero, show (0xFF : Byte) = BitVec.allOnes 8 from rfl, BitVec.and_allOnes]
      exact h

/-- The obligation writes the mask of byte `p` as a number and casts it; it is the same byte. -/
theorem clearMask_eq_natCast (emBits p : Nat) :
    (if p = 0 then topMask emBits else 0xFF : Byte)
      = ((if p = 0 then 0xFF >>> (8 * emLen emBits - emBits) else 0xFF : Nat) : Byte) := by
  split <;> rfl

section
variable {salt : List Byte} {emBits : Nat} (hs : salt.length + 32 + 2 ≤ emLen emBits) (h : List Byte)
include hs

/-- Byte `p` of `maskedDB`: a byte of `DB`, masked by byte `p mod 32` of block `p div 32`, its top bits cleared where it
is the first (R253 steps 4 to 6). -/
theorem pssEncode_maskedDb {p : Nat} (hp : p < emLen emBits - 32 - 1) :
    ∃ db k, (pssDb salt emBits)[p]? = some db
      ∧ (mgfBlock (sha256 (pssMessage h salt)) (p / 32))[p % 32]? = some k
      ∧ (pssEncode h salt emBits)[p]? = some ((db ^^^ k) &&& if p = 0 then topMask emBits else 0xFF) := by
  have hlen := pssDb_length salt emBits hs
  obtain ⟨hmasked, -, -⟩ := encode_parts h salt emBits hs
  obtain ⟨db, k, hdb, hk, hxor⟩ := zipWith_xor_getElem? (xs := pssDb salt emBits)
    (ys := mgfMask (sha256 (pssMessage h salt)) (pssDb salt emBits).length) (i := p) (by rwa [hlen])
    (by rwa [mgfMask_length, hlen])
  rw [mgfMask_getElem? _ _ _ (by rwa [hlen])] at hk
  refine ⟨db, k, hdb, hk, ?_⟩
  rw [← List.getElem?_take_of_lt hp, hmasked]
  exact clearTop_getElem? emBits hxor

/-- `H` stands after `maskedDB` (R253 step 7). -/
theorem pssEncode_hash {j : Nat} (hj : j < 32) :
    (pssEncode h salt emBits)[emLen emBits - 32 - 1 + j]? = (sha256 (pssMessage h salt))[j]? := by
  obtain ⟨-, hhash, -⟩ := encode_parts h salt emBits hs
  rw [← hhash, window_getElem? _ _ _ _ hj]

end

/-! PSSENC: the state it leaves. -/

/-- MGF1XOR and the hashes write nothing but buffers, the SHA unit and `CTR`. -/
theorem State.afterMgf_frame (s : State) (sd : List Byte) (n : Nat) :
    s.afterMgf sd n
      = { s with mem := (s.afterMgf sd n).mem, sha := (s.afterMgf sd n).sha, ctr := (s.afterMgf sd n).ctr } := by
  unfold State.afterMgf
  simp only
  split <;> rfl

theorem State.pssEncoded_frame (s : State) (h salt : List Byte) (emBits : Nat) :
    let t := s.pssEncoded h salt emBits
    t = { s with mem := t.mem, sha := t.sha, ctr := t.ctr } :=
  congrArg (fun u : State => u.putBytes .em 0 (pssEncode h salt emBits)) (State.afterMgf_frame (s.hashed _) _ _)

/-- The encoding stands in `EM[0 .. em_len)`, and outside it only `HOUT` and `HBLK` are written. -/
theorem State.pssEncoded_slice {s : State} {salt : List Byte} {emBits : Nat}
    (hs : salt.length + 32 + 2 ≤ emLen emBits) (hf : s.fits ⟨.em, 0, emLen emBits⟩ = true) (h : List Byte) :
    (∀ i, i < emLen emBits → (s.pssEncoded h salt emBits).mem.byte .em i = (pssEncode h salt emBits)[i]?)
      ∧ SameBytesOutsideHash s (s.pssEncoded h salt emBits) ⟨.em, 0, emLen emBits⟩ := by
  set msg := pssMessage h salt
  set s1 := (s.hashed msg).afterMgf (sha256 msg) (emLen emBits - 32 - 1)
  have hget (b : Buf) (h1 : b ≠ .hout) (h2 : b ≠ .hblk) : s1.mem.get b = s.mem.get b :=
    (State.afterMgf_get _ _ _ b h1 h2).trans (State.hashed_get s msg b h1 h2)
  have hf1 : s1.fits ⟨.em, 0, emLen emBits⟩ = true := by
    rw [State.fits_iff] at hf ⊢
    rwa [hget .em (by decide) (by decide)]
  obtain ⟨hin, hout⟩ := State.putBytes_slice hf1 (pssEncode_length h salt emBits hs)
  refine ⟨fun i hi => ?_, fun b i h1 h2 hi => (hout b i hi).trans (congrArg (·[i]?) (hget b h1 h2))⟩
  have hi := hin i hi
  rwa [Nat.zero_add] at hi

/-- Settles O31: the checks decide among the outcomes, and each part of the encoding has its bytes. -/
theorem pssencBuildsEncoding : Obligations.PssencBuildsEncoding := by
  intro hSrc tSrc emBits s h salt hh ht
  refine ⟨⟨_, rfl⟩, fun hl => ?digestLength, fun hl hs => ?saltTooLong, fun hl hs hf => ?encodes,
    fun hl hs hf => ?refused⟩
  case digestLength => exact exec_pssenc_check hh ht (pssCheck_digestLength hl salt emBits)
  case saltTooLong => exact exec_pssenc_check hh ht (pssCheck_saltTooLong hl hs)
  case refused =>
    rw [exec_pssenc_encode hh ht (pssCheck_none hl hs), withSlice_false hf]
    rfl
  case encodes =>
    obtain ⟨hin, hout⟩ := State.pssEncoded_slice hs hf h
    obtain ⟨-, -, htrailer⟩ := encode_parts h salt emBits hs
    refine ⟨s.pssEncoded h salt emBits, ?_, fun p hp => ?_, fun j hj => ?_, ?_, hout,
      State.pssEncoded_frame s h salt emBits⟩
    · rw [exec_pssenc_encode hh ht (pssCheck_none hl hs), withSlice_true hf]
      rfl
    · rw [hin p (by omega), ← clearMask_eq_natCast]
      exact pssEncode_maskedDb hs h hp
    · rw [hin _ (by omega)]
      exact pssEncode_hash hs h hj
    · rw [hin _ (by omega)]
      exact htrailer

/-! PSSVFY. -/

/-- The sizes R262 tests before it reads a byte of `EM` (steps 1 and 2). -/
theorem pssSizesOk_iff {h : List Byte} {emBits sLen : Nat} :
    pssSizesOk h emBits sLen = true ↔ h.length = 32 ∧ 32 + sLen + 2 ≤ emLen emBits := by
  rw [pssSizesOk, Bool.and_eq_true, beq_iff_eq, decide_eq_true_eq]

/-- PSSVFY reads its digest. -/
theorem exec_pssvfy_eq {s : State} {hSrc : BSrc} {h : List Byte} (hh : s.bytes hSrc = some h) (emBits sLen : Nat) :
    exec (.pssvfy hSrc emBits sLen) s = finishUnit (pssvfy h emBits sLen s) :=
  congrArg finishUnit (withBytes_some hh fun v => pssvfy v emBits sLen s)

/-- Settles O32: the sizes decide first, and the checker of R262 is the inverse of the encoder of R253. -/
theorem pssvfyAcceptsExactlyEncodings : Obligations.PssvfyAcceptsExactlyEncodings := by
  intro hSrc emBits sLen s h hh
  rw [exec_pssvfy_eq hh]
  refine ⟨fun hbad => ?sizes, fun hl hs hf => ?answers, fun hl hs hf => ?refused⟩
  case sizes =>
    have hsz : pssSizesOk h emBits sLen = false := by
      rw [← Bool.not_eq_true, pssSizesOk_iff]
      omega
    rw [pssvfy, hsz]
    rfl
  case refused =>
    rw [pssvfy, pssSizesOk_iff.2 ⟨hl, hs⟩, withSlice_false hf]
    rfl
  case answers =>
    obtain ⟨t, hrun, hvalid, -, hframe, hout, -⟩ := pssvfy_law h emBits sLen s fun _ => hf
    have hroom : emLen emBits ≤ s.mem.em.length := by
      have hfit := ((State.fits_iff _ _).1 hf).resolve_left (by simp only; omega)
      rwa [Nat.zero_add] at hfit
    refine ⟨t, congrArg finishUnit hrun, ?_, hframe, hout⟩
    rw [hvalid]
    exact pssAccepts_iff h _ emBits sLen hl hs (List.length_take_of_le hroom)

end Sys2Proof.Machine
end

