-- ==== Sys2Proof/Proofs/SignService.lean ====
section
/-! PROOFS. The signing service (`46_sign_service.md` R281 to R287): the salt, the signature, its check, and that
the check accepts what was signed. -/

namespace Sys2Proof.Machine

/-! The salt (R283). -/

theorem State.nextSalt_fixed {s : State} {b : Vector Byte 32} (h : s.par.saltSource = some b) :
    s.nextSalt = b.toList := by
  rw [State.nextSalt, h]

theorem State.nextSalt_drawn {s : State} (h : s.par.saltSource = none) : s.nextSalt = s.drawn := by
  rw [State.nextSalt, h]

/-- Byte `i` of the answer of ENTROPY is the draw's own byte `i` (R283, log 7). -/
theorem State.drawn_getElem? (s : State) {i : Nat} (hi : i < 32) : s.drawn[i]? = some (Config.draw s.tick i) := by
  rw [State.drawn, List.getElem?_map, List.getElem?_range hi]
  rfl

/-- Settles O33: the salt of `nextSalt` is fixed or drawn as the source says, and SALTGEN writes it and the tick. -/
theorem saltgenDrawsSalt : Obligations.SaltgenDrawsSalt := by
  intro s
  refine ⟨s.nextSalt, s.nextSalt_length, fun b hfixed => State.nextSalt_fixed hfixed, fun hnone i hi => ?_, rfl⟩
  rw [State.nextSalt_drawn hnone]
  exact s.drawn_getElem? hi

/-! The outcomes of the issued operations. -/

theorem exec_signop_done {s t : State} (h : signop s = .done t) : exec .signop s = .next t := congrArg finishUnit h

theorem exec_verifyop_done {s t : State} (h : verifyop s = .done t) : exec .verifyop s = .next t :=
  congrArg finishUnit h

/-- Settles O34: SIGNOP completes (R281), and the value is that of its MODEXP (R198, R192). -/
theorem signopComputesSignature : Obligations.SignopComputesSignature := by
  intro s hw hr hodd
  obtain ⟨t, hdone, -, hlen, hpower, hone, hctl, hdigest, hsalt, hbw, hvalid, -⟩ := signop_law s hw hr hodd
  exact ⟨t, exec_signop_done hdone, hlen, hpower, hone, hctl, hdigest, hsalt, hbw, hvalid⟩

/-- Settles O35: VERIFYOP completes, and its answer is the range check and PSSVFY's on the recovered encoding (R286). -/
theorem verifyopChecksSignature : Obligations.VerifyopChecksSignature := by
  intro s hw hr hodd
  obtain ⟨t, hdone, -, hanswer, hctl, hdigest, hsalt, hsig, hbw, -⟩ := verifyop_law s hw hr hodd
  exact ⟨t, exec_verifyop_done hdone, hanswer, hctl, hdigest, hsalt, hsig, hbw⟩

/-! Signing, then verifying (R287). -/

/-- The public exponent takes the signature back to the encoding, which a modulus with bit 4095 set exceeds (R252). -/
theorem signature_power_eq_encoding {n d e sig : Nat} {digest salt : List Byte} (hs : salt.length = 32)
    (hn : 2 ^ 4095 ≤ n) (hinv : ∀ m, m < n → (m ^ d % n) ^ e % n = m)
    (hsig : sig = be (pssEncode digest salt 4095) ^ d % n) : be (pssEncode digest salt 4095) = sig ^ e % n := by
  rw [hsig]
  exact (hinv _ ((pssEncode_lt digest salt hs).trans_le hn)).symm

/-- Settles O36: the signature is a residue, and its power is the encoding of the digest with the salt that SIGNOP read
(R287). -/
theorem verifyopAcceptsSignature : Obligations.VerifyopAcceptsSignature := by
  intro s hw hr hodd hn hd hinv
  obtain ⟨t, hsign, hrt, -, hpower, -, hctl, hdigest, -, -, -, hwt, -⟩ := signop_law s hw hr fun _ => hodd
  have hsig := hpower hd
  have hsalt : s.mem.salt.length = 32 := (Memory.wf_iff _).1 hw .salt
  have hbelow : be t.mem.sigbuf < val s.key.n.toList := hsig ▸ Nat.mod_lt _ ((Nat.two_pow_pos _).trans_le hn)
  obtain ⟨u, hverify, -, hanswer, -⟩ := verifyop_law t hwt hrt fun _ => hctl.key ▸ hodd
  rw [hctl.key, hdigest] at hanswer
  exact ⟨t, u, exec_signop_done hsign, exec_verifyop_done hverify,
    hanswer.2 ⟨hbelow, s.mem.salt, hsalt, signature_power_eq_encoding hsalt hn hinv hsig⟩⟩

end Sys2Proof.Machine
end

