-- ==== Sys2Proof/Proofs/Transport.lean ====
section
/-! PROOFS. The unit XPORT (`47_commands.md` R300 to R302): what RDBYTE, RDBUF and WRBYTE move between the queues and the
buffers. -/

namespace Sys2Proof.Machine

/-! RDBYTE (R300). -/

theorem exec_rdbyte_cons {s : State} {buf : Buf} {i : Nat} {b : Byte} {rest : List Byte}
    (hf : s.fits ⟨buf, i, 1⟩ = true) (hr : s.rxq = b :: rest) :
    exec (.rdbyte buf i) s = .next (({ s with rxq := rest }).putBytes buf i [b]) := by
  simp only [exec, execRdbyte, withSlice_true hf, hr, finishUnit]

theorem exec_rdbyte_nil {s : State} {buf : Buf} {i : Nat} (hf : s.fits ⟨buf, i, 1⟩ = true) (hr : s.rxq = []) :
    exec (.rdbyte buf i) s = .next { s with uq := issueRdbyte buf i :: s.uq } := by
  simp only [exec, execRdbyte, withSlice_true hf, hr, finishUnit]

/-- Settles O38: `RXQ` decides between taking the byte and waiting. -/
theorem rdbyteTakesOldestByte : Obligations.RdbyteTakesOldestByte := by
  intro buf i s hf
  refine ⟨⟨_, rfl⟩, fun b rest hr => ?_, exec_rdbyte_nil hf⟩
  obtain ⟨hin, hout⟩ := State.putBytes_slice (s := { s with rxq := rest }) (bs := [b]) hf rfl
  exact ⟨_, exec_rdbyte_cons hf hr, rfl, hin 0 Nat.one_pos, hout⟩

/-! RDBUF (R301). -/

/-- The bytes that have arrived are taken from `RXQ` into the slice, from its start. -/
def State.fillFromRxq (s : State) (d : Slice) : State :=
  ({ s with rxq := s.rxq.drop d.len }).putBytes d.buf d.off (s.rxq.take d.len)

/-- Where the bytes that have arrived go, and what they leave. -/
theorem State.fillFromRxq_bytes {s : State} {d : Slice} (hf : s.fits d = true) :
    (∀ j, j < d.len → j < s.rxq.length → (s.fillFromRxq d).mem.byte d.buf (d.off + j) = s.rxq[j]?)
      ∧ SameBytesOutside s (s.fillFromRxq d) ⟨d.buf, d.off, min d.len s.rxq.length⟩ := by
  have hfit : State.fits { s with rxq := s.rxq.drop d.len } ⟨d.buf, d.off, min d.len s.rxq.length⟩ = true := by
    rw [State.fits_iff] at hf ⊢
    dsimp only
    omega
  obtain ⟨hin, hout⟩ := State.putBytes_slice hfit (List.length_take (l := s.rxq))
  exact ⟨fun j hd hr => (hin j (lt_min hd hr)).trans (List.getElem?_take_of_lt hd), hout⟩

section
variable {s : State} {d : Slice} (hf : s.fits d = true)
include hf

theorem exec_rdbuf_full (h : d.len ≤ s.rxq.length) : exec (.rdbuf d) s = .next (s.fillFromRxq d) := by
  have hgot : (s.rxq.take d.len).length = d.len := List.length_take_of_le h
  simp only [exec, execRdbuf, withSlice_true hf, if_pos hgot, finishUnit, State.fillFromRxq]

theorem exec_rdbuf_short (h : s.rxq.length < d.len) :
    exec (.rdbuf d) s = .next { s.fillFromRxq d with
      uq := issueRdbuf ⟨d.buf, d.off + s.rxq.length, d.len - s.rxq.length⟩ :: s.uq } := by
  have hgot : (s.rxq.take d.len).length = s.rxq.length := by rw [List.take_of_length_le h.le]
  simp only [exec, execRdbuf, withSlice_true hf, hgot, if_neg h.ne, finishUnit, State.fillFromRxq]
  rfl

end

/-- Settles O39: the slice is full, or the rest of it stays pending; the bytes go to it alike. -/
theorem rdbufFillsBuffer : Obligations.RdbufFillsBuffer := by
  intro d s hf
  obtain ⟨hin, hout⟩ := State.fillFromRxq_bytes hf
  refine ⟨⟨_, rfl⟩, ?_⟩
  rcases le_or_gt d.len s.rxq.length with h | h
  · exact ⟨_, exec_rdbuf_full hf h, hin, hout, rfl, fun _ => rfl, fun hlt => absurd h hlt.not_ge⟩
  · exact ⟨_, exec_rdbuf_short hf h, hin, hout, rfl, fun hle => absurd h hle.not_gt, fun _ => rfl⟩

/-- Settles O40: the one byte of the source goes to the end of `TXQ` (R302). -/
theorem wrbyteAppendsByte : Obligations.WrbyteAppendsByte :=
  fun _ _ _ h => ⟨⟨_, rfl⟩, congrArg finishUnit (withBytes_some h _)⟩

end Sys2Proof.Machine
end

