-- ==== Sys2Proof/Proofs/Commands.lean ====
section
/-! PROOFS. The commands (`47_commands.md` R306 to R311): what EXEC of each answers, that an ignored opcode does nothing,
and that the engine uses its queues in order. -/

namespace Sys2Proof.Machine

/-! SIGN and VERIFY (R307, R308). -/

/-- A command has written buffers and drawn its salt before the unit operations of its service, and moves the sequencer
after them; the rest of the control state is as they leave it. -/
theorem SameControl.of_command {s t : State} {m : Memory} {k : Nat}
    (h : SameControl { s with mem := m, tick := k } t) (q : Seq) : SameControl s { t.goto q with seq := s.seq } :=
  ⟨h.key, h.par, h.err, h.halt, h.cause, rfl, h.rxq, h.txq, h.uq, h.turns⟩

/-- Settles O41: SIGN is SIGNOP on the digest of its payload and the salt SALTGEN gives (R283, R281). -/
theorem signCommandComputesResponse : Obligations.SignCommandComputesResponse := by
  intro dg s hdg hw hr hodd
  have hwd : { s.mem with digest := dg }.wf = true := Memory.wf_put s.mem .digest dg hw hdg
  have hws := (saltgen_kept { s with mem := { s.mem with digest := dg } }).mem hwd
  obtain ⟨t, hdone, -, hlen, hpower, hone, hctl, hdigest, hsalt, hbw, hvalid, -⟩ := signop_law _ hws hr hodd
  refine ⟨t.goto (.txp .sign 0), s.nextSalt, ?_, rfl, hlen, s.nextSalt_length, fun b => State.nextSalt_fixed, hpower, hone,
    .of_command (s := s) hctl _, hdigest, hsalt, hbw, hvalid⟩
  rw [exec_sign_eq hdg, hdone, finishCommand]

/-- Settles O42: VERIFY is VERIFYOP on its payload (R286), and its one byte says `VALID` (R308). -/
theorem verifyCommandComputesResponse : Obligations.VerifyCommandComputesResponse := by
  intro dg sg s hdg hsg hw hr hodd
  have hws : { s.mem with digest := dg, sigbuf := sg }.wf = true :=
    Memory.wf_put _ .sigbuf sg (Memory.wf_put s.mem .digest dg hw hdg) hsg
  obtain ⟨t, hdone, -, hanswer, hctl, hdigest, hsalt, hsig, hbw, -⟩ :=
    verifyop_law { s with mem := { s.mem with digest := dg, sigbuf := sg } } hws hr hodd
  refine ⟨t.goto (.txp .verify 0), ?_, rfl, ?_, .of_command (s := s) hctl _, hdigest, hsig, hsalt, hbw⟩
  · rw [exec_verify_eq hdg hsg, hdone, finishCommand]
  · have hbyte : (t.goto (.txp .verify 0)).response .verify = [if t.fl.valid then 0x01 else 0x00] := rfl
    rw [hbyte]
    by_cases hv : t.fl.valid = true
    · exact .inl ⟨by rw [if_pos hv], hanswer.1 hv⟩
    · exact .inr ⟨by rw [if_neg hv], fun h => hv (hanswer.2 h)⟩

/-! The stubs (R309, R310). -/

theorem State.sendFrom_zero_of_nil {s : State} {op : Cmd} (h : s.response op = []) : s.sendFrom op 0 = .idle := by
  rw [State.sendFrom, h, List.length_nil, if_neg (Nat.lt_irrefl 0)]

theorem State.sendFrom_zero_of_ne_nil {s : State} {op : Cmd} (h : s.response op ≠ []) :
    s.sendFrom op 0 = .txp op 0 := if_pos (List.length_pos_iff.2 h)

/-- A stub moves the sequencer to the first byte of `STUB_RESPONSE`. -/
theorem exec_stub (s : State) :
    exec .getowner s = .next (s.goto (s.sendFrom .getowner 0))
      ∧ exec .getaddress s = .next (s.goto (s.sendFrom .getaddress 0)) := ⟨rfl, rfl⟩

/-- Settles O43: both stubs send `STUB_RESPONSE` from its byte 0, if there is one. -/
theorem stubCommandsSendStubResponse : Obligations.StubCommandsSendStubResponse := by
  intro s
  obtain ⟨howner, haddress⟩ := exec_stub s
  refine ⟨fun h => ?_, fun h => ?_⟩
  · rw [howner, haddress, State.sendFrom_zero_of_nil (op := .getowner) h, State.sendFrom_zero_of_nil (op := .getaddress) h]
    exact ⟨rfl, rfl⟩
  · rw [howner, haddress, State.sendFrom_zero_of_ne_nil (op := .getowner) h,
      State.sendFrom_zero_of_ne_nil (op := .getaddress) h]
    exact ⟨rfl, rfl⟩

/-! The ignored opcodes (R311). -/

/-- Settles O44: each of the six does nothing, and IDLE runs one of them on an opcode byte that names no command. -/
theorem ignoredOpcodesDoNothing : Obligations.IgnoredOpcodesDoNothing := by
  refine ⟨fun s => ⟨fun _ => rfl, fun _ => rfl, fun _ => rfl, fun _ => rfl, fun _ => rfl, fun _ => rfl⟩,
    fun s s0 b rest h hq hu hr hb => ?_⟩
  rw [step_ignored h hq hu hr ((commandOf_none_iff b).2 hb), exec_ignoredOf]

/-! The queues (R74, R98, R306). -/

/-- A command in EXEC neither reads nor sends. -/
theorem exec_command_queues {op : Cmd} {s t : State} {i : Instr} (hr : runCommand op s = .run i s)
    (hx : exec i s = .next t) : t.rxq = s.rxq ∧ t.txq = s.txq := by
  obtain ⟨v, -, -, -, -, ⟨-, hrx, htx⟩, -, -, rfl | ⟨rfl, -⟩ | ⟨c, rfl⟩ | ⟨c, rfl⟩⟩ := exec_command_next hr hx <;>
    exact ⟨hrx, htx⟩

theorem State.endCommand_queues (s : State) (op : Cmd) :
    (s.endCommand op).rxq = s.rxq ∧ (s.endCommand op).txq = s.txq := by
  cases op <;> exact ⟨rfl, rfl⟩

/-- What a step of ENGINE does to the queues, with no unit operation pending: it keeps both, takes the oldest byte of
`RXQ` in IDLE or RXP, or sends at the end of `TXQ` outside EXEC. -/
theorem EngineNext.queues {s t : State} (hu : s.uq = []) (h : EngineNext s t) :
    (t.rxq = s.rxq ∧ t.txq = s.txq)
      ∨ ((s.seq = .idle ∨ ∃ op k, s.seq = .rxp op k) ∧ t.rxq = s.rxq.drop 1 ∧ t.txq = s.txq)
      ∨ ((∀ op, s.seq ≠ .exec op) ∧ t.rxq = s.rxq ∧ ∃ sent, t.txq = s.txq ++ sent) := by
  cases h with
  | unit hq hpending hd hx => cases hu.symm.trans hpending
  | wait _ => exact .inl ⟨rfl, rfl⟩
  | enter hq hu hr hc => exact .inr (.inl ⟨.inl hq, by rw [hr]; rfl, rfl⟩)
  | ignored hq hu hr hc => exact .inr (.inl ⟨.inl hq, by rw [hr]; rfl, rfl⟩)
  | payload hq hr =>
    rw [State.storePayload_eq]
    exact .inr (.inl ⟨.inr ⟨_, _, hq⟩, by rw [hr]; rfl, rfl⟩)
  | command hq hr hx => exact .inl (exec_command_queues hr hx)
  | more hq hk => exact .inr (.inr ⟨by simp [hq], rfl, _, rfl⟩)
  | @last op k hq hk =>
    obtain ⟨hrx, htx⟩ := (s.txBytes ((s.response op)[k]?).toList).endCommand_queues op
    exact .inr (.inr ⟨by simp [hq], hrx, _, htx⟩)
  | status hq => exact .inr (.inr ⟨by simp [hq], rfl, _, rfl⟩)
  | diag hq => exact .inr (.inr ⟨by simp [hq], rfl, _, rfl⟩)

/-- Settles O50, from what each row of the sequencer does to the queues. -/
theorem engineUsesQueuesInOrder : Obligations.EngineUsesQueuesInOrder := by
  intro s s0 t h hu ht
  rcases (engineNext_of_step h ht).queues hu with ⟨hrx, htx⟩ | ⟨hq, hrx, htx⟩ | ⟨hne, hrx, hsent⟩
  · exact ⟨.inl hrx, ⟨[], htx.trans (List.append_nil _).symm⟩, fun _ _ => ⟨hrx, htx⟩⟩
  · refine ⟨.inr ⟨hq, hrx⟩, ⟨[], htx.trans (List.append_nil _).symm⟩, fun op he => ?_⟩
    rcases hq with hq | ⟨_, _, hq⟩ <;> cases hq.symm.trans he
  · exact ⟨.inl hrx, hsent, fun op he => absurd he (hne op)⟩

end Sys2Proof.Machine
end

