-- ==== Sys2Proof/Proofs/Transaction.lean ====
section
/-! PROOFS. A command on the byte stream (`10_state.md` R36, `47_commands.md` R305 to R307): ENGINE moving alone takes
the opcode and the payload byte by byte, runs the command, and sends the response byte by byte. The first and the last
part are the same for every command; Sign is put together from them. -/

namespace Sys2Proof.Machine

theorem Steps.single {s t : State} (h : step s = .next t) : Steps 1 s t := .tail h (.refl t)

/-- ENGINE moves alone where the list of turns is empty (log 13). -/
theorem State.engineTurn_self {s : State} (h : s.turns = []) : s.engineTurn s := .inl ⟨h, rfl⟩

/-! Taking the payload. -/

theorem splice_singleton {α : Type} (xs : List α) (k : Nat) (x : α) (h : k < xs.length) :
    splice xs k [x] = xs.set k x := by
  rw [List.set_eq_take_append_cons_drop, if_pos h, splice, List.append_assoc]
  rfl

theorem State.payload_length {s : State} (hw : s.mem.wf = true) (op : Cmd) : (s.payload op).length = op.payloadLen := by
  have hsize := (Memory.wf_iff _).1 hw
  cases op with
  | sign => exact hsize .digest
  | verify => exact List.length_append.trans (congrArg₂ (· + ·) (hsize .digest) (hsize .sigbuf))
  | getowner => rfl
  | getaddress => rfl

/-- Payload byte `k` of a command, stored, is byte `k` of what the command will read (R94, R95). -/
theorem State.payload_storePayload {s : State} (hw : s.mem.wf = true) {op : Cmd} {k : Nat} (b : Byte)
    (hk : k < op.payloadLen) : (s.storePayload k b).payload op = (s.payload op).set k b := by
  have hd : s.mem.digest.length = 32 := (Memory.wf_iff _).1 hw .digest
  have hs : s.mem.sigbuf.length = 512 := (Memory.wf_iff _).1 hw .sigbuf
  cases op with
  | sign =>
    rw [State.storePayload, if_pos (show k < 32 from hk)]
    exact splice_singleton _ _ _ (hk.trans_eq hd.symm)
  | verify =>
    rw [State.storePayload, State.payload, State.payload, List.set_append, hd]
    by_cases h32 : k < 32
    · rw [if_pos h32, if_pos h32]
      exact congrArg (· ++ s.mem.sigbuf) (splice_singleton _ _ _ (h32.trans_eq hd.symm))
    · have hk : k - 32 < s.mem.sigbuf.length := by rw [hs]; exact Nat.sub_lt_left_of_lt_add (Nat.not_lt.1 h32) hk
      rw [if_neg h32, if_neg h32]
      exact congrArg (s.mem.digest ++ ·) (splice_singleton _ _ _ hk)
  | getowner => cases hk
  | getaddress => cases hk

/-- A list that agrees with `p` up to index `k`, with byte `k` of `p` written, agrees with it one byte further. -/
theorem take_succ_set {α : Type} {xs p : List α} {k : Nat} (hx : k < xs.length) (hp : k < p.length)
    (h : xs.take k = p.take k) : (xs.set k p[k]).take (k + 1) = p.take (k + 1) := by
  rw [List.take_add_one, List.take_set_of_le le_rfl, List.getElem?_set_self hx, h]
  exact List.take_append_getElem hp

theorem rxFrom_payloadLen (op : Cmd) : rxFrom op op.payloadLen = .exec op := if_neg (lt_irrefl _)

/-- The step of RXP in the state the byte before it led to. -/
theorem step_receive {s : State} {op : Cmd} {k : Nat} {b : Byte} {rest : List Byte} (hts : s.turns = [])
    (hq : s.seq = rxFrom op k) (hk : k < op.payloadLen) (hr : s.rxq = b :: rest) :
    step s = .next ((({ s with rxq := rest }).storePayload k b).goto (rxFrom op (k + 1))) :=
  step_rxp (State.engineTurn_self hts) (hq.trans (if_pos hk)) hr

section
variable {s : State} {op : Cmd} {p rest : List Byte} (hts : s.turns = []) (hw : s.mem.wf = true)
  (hp : p.length = op.payloadLen)
include hts hw hp

/-- After `k` steps of RXP the first `k` payload bytes stand where the command will read them, and only buffers, `RXQ`
and `SEQ` have changed. -/
theorem receive_steps (hq : s.seq = rxFrom op 0) (hr : s.rxq = p ++ rest) {k : Nat} (hk : k ≤ op.payloadLen) :
    ∃ t, Steps k s t ∧ t = { s with mem := t.mem, rxq := p.drop k ++ rest, seq := rxFrom op k } ∧ t.mem.wf = true
      ∧ (t.payload op).take k = p.take k := by
  induction k with
  | zero => exact ⟨s, .refl s, by rw [List.drop_zero, ← hr, ← hq], hw, rfl⟩
  | succ k ih =>
    obtain ⟨t, hsteps, ht, hwt, htake⟩ := ih (Nat.le_of_succ_le hk)
    have hkp : k < p.length := hp ▸ hk
    have hrx : t.rxq = p[k] :: (p.drop (k + 1) ++ rest) := by
      rw [ht, List.drop_eq_getElem_cons hkp]
      rfl
    have hstep := step_receive (by rw [ht]; exact hts) (by rw [ht]) hk hrx
    refine ⟨_, hsteps.trans (.single hstep), ?_, ?_, ?_⟩
    · rw [State.storePayload_eq, ht]
      rfl
    · exact Memory.wf_payload { t with rxq := _ } k _ hwt (hk.trans (payloadLen_le op))
    · have hkt : k < (t.payload op).length := (State.payload_length hwt op).symm ▸ hk
      refine Eq.trans (congrArg (List.take (k + 1)) ?_) (take_succ_set hkt hkp htake)
      exact State.payload_storePayload (s := { t with rxq := p.drop (k + 1) ++ rest }) hwt p[k] hk

/-- IDLE takes the opcode and then the payload, one byte a step, and comes to EXEC (R305). -/
theorem request_steps (hu : s.uq = []) (hq : s.seq = .idle) (hr : s.rxq = op.opcode :: (p ++ rest)) :
    ∃ t, Steps (1 + op.payloadLen) s t ∧ t = { s with mem := t.mem, rxq := rest, seq := .exec op } ∧ t.mem.wf = true
      ∧ t.payload op = p := by
  have henter := step_enter (State.engineTurn_self hts) hq hu hr (commandOf_opcode op)
  obtain ⟨t, hsteps, ht, hwt, htake⟩ :=
    receive_steps (s := ({ s with rxq := p ++ rest }).goto (rxFrom op 0)) hts hw hp rfl rfl le_rfl
  rw [List.take_of_length_le (State.payload_length hwt op).le, List.take_of_length_le hp.le] at htake
  rw [List.drop_of_length_le hp.le, List.nil_append, rxFrom_payloadLen] at ht
  exact ⟨t, (Steps.single henter).trans hsteps, ht, hwt, htake⟩

end

/-- EXEC runs the command of a payload of the right length. -/
theorem step_exec_instr {s : State} {op : Cmd} (hts : s.turns = []) (hq : s.seq = .exec op) (hw : s.mem.wf = true) :
    step s = exec (Cmd.instr op (s.payload op)) s := by
  have hd := decodeStream_of_commandOf_some (commandOf_opcode op) (s.payload op)
  rw [if_neg (State.payload_length hw op).not_lt] at hd
  exact step_exec (State.engineTurn_self hts) hq hd

/-! Sending the response. -/

/-- The state in which the first `k` bytes of the response have been sent. -/
def State.sent (s : State) (op : Cmd) (k : Nat) : State := s.txBytes ((s.response op).take k)

/-- Sending and the moves of the sequencer leave the response as it is. -/
theorem State.sent_response (s : State) (op : Cmd) (k : Nat) (q : Seq) :
    ((s.sent op k).goto q).response op = s.response op := by
  cases op <;> rfl

theorem State.sent_succ (s : State) (op : Cmd) (k : Nat) :
    (s.sent op k).txBytes ((s.response op)[k]?).toList = s.sent op (k + 1) := by
  rw [State.sent, State.sent, List.take_add_one, State.txBytes, State.txBytes, State.txBytes, List.append_assoc]

section
variable {s : State} {op : Cmd} (hts : s.turns = []) (hq : s.seq = .txp op 0)
include hts

/-- One step of TXP on the way sends the next byte, and after the last one the command ends (R38). -/
theorem step_sent {k : Nat} :
    (k + 1 < (s.response op).length →
      step ((s.sent op k).goto (.txp op k)) = .next ((s.sent op (k + 1)).goto (.txp op (k + 1))))
    ∧ (k + 1 = (s.response op).length →
      step ((s.sent op k).goto (.txp op k)) = .next (((s.sent op (k + 1)).endCommand op).goto .idle)) := by
  have hstep : step ((s.sent op k).goto (.txp op k)) = sendByte op k ((s.sent op k).goto (.txp op k)) :=
    step_txp (State.engineTurn_self (s := (s.sent op k).goto _) hts) rfl
  have hresp := s.sent_response op k (.txp op k)
  refine ⟨fun hk => ?_, fun hk => ?_⟩
  · rw [hstep, sendByte_more (hresp.symm ▸ hk), hresp, ← s.sent_succ]
    rfl
  · rw [hstep, sendByte_last (hresp.symm ▸ hk.not_lt), hresp, ← s.sent_succ]
    cases op <;> rfl

include hq

/-- After `k` steps of TXP the first `k` bytes are sent and the next one is due. -/
theorem send_steps {k : Nat} (hk : k < (s.response op).length) : Steps k s ((s.sent op k).goto (.txp op k)) := by
  induction k with
  | zero =>
    have hs : (s.sent op 0).goto (.txp op 0) = s := by
      rw [State.sent, State.txBytes, List.take_zero, List.append_nil, State.goto, ← hq]
    rw [hs]
    exact .refl s
  | succ k ih => exact (ih (Nat.lt_of_succ_lt hk)).trans (.single ((step_sent hts).1 hk))

/-- TXP sends the whole response, one byte a step, and the command ends in IDLE (R36, R38, R96). -/
theorem response_steps (hpos : 0 < (s.response op).length) :
    Steps (s.response op).length s (((s.txBytes (s.response op)).endCommand op).goto .idle) := by
  obtain ⟨k, hk⟩ := Nat.exists_eq_add_one_of_ne_zero hpos.ne'
  have hall : s.sent op (k + 1) = s.txBytes (s.response op) := by rw [State.sent, List.take_of_length_le hk.le]
  rw [hk, ← hall]
  exact (send_steps hts hq (hk ▸ Nat.lt_succ_self k)).trans (.single ((step_sent hts).2 hk.symm))

end

/-! Sign (R307). -/

/-- Settles O59: the request is 1 + 32 steps, the command one, which is SIGN's law (O41), and the response 512. -/
theorem signTransactionSendsSignature : Obligations.SignTransactionSendsSignature := by
  intro s dg rest hts hu hq hw hr hrx hdg hodd
  obtain ⟨a, hreq, ha, hwa, hpay⟩ := request_steps (op := .sign) hts hw hdg hu hq hrx
  have hts' : a.turns = [] := by rw [ha]; exact hts
  have hkey : a.key = s.key := by rw [ha]
  have hexec : step a = exec (.sign dg) a := by
    rw [step_exec_instr (op := .sign) hts' (by rw [ha]) hwa, hpay, Cmd.instr, List.take_of_length_le hdg.le]
  obtain ⟨t, salt, hsign, hseq, hlen, hsalt, -, hpower, hone, hctl, -⟩ :=
    signCommandComputesResponse dg a hdg hwa (by rw [ha]; exact hr) (hkey.symm ▸ hodd)
  rw [hkey] at hpower hone
  have hresp := response_steps (s := t) (op := .sign) (hctl.turns.trans hts') hseq (hlen.symm ▸ by decide)
  rw [show (t.response .sign).length = 512 from hlen] at hresp
  refine ⟨_, salt, t.mem.sigbuf, (hreq.trans (.single (hexec.trans hsign))).trans hresp, rfl, ?_, ?_, hlen, hsalt, hpower,
    hone, ?_, ?_, ?_, Memory.wf_free _, WRegs.wf_free _⟩
  · exact hctl.rxq.trans (by rw [ha])
  · exact congrArg (· ++ t.mem.sigbuf) (hctl.txq.trans (by rw [ha]))
  · exact hctl.key.trans hkey
  · exact hctl.err.trans (by rw [ha])
  · exact hctl.halt.trans (by rw [ha])

end Sys2Proof.Machine
end

