-- ==== Sys2Proof/Proofs/Exceptions.lean ====
section
/-! PROOFS. The exceptions (`60_exceptions.md`): the steps of TXE and DIAG (R335, R338), HALTED (R339), the platform's
report and reset (R333, R370). -/

namespace Sys2Proof.Machine

/-- Settles O48, from the rows of TXE and DIAG: what TXE leaves undefined is none of the fields named. -/
theorem errorAndDiagnosticAreSent : Obligations.ErrorAndDiagnosticAreSent := by
  intro s s0 h
  exact ⟨fun hq => ⟨_, step_txe h hq, rfl, rfl, rfl, rfl, rfl, rfl, rfl⟩, fun hq => step_diag h hq⟩

/-- Settles O49, turn by turn: ENGINE waits, HOST moves a queue, and a platform report finds `HALT` set, so neither row
that raises Fatal is open. -/
theorem haltedEndsOnlyByReset : Obligations.HaltedEndsOnlyByReset := by
  intro s t hq hh hreset ht
  cases stepNext_of_step ht with
  | @engine s0 _ hturn _ =>
    have hq0 : s0.seq = .halted := by rcases hturn with ⟨-, rfl⟩ | ⟨ts, -, rfl⟩ <;> exact hq
    cases (step_halted hturn hq0).symm.trans ht
    rcases hturn with ⟨-, rfl⟩ | ⟨ts, -, rfl⟩ <;> exact ⟨rfl, .inl rfl, .inl rfl⟩
  | @hostSend b _ _ _ => exact ⟨rfl, .inr ⟨b, rfl⟩, .inl rfl⟩
  | hostTake _ => exact ⟨rfl, .inl rfl, .inr rfl⟩
  | platformHalted _ _ => exact ⟨rfl, .inl rfl, .inl rfl⟩
  | platformFatal _ hlive => cases hh.symm.trans hlive
  | platformFatalInside _ hlive => cases hh.symm.trans hlive
  | reset hts => exact absurd (congrArg List.head? hts) hreset

/-! The platform's report on a live engine (R331, R333). -/

section
variable {s : State} {c : PlatformCause} (hl : s.live)
include hl

theorem platformFatal_live : platformFatal c s = .next (s.raiseFatal c.toFatal) :=
  if_neg (Bool.eq_false_iff.1 hl)

/-- In EXEC of Sign or Verify the unit operations are abandoned first (R338). -/
theorem platformFatalInside_service (hq : s.seq = .exec .sign ∨ s.seq = .exec .verify) :
    platformFatalInside c s = .next (s.abandon.raiseFatal c.toFatal) := by
  refine (if_neg (Bool.eq_false_iff.1 hl)).trans ?_
  rcases hq with hq | hq <;> rw [hq]

/-- In any other step the report lands before it. -/
theorem platformFatalInside_other (hs : s.seq ≠ .exec .sign) (hv : s.seq ≠ .exec .verify) :
    platformFatalInside c s = .next (s.raiseFatal c.toFatal) := by
  refine (if_neg (Bool.eq_false_iff.1 hl)).trans ?_
  split
  · exact absurd ‹_› hs
  · exact absurd ‹_› hv
  · rfl

end

/-- A Verify's request stands in `SIGBUF` where its EXEC is abandoned (log 14). -/
theorem State.abandonedSigbuf_verify {s : State} (hq : s.seq = .exec .verify) : s.abandonedSigbuf = s.mem.sigbuf :=
  if_pos hq

/-- Settles O52. Between two steps and outside EXEC of Sign or Verify the report is Fatal's entry on the state as it is;
inside EXEC it is that entry on the abandoned state, of which a Verify keeps `SIGBUF`. -/
theorem platformFatalAndResetTakeEffect : Obligations.PlatformFatalAndResetTakeEffect := by
  intro s ts
  refine ⟨fun c hts hl => ?_, fun c hts hl => ?_, fun hts => ?_⟩
  · exact ⟨_, (step_platformFatal hts).trans (platformFatal_live hl), rfl, rfl, by cases c <;> rfl, rfl⟩
  · by_cases hq : s.seq = .exec .sign ∨ s.seq = .exec .verify
    · refine ⟨_, (step_platformFatalInside hts).trans (platformFatalInside_service hl hq), rfl, rfl,
        by cases c <;> rfl, rfl, rfl, rfl, rfl, rfl, rfl, rfl, rfl, fun hs => ?_,
        fun hs hv => absurd hq (not_or.2 ⟨hs, hv⟩)⟩
      exact State.abandonedSigbuf_verify (s := { s with turns := ts }) (hq.resolve_left hs)
    · obtain ⟨hs, hv⟩ := not_or.1 hq
      exact ⟨_, (step_platformFatalInside hts).trans (platformFatalInside_other hl hs hv), rfl, rfl,
        by cases c <;> rfl, rfl, rfl, rfl, rfl, rfl, rfl, rfl, rfl, fun _ => rfl, fun _ _ => rfl⟩
  · exact ⟨_, step_reset hts, State.afterReset_key _, State.afterReset_par _, rfl, rfl, rfl, rfl, rfl, rfl,
      State.afterReset_turns _⟩

end Sys2Proof.Machine
end
